-- ==== Sys2Proof/Word.lean ====
section
/-! DEFINITION. The plain data types of the PVRTC decompressor core: bytes, 32-bit fields, compressed words, pixels, and
the small enumerations the spec names. Nothing here computes anything a test could show wrong. -/

namespace Sys2Proof

/-- The smallest addressable unit (20_memory.md R60 to R62). -/
abbrev Byte := BitVec 8

/-- One 32-bit field: `modulationData`, `colorData`, `WIDTH`, `HEIGHT` or `RESULT` (R11, R14). -/
abbrev Word32 := BitVec 32

/-- The `VARIANT` option (R2, R33): 0 is PVRTC-I, 1 is PVRTC-II. -/
inductive Variant where
  | pvrtcI
  | pvrtcII
  deriving DecidableEq, Repr, Inhabited

/-- `PIXEL_ORDER` (R13): the byte order of a stored pixel (R65). -/
inductive PixelOrder where
  | rgba
  | bgra
  deriving DecidableEq, Repr, Inhabited

/-- `MORTON_LOW_AXIS` (R13, R233): which coordinate supplies bit 0 of the interleave. -/
inductive Axis where
  | x
  | y
  deriving DecidableEq, Repr, Inhabited

/-- The four blocks of a tile (R20): P this block, Q the right, R the lower, S the diagonal neighbour. -/
inductive Corner where
  | p
  | q
  | r
  | s
  deriving DecidableEq, Repr, Inhabited

/-- One value for each of the four blocks of a tile (R36 to R38). -/
structure Corners (α : Type) where
  p : α
  q : α
  r : α
  s : α
  deriving DecidableEq, Repr, Inhabited

/-- The two representative colours of a word (R20). -/
inductive ColorSlot where
  | a
  | b
  deriving DecidableEq, Repr, Inhabited

/-- An interpolation-mode tag of the `MM` grid (R39): 0 Direct, 1 H&V, 2 H-only, 3 V-only. -/
inductive ModTag where
  | direct
  | hv
  | hOnly
  | vOnly
  deriving DecidableEq, Repr, Inhabited

/-- Pixel32 (R20, R38): four unsigned 8-bit channels. -/
structure Pixel32 where
  r : Byte
  g : Byte
  b : Byte
  a : Byte
  deriving DecidableEq, Repr, Inhabited

/-- Pixel128S (R20, R40): four signed 32-bit channels. -/
structure Pixel128 where
  r : BitVec 32
  g : BitVec 32
  b : BitVec 32
  a : BitVec 32
  deriving DecidableEq, Repr, Inhabited

/-- A compressed word as the word registers hold it (R11, R37): `modulationData` and `colorData`. -/
structure CWord where
  mod : Word32
  col : Word32
  deriving DecidableEq, Repr, Inhabited

end Sys2Proof
end

