-- ==== Sys2Proof/Config.lean ====
section
/-! DEFINITION. The free values of the model: opaque constants with no body, one for every value the spec leaves open
("any value", "unspecified", "holds no value") after which the machine goes on. No proof can see what they are. -/

namespace Sys2Proof

/-- The `ALLOC_OK` draws (R13, R294): draw number `n`, used when the environment has supplied no draw of its own
(`State.allocGiven` is empty). Log entry 7. -/
opaque Config.allocOk : Nat → Bool

/-- `RESULT` after START and before the command ends (R322 "RESULT <- unspecified", U12). Applied to the model's
counter `State.draws`. Log entry 8. -/
opaque Config.openResult : Nat → BitVec 32

/-- What a read of an `MV` entry that is `none`, or of a position outside the supergrid, gives (U13 "any value").
The first argument is the column, the second the row. Log entry 9. -/
opaque Config.openCode : Int → Int → Nat

/-- What a read of an `MM` entry that is `none` gives (U13). Log entry 9. -/
opaque Config.openTag : Nat → Nat → ModTag

/-- What a read of an entry of `UA` or `UB` that holds no value gives (R40, U13): colour slot and index. Log entry 9. -/
opaque Config.openColor : ColorSlot → Nat → Pixel128

/-- What a read of an entry of `TILE` that holds no value gives (R40, U13). Log entry 9. -/
opaque Config.openTexel : Nat → Pixel32

/-- What a read of a byte of `TMP` that the core has not written gives (R42, U14). Log entry 9. -/
opaque Config.openTmpByte : Nat → Byte

/-- The magnitude of a code outside the table `REP = [0, 3, 5, 8]` (R171 gives the table for the codes 0 to 3 only).
Log entry 10. -/
opaque Config.openMagnitude : Nat → Nat

/-- A channel of `Blend(w, A, B)` for a weight above 8 (44_block_compositor.md section 2 gives `Blend` for `w` in `[0, 8]`
only): weight and the two channels. Log entry 14. -/
opaque Config.openBlend : Nat → BitVec 32 → BitVec 32 → BitVec 32

end Sys2Proof
end

