-- ==== Sys2Proof/Syntax.lean ====
section
/-! DEFINITION. The operations of the core, one constructor for each row of spec/opcode_table.json, in the table's order. -/

namespace Sys2Proof

/-- The 27 operations (30_encoding.md R101). The four `DECOMP` commands take their operands `WIDTH`, `HEIGHT`, `IN` and
`OUT` from the command record (R90). The others are the core's internal operations: `k` names the block (P, Q, R or S)
whose registers the operation works on, `(sx, sy)` a supergrid position, `j` the entry `r*W + c` of tile texel `(c, r)`. -/
inductive Instr where
  /-- `DECOMP.I.4BPP` (R280) -/
  | decompI4bpp
  /-- `DECOMP.I.2BPP` (R281) -/
  | decompI2bpp
  /-- `DECOMP.II.4BPP` (R282) -/
  | decompII4bpp
  /-- `DECOMP.II.2BPP` (R283) -/
  | decompII2bpp
  /-- `IDX.MORTON` (R232): storage index of block `k` -/
  | idxMorton (k : Corner)
  /-- `IDX.LINEAR` (R231): storage index of block `k` -/
  | idxLinear (k : Corner)
  /-- `INTERP.4BPP` (R194): the buffer of one colour slot -/
  | interp4bpp (c : ColorSlot)
  /-- `INTERP.2BPP` (R195): the buffer of one colour slot -/
  | interp2bpp (c : ColorSlot)
  /-- `COLA.OPQ` (R121): fields R, G, B of colour A -/
  | colaOpq (k : Corner) (r g : BitVec 5) (b : BitVec 4)
  /-- `COLA.TRN` (R122): fields A, R, G, B of colour A -/
  | colaTrn (k : Corner) (a : BitVec 3) (r g : BitVec 4) (b : BitVec 3)
  /-- `COLB.OPQ` (R123): fields R, G, B of colour B -/
  | colbOpq (k : Corner) (r g b : BitVec 5)
  /-- `COLB.TRN.I` (R124): fields A, R, G, B of colour B -/
  | colbTrnI (k : Corner) (a : BitVec 3) (r g b : BitVec 4)
  /-- `COLB.TRN.II` (R125): fields A, R, G, B of colour B -/
  | colbTrnII (k : Corner) (a : BitVec 3) (r g b : BitVec 4)
  /-- `MOD4.STD` (R142): `modulationData` of block `k` -/
  | mod4Std (k : Corner) (mod : Word32)
  /-- `MOD4.PT` (R143) -/
  | mod4Pt (k : Corner) (mod : Word32)
  /-- `MOD2.DIRECT` (R145) -/
  | mod2Direct (k : Corner) (mod : Word32)
  /-- `MOD2.HV` (R147): `mod[0] = 0` -/
  | mod2Hv (k : Corner) (mod : Word32)
  /-- `MOD2.H` (R148): `mod[0] = 1`, `mod[20] = 0` -/
  | mod2H (k : Corner) (mod : Word32)
  /-- `MOD2.V` (R149): `mod[0] = 1`, `mod[20] = 1` -/
  | mod2V (k : Corner) (mod : Word32)
  /-- `RESOLVE.4BPP` (R170) -/
  | resolve4bpp (sx sy : Nat)
  /-- `RESOLVE.STORED` (R172) -/
  | resolveStored (sx sy : Nat)
  /-- `RESOLVE.HV` (R173) -/
  | resolveHv (sx sy : Nat)
  /-- `RESOLVE.H` (R174) -/
  | resolveH (sx sy : Nat)
  /-- `RESOLVE.V` (R175) -/
  | resolveV (sx sy : Nat)
  /-- `COMPOSE` (R212): tile entry `j` -/
  | compose (j : Nat)
  /-- `COMPOSE.PT.I` (R213): tile entry `j` -/
  | composePtI (j : Nat)
  /-- `COMPOSE.PT.II` (R214): tile entry `j` -/
  | composePtII (j : Nat)
  deriving DecidableEq, Repr

end Sys2Proof
end

