-- ==== Sys2Proof/WellFormed.lean ====
section
/-! DEFINITION. Which terms of `Instr` the core's decoder can produce: the row conditions on the word's bits and on the
supergrid position, and the bounds on positions and tile entries. -/

namespace Sys2Proof

/-- The supergrid positions the compositor asks for in 4 bpp: `sx = c + 2`, `sy = r + 2` with `c, r < 4` (R176, R210). -/
def inTile4 (sx sy : Nat) : Bool := decide (2 ≤ sx ∧ sx < 6 ∧ 2 ≤ sy ∧ sy < 6)

/-- The supergrid positions the compositor asks for in 2 bpp: `sx ∈ [4, 11]`, `sy ∈ [2, 5]` (R176). -/
def inTile2 (sx sy : Nat) : Bool := decide (4 ≤ sx ∧ sx < 12 ∧ 2 ≤ sy ∧ sy < 6)

/-- `(sx ^ sy) & 1 = 1`: the parity of a texel that is not stored (R173 to R175). -/
def oddParity (sx sy : Nat) : Bool := decide ((sx + sy) % 2 = 1)

/-- `TILE` has 32 entries (R40). -/
def tileEntry (j : Nat) : Bool := decide (j < 32)

/-- The terms the decoder can produce. -/
def Instr.wellFormed : Instr → Bool
  | .decompI4bpp | .decompI2bpp | .decompII4bpp | .decompII2bpp => true
  | .idxMorton _ | .idxLinear _ | .interp4bpp _ | .interp2bpp _ => true
  | .colaOpq .. | .colaTrn .. | .colbOpq .. | .colbTrnI .. | .colbTrnII .. => true
  | .mod4Std .. | .mod4Pt .. | .mod2Direct .. => true
  | .mod2Hv _ m => !m.getLsbD 0
  | .mod2H _ m => m.getLsbD 0 && !m.getLsbD 20
  | .mod2V _ m => m.getLsbD 0 && m.getLsbD 20
  | .resolve4bpp sx sy => inTile4 sx sy
  | .resolveStored sx sy => inTile2 sx sy
  | .resolveHv sx sy | .resolveH sx sy | .resolveV sx sy => inTile2 sx sy && oddParity sx sy
  | .compose j | .composePtI j | .composePtII j => tileEntry j

end Sys2Proof
end

