-- ==== Sys2Proof/Decode.lean ====
section
/-! DEFINITION. The decoder: from a command selector, a compressed word and the internal conditions to one operation
(30_encoding.md R90 to R102), the encoder beside it, and the rows of the opcode table. -/

namespace Sys2Proof

/-! ## Commands (R90) -/

/-- `CMDSEL = {VARIANT, IS2BPP}` (R90). -/
def cmdSel (v : Variant) (is2bpp : Bool) : BitVec 2 :=
  (match v with | .pvrtcI => 0#1 | .pvrtcII => 1#1) ++ (if is2bpp then 1#1 else 0#1)

/-- `VARIANT = CMDSEL[1]`. -/
def selVariant (sel : BitVec 2) : Variant := if sel.getLsbD 1 then .pvrtcII else .pvrtcI

/-- `IS2BPP = CMDSEL[0]`. -/
def sel2bpp (sel : BitVec 2) : Bool := sel.getLsbD 0

/-! ## The compressed word (R91 to R97) -/

/-- The word registers' view of the 64-bit `WORD = {col, mod}` (R91). -/
def wordOf64 (w : BitVec 64) : CWord := ⟨w.extractLsb' 0 32, w.extractLsb' 32 32⟩

/-- `WORD = {col, mod}` (R91). -/
def word64 (w : CWord) : BitVec 64 := w.col ++ w.mod

/-- `M = col[0]`, the modulation-mode bit (R92, D8). -/
def modeBit (col : Word32) : Bool := col.getLsbD 0

/-- `col[15]`, the opacity flag of colour A (R93). -/
def opaqueA (col : Word32) : Bool := col.getLsbD 15

/-- `col[31]`, the opacity flag of colour B (R94). -/
def opaqueB (col : Word32) : Bool := col.getLsbD 31

/-- `F = mod[0]`, the sub-mode flag of a 2 bpp selectable word (R97). -/
def subFlag (mod : Word32) : Bool := mod.getLsbD 0

/-- `mod[20]`: V-only (1) or H-only (0) when `F = 1` (R97, D11). -/
def axisFlag (mod : Word32) : Bool := mod.getLsbD 20

/-- The operation colour A of block `k` decodes to (R93, R101 item 2). -/
def decodeColA (k : Corner) (col : Word32) : Instr :=
  if opaqueA col then .colaOpq k (col.extractLsb' 10 5) (col.extractLsb' 5 5) (col.extractLsb' 1 4)
  else .colaTrn k (col.extractLsb' 12 3) (col.extractLsb' 8 4) (col.extractLsb' 4 4) (col.extractLsb' 1 3)

/-- The operation colour B of block `k` decodes to (R94, R101 item 3). -/
def decodeColB (k : Corner) (v : Variant) (col : Word32) : Instr :=
  if opaqueB col then .colbOpq k (col.extractLsb' 26 5) (col.extractLsb' 21 5) (col.extractLsb' 16 5)
  else
    match v with
    | .pvrtcI => .colbTrnI k (col.extractLsb' 28 3) (col.extractLsb' 24 4) (col.extractLsb' 20 4) (col.extractLsb' 16 4)
    | .pvrtcII => .colbTrnII k (col.extractLsb' 28 3) (col.extractLsb' 24 4) (col.extractLsb' 20 4) (col.extractLsb' 16 4)

/-- The modulation operation the word of block `k` decodes to (R101 item 4). -/
def decodeMod (k : Corner) (is2bpp : Bool) (w : CWord) : Instr :=
  if is2bpp then
    if modeBit w.col then
      if subFlag w.mod then
        if axisFlag w.mod then .mod2V k w.mod else .mod2H k w.mod
      else .mod2Hv k w.mod
    else .mod2Direct k w.mod
  else if modeBit w.col then .mod4Pt k w.mod else .mod4Std k w.mod

/-! ## The decoder (R101) -/

/-- Which selection of the decode tree of R101 is being made, with the operands its place in the data flow gives it. -/
inductive Slot where
  /-- a command (R101 item 1, R90) -/
  | command
  /-- the index mapping of block `k` (item 1) -/
  | index (k : Corner)
  /-- the interpolation of a colour slot (item 1) -/
  | interp (c : ColorSlot)
  /-- colour A of block `k` (item 2) -/
  | colA (k : Corner)
  /-- colour B of block `k` (item 3) -/
  | colB (k : Corner)
  /-- the modulation format of block `k`'s word (item 4) -/
  | mod (k : Corner)
  /-- the weight at a supergrid position (item 5) -/
  | resolve (sx sy : Nat)
  /-- the blend of a tile entry (item 6) -/
  | compose (j : Nat)
  deriving DecidableEq, Repr

/-- What the decoder sees: the selection being made, `CMDSEL`, the compressed word, and the two internal conditions of
R101 (the tag of the texel, the weight code). -/
structure Fetched where
  slot : Slot
  sel  : BitVec 2
  word : BitVec 64
  tag  : ModTag
  code : Nat
  deriving DecidableEq, Repr

/-- The weight operation at `(sx, sy)` (R101 item 5, R170 to R175). -/
def decodeResolve (sx sy : Nat) (is2bpp : Bool) (tag : ModTag) : Instr :=
  if is2bpp then
    if oddParity sx sy then
      match tag with
      | .direct => .resolveStored sx sy
      | .hv => .resolveHv sx sy
      | .hOnly => .resolveH sx sy
      | .vOnly => .resolveV sx sy
    else .resolveStored sx sy
  else .resolve4bpp sx sy

/-- The blend operation of tile entry `j` (R101 item 6, R212 to R214). -/
def decodeCompose (j : Nat) (v : Variant) (code : Nat) : Instr :=
  if code ≤ 10 then .compose j
  else match v with
    | .pvrtcI => .composePtI j
    | .pvrtcII => .composePtII j

/-- The command a selector names (R90). -/
def decodeCommand (sel : BitVec 2) : Instr :=
  match selVariant sel, sel2bpp sel with
  | .pvrtcI, false => .decompI4bpp
  | .pvrtcI, true => .decompI2bpp
  | .pvrtcII, false => .decompII4bpp
  | .pvrtcII, true => .decompII2bpp

/-- The decode tree of R101. It is total: every selector and every word value is legal (R90, R99). -/
def decode (f : Fetched) : Instr :=
  match f.slot with
  | .command => decodeCommand f.sel
  | .index k =>
    match selVariant f.sel with
    | .pvrtcI => .idxMorton k
    | .pvrtcII => .idxLinear k
  | .interp c => if sel2bpp f.sel then .interp2bpp c else .interp4bpp c
  | .colA k => decodeColA k (wordOf64 f.word).col
  | .colB k => decodeColB k (selVariant f.sel) (wordOf64 f.word).col
  | .mod k => decodeMod k (sel2bpp f.sel) (wordOf64 f.word)
  | .resolve sx sy => decodeResolve sx sy (sel2bpp f.sel) f.tag
  | .compose j => decodeCompose j (selVariant f.sel) f.code

/-! ## The encoder -/

/-- `colorData` with the fields of an opaque colour A (R93). -/
def encColaOpq (r g : BitVec 5) (b : BitVec 4) : Word32 := 0#16 ++ 1#1 ++ r ++ g ++ b ++ 0#1

/-- `colorData` with the fields of a translucent colour A (R93). -/
def encColaTrn (a : BitVec 3) (r g : BitVec 4) (b : BitVec 3) : Word32 := 0#16 ++ 0#1 ++ a ++ r ++ g ++ b ++ 0#1

/-- `colorData` with the fields of an opaque colour B (R94). -/
def encColbOpq (r g b : BitVec 5) : Word32 := 1#1 ++ r ++ g ++ b ++ 0#16

/-- `colorData` with the fields of a translucent colour B (R94). -/
def encColbTrn (a : BitVec 3) (r g b : BitVec 4) : Word32 := 0#1 ++ a ++ r ++ g ++ b ++ 0#16

/-- The encoding of an operation: the selection, the selector bits, the word bits and the conditions under which the
decode tree names it (R90 to R97, R101). Bits the row leaves free are 0. -/
def encode : Instr → Fetched
  | .decompI4bpp => ⟨.command, 0b00#2, 0, .direct, 0⟩
  | .decompI2bpp => ⟨.command, 0b01#2, 0, .direct, 0⟩
  | .decompII4bpp => ⟨.command, 0b10#2, 0, .direct, 0⟩
  | .decompII2bpp => ⟨.command, 0b11#2, 0, .direct, 0⟩
  | .idxMorton k => ⟨.index k, 0b00#2, 0, .direct, 0⟩
  | .idxLinear k => ⟨.index k, 0b10#2, 0, .direct, 0⟩
  | .interp4bpp c => ⟨.interp c, 0b00#2, 0, .direct, 0⟩
  | .interp2bpp c => ⟨.interp c, 0b01#2, 0, .direct, 0⟩
  | .colaOpq k r g b => ⟨.colA k, 0b00#2, word64 ⟨0, encColaOpq r g b⟩, .direct, 0⟩
  | .colaTrn k a r g b => ⟨.colA k, 0b00#2, word64 ⟨0, encColaTrn a r g b⟩, .direct, 0⟩
  | .colbOpq k r g b => ⟨.colB k, 0b00#2, word64 ⟨0, encColbOpq r g b⟩, .direct, 0⟩
  | .colbTrnI k a r g b => ⟨.colB k, 0b00#2, word64 ⟨0, encColbTrn a r g b⟩, .direct, 0⟩
  | .colbTrnII k a r g b => ⟨.colB k, 0b10#2, word64 ⟨0, encColbTrn a r g b⟩, .direct, 0⟩
  | .mod4Std k m => ⟨.mod k, 0b00#2, word64 ⟨m, 0⟩, .direct, 0⟩
  | .mod4Pt k m => ⟨.mod k, 0b00#2, word64 ⟨m, 1⟩, .direct, 0⟩
  | .mod2Direct k m => ⟨.mod k, 0b01#2, word64 ⟨m, 0⟩, .direct, 0⟩
  | .mod2Hv k m => ⟨.mod k, 0b01#2, word64 ⟨m, 1⟩, .direct, 0⟩
  | .mod2H k m => ⟨.mod k, 0b01#2, word64 ⟨m, 1⟩, .direct, 0⟩
  | .mod2V k m => ⟨.mod k, 0b01#2, word64 ⟨m, 1⟩, .direct, 0⟩
  | .resolve4bpp sx sy => ⟨.resolve sx sy, 0b00#2, 0, .direct, 0⟩
  | .resolveStored sx sy => ⟨.resolve sx sy, 0b01#2, 0, .direct, 0⟩
  | .resolveHv sx sy => ⟨.resolve sx sy, 0b01#2, 0, .hv, 0⟩
  | .resolveH sx sy => ⟨.resolve sx sy, 0b01#2, 0, .hOnly, 0⟩
  | .resolveV sx sy => ⟨.resolve sx sy, 0b01#2, 0, .vOnly, 0⟩
  | .compose j => ⟨.compose j, 0b00#2, 0, .direct, 0⟩
  | .composePtI j => ⟨.compose j, 0b00#2, 0, .direct, 14⟩
  | .composePtII j => ⟨.compose j, 0b10#2, 0, .direct, 14⟩

/-! ## The rows of the opcode table (R102) -/

/-- The mnemonic of an operation's row in spec/opcode_table.json. -/
def Instr.mnemonic : Instr → String
  | .decompI4bpp => "DECOMP.I.4BPP"
  | .decompI2bpp => "DECOMP.I.2BPP"
  | .decompII4bpp => "DECOMP.II.4BPP"
  | .decompII2bpp => "DECOMP.II.2BPP"
  | .idxMorton _ => "IDX.MORTON"
  | .idxLinear _ => "IDX.LINEAR"
  | .interp4bpp _ => "INTERP.4BPP"
  | .interp2bpp _ => "INTERP.2BPP"
  | .colaOpq .. => "COLA.OPQ"
  | .colaTrn .. => "COLA.TRN"
  | .colbOpq .. => "COLB.OPQ"
  | .colbTrnI .. => "COLB.TRN.I"
  | .colbTrnII .. => "COLB.TRN.II"
  | .mod4Std .. => "MOD4.STD"
  | .mod4Pt .. => "MOD4.PT"
  | .mod2Direct .. => "MOD2.DIRECT"
  | .mod2Hv .. => "MOD2.HV"
  | .mod2H .. => "MOD2.H"
  | .mod2V .. => "MOD2.V"
  | .resolve4bpp .. => "RESOLVE.4BPP"
  | .resolveStored .. => "RESOLVE.STORED"
  | .resolveHv .. => "RESOLVE.HV"
  | .resolveH .. => "RESOLVE.H"
  | .resolveV .. => "RESOLVE.V"
  | .compose _ => "COMPOSE"
  | .composePtI _ => "COMPOSE.PT.I"
  | .composePtII _ => "COMPOSE.PT.II"

/-- The selections of R101: item 1 makes three, items 2 to 6 one each. -/
inductive Group where
  | command
  | index
  | interp
  | colA
  | colB
  | mod
  | resolve
  | compose
  deriving DecidableEq, Repr

/-- The selection a slot belongs to. -/
def Slot.group : Slot → Group
  | .command => .command
  | .index _ => .index
  | .interp _ => .interp
  | .colA _ => .colA
  | .colB _ => .colB
  | .mod _ => .mod
  | .resolve .. => .resolve
  | .compose _ => .compose

/-- The internal condition of a row (`fields.cfg`, `fields.cond` of the table, R102). -/
inductive Cond where
  | always
  | variantIs (v : Variant)
  | bppIs2 (b : Bool)
  | storedOrDirect
  | averaged (t : ModTag)
  | codeAtMost10
  | codeAbove10
  deriving DecidableEq, Repr

/-- A row of spec/opcode_table.json: `match` and `mask` over `WORD` or over `CMDSEL`, and the condition. -/
structure Row where
  mnemonic : String
  group    : Group
  overWord : Bool
  pattern  : Nat
  mask     : Nat
  cond     : Cond
  deriving DecidableEq, Repr

/-- The condition holds of what the decoder sees. -/
def Cond.holds (c : Cond) (f : Fetched) : Bool :=
  match c with
  | .always => true
  | .variantIs v => selVariant f.sel == v
  | .bppIs2 b => sel2bpp f.sel == b
  | .storedOrDirect =>
    match f.slot with
    | .resolve sx sy => f.tag == .direct || !oddParity sx sy
    | _ => false
  | .averaged t =>
    match f.slot with
    | .resolve sx sy => f.tag == t && oddParity sx sy
    | _ => false
  | .codeAtMost10 => decide (f.code ≤ 10)
  | .codeAbove10 => decide (10 < f.code)

/-- A row matches when `(bits & mask) = match` and its condition holds (R102). -/
def Row.covers (r : Row) (f : Fetched) : Bool :=
  r.group == f.slot.group && decide ((if r.overWord then f.word.toNat else f.sel.toNat) &&& r.mask = r.pattern)
    && r.cond.holds f

/-- spec/opcode_table.json, row by row, with `match` and `mask` as the table has them. -/
def commandRows : List Row :=
  [ ⟨"DECOMP.I.4BPP", .command, false, 0x0, 0x3, .always⟩,
    ⟨"DECOMP.I.2BPP", .command, false, 0x1, 0x3, .always⟩,
    ⟨"DECOMP.II.4BPP", .command, false, 0x2, 0x3, .always⟩,
    ⟨"DECOMP.II.2BPP", .command, false, 0x3, 0x3, .always⟩ ]

/-- The rows of the index mapping and the interpolation. -/
def configRows : List Row :=
  [ ⟨"IDX.MORTON", .index, false, 0x0, 0x2, .always⟩,
    ⟨"IDX.LINEAR", .index, false, 0x2, 0x2, .always⟩,
    ⟨"INTERP.4BPP", .interp, false, 0x0, 0x1, .always⟩,
    ⟨"INTERP.2BPP", .interp, false, 0x1, 0x1, .always⟩ ]

/-- The rows over `WORD`. -/
def wordRows : List Row :=
  [ ⟨"COLA.OPQ", .colA, true, 0x0000800000000000, 0x0000800000000000, .always⟩,
    ⟨"COLA.TRN", .colA, true, 0x0000000000000000, 0x0000800000000000, .always⟩,
    ⟨"COLB.OPQ", .colB, true, 0x8000000000000000, 0x8000000000000000, .always⟩,
    ⟨"COLB.TRN.I", .colB, true, 0x0000000000000000, 0x8000000000000000, .variantIs .pvrtcI⟩,
    ⟨"COLB.TRN.II", .colB, true, 0x0000000000000000, 0x8000000000000000, .variantIs .pvrtcII⟩,
    ⟨"MOD4.STD", .mod, true, 0x0000000000000000, 0x0000000100000000, .bppIs2 false⟩,
    ⟨"MOD4.PT", .mod, true, 0x0000000100000000, 0x0000000100000000, .bppIs2 false⟩,
    ⟨"MOD2.DIRECT", .mod, true, 0x0000000000000000, 0x0000000100000000, .bppIs2 true⟩,
    ⟨"MOD2.HV", .mod, true, 0x0000000100000000, 0x0000000100000001, .bppIs2 true⟩,
    ⟨"MOD2.H", .mod, true, 0x0000000100000001, 0x0000000100100001, .bppIs2 true⟩,
    ⟨"MOD2.V", .mod, true, 0x0000000100100001, 0x0000000100100001, .bppIs2 true⟩ ]

/-- The rows of the resolver and the compositor. -/
def texelRows : List Row :=
  [ ⟨"RESOLVE.4BPP", .resolve, false, 0x0, 0x1, .always⟩,
    ⟨"RESOLVE.STORED", .resolve, false, 0x1, 0x1, .storedOrDirect⟩,
    ⟨"RESOLVE.HV", .resolve, false, 0x1, 0x1, .averaged .hv⟩,
    ⟨"RESOLVE.H", .resolve, false, 0x1, 0x1, .averaged .hOnly⟩,
    ⟨"RESOLVE.V", .resolve, false, 0x1, 0x1, .averaged .vOnly⟩,
    ⟨"COMPOSE", .compose, false, 0x0, 0x0, .codeAtMost10⟩,
    ⟨"COMPOSE.PT.I", .compose, false, 0x0, 0x2, .codeAbove10⟩,
    ⟨"COMPOSE.PT.II", .compose, false, 0x2, 0x2, .codeAbove10⟩ ]

/-- All 27 rows. -/
def tableRows : List Row := commandRows ++ configRows ++ wordRows ++ texelRows

/-! ## Bytes, and the table's own words -/

/-- Why a byte sequence is no instruction. -/
inductive DecodeError where
  /-- neither the one byte of a command selector nor the eight bytes of a word (R90, R100) -/
  | badLength (n : Nat)
  /-- a selector byte with a bit set above the two bits of `CMDSEL` (R90) -/
  | badSelector (b : Byte)
  deriving DecidableEq, Repr

/-- Little-endian assembly (R64, R91): the byte at the lowest offset is bits 7:0. -/
def leNat : List Byte → Nat
  | [] => 0
  | b :: bs => b.toNat + 256 * leNat bs

/-- The `n` bytes of a value, lowest first (R64). -/
def leBytes : Nat → Nat → List Byte
  | 0, _ => []
  | n + 1, v => BitVec.ofNat 8 v :: leBytes n (v / 256)

/-- The selection and the selector under which the bare 64 bits of a table word are read when nothing but the bits is
given. A word is at once a colour A, a colour B and a modulation row (R101); read alone it is taken as the row of R102
with the most set bits in its `match`, then the most bits in its `mask`, then the earliest in the table. Log entry 13. -/
def bareWord (w : BitVec 64) : Slot × BitVec 2 :=
  let c := wordOf64 w
  if modeBit c.col then (.mod .p, 0b01#2)
  else if opaqueA c.col then (.colA .p, 0b00#2)
  else if opaqueB c.col then (.colB .p, 0b00#2)
  else (.colA .p, 0b00#2)

/-- The decoder on bytes: one byte is a command selector, eight bytes a compressed word; anything else is rejected by
name. -/
def decodeBytes (bs : List Byte) : Except DecodeError Instr :=
  match bs with
  | [b] => if b.toNat < 4 then .ok (decode ⟨.command, BitVec.ofNat 2 b.toNat, 0, .direct, 0⟩) else .error (.badSelector b)
  | [_, _, _, _, _, _, _, _] =>
    let w := BitVec.ofNat 64 (leNat bs)
    .ok (decode ⟨(bareWord w).1, (bareWord w).2, w, .direct, 0⟩)
  | _ => .error (.badLength bs.length)

/-- The number of bytes of a table word: a `command` or `config` row has the bits of `CMDSEL`, a `word64` row 64 bits. -/
def tableBytes (nbits w : Nat) : List Byte := if nbits ≤ 8 then leBytes 1 w else leBytes 8 w

/-- The instruction the decoder reads from a word of spec/opcode_table.json given by its bits alone. -/
def decodeTableWord (nbits w : Nat) : Option Instr :=
  match decodeBytes (tableBytes nbits w) with
  | .ok i => some i
  | .error _ => none

end Sys2Proof
end

