-- ==== Sys2Proof/Machine/State.lean ====
section
/-! DEFINITION. The state of the core as plain data (10_state.md), the reasons a step can stop, and the state after
reset. -/

namespace Sys2Proof.Machine

/-- The phase register `PH` (R41). -/
inductive Phase where
  | idle
  | check
  | alloc
  | fetch
  | unpack
  | interp
  | compose
  | scatter
  | copyback
  | done
  | failed
  deriving DecidableEq, Repr, Inhabited

/-- `STATUS` (R33), derived from `PH` (R41). -/
inductive Status where
  | idle
  | busy
  | done
  | failed
  deriving DecidableEq, Repr, Inhabited

/-- The values of `FAULT` (R290). -/
inductive FaultCode where
  | none
  | dimMult
  | npot
  | size
  | inShort
  | outShort
  | overlap
  | alloc
  deriving DecidableEq, Repr, Inhabited

/-- A byte address space the host supplies (`IN`, `OUT`; R33, R60, R61): `len` bytes of host memory from `base` on.
Where the host placed it is the model's way to say whether two spaces share a location (R291). Log entry 3. -/
structure Space where
  base : Nat
  len  : Nat
  deriving DecidableEq, Repr, Inhabited

/-- The command fields of the record (R33), as the host last wrote them. -/
structure CmdRecord where
  variant : Variant
  is2bpp  : Bool
  width   : Word32
  height  : Word32
  inSp    : Space
  outSp   : Space
  deriving DecidableEq, Repr, Inhabited

/-- The configuration of a command (R34): the copy of the record latched at START, and what CHECK derives from it
(R251 to R253). -/
structure Latched where
  variant : Variant
  is2bpp  : Bool
  width   : Word32
  height  : Word32
  inSp    : Space
  outSp   : Space
  bpp     : Nat
  blockW  : Nat
  blockH  : Nat
  minW    : Nat
  minH    : Nat
  wt      : Nat
  ht      : Nat
  pad     : Bool
  gw      : Nat
  gh      : Nat
  deriving DecidableEq, Repr, Inhabited

/-- The temporary raster `TMP` (R42, R62): its size in bytes and the bytes the core has written, by offset. -/
structure TmpRaster where
  size  : Nat
  cells : List Host.Cell
  deriving DecidableEq, Repr, Inhabited

/-- `STRAT` (R44): the implementation variant, not yet selected after reset. Log entry 26. -/
inductive Strat where
  | notSelected
  | selected (n : Nat)
  deriving DecidableEq, Repr, Inhabited

/-- The moves of the host (R80, R33, R326, R320). -/
inductive HostAction where
  /-- write `VARIANT` -/
  | setVariant (v : Variant)
  /-- write `IS2BPP` -/
  | setIs2bpp (b : Bool)
  /-- write `WIDTH` -/
  | setWidth (w : Word32)
  /-- write `HEIGHT` -/
  | setHeight (h : Word32)
  /-- supply `IN` (with `LIN`) -/
  | supplyIn (sp : Space)
  /-- supply `OUT` (with `LOUT`) -/
  | supplyOut (sp : Space)
  /-- write a byte of host memory (the contents of `IN` and `OUT` are the host's) -/
  | storeByte (addr : Nat) (v : Byte)
  /-- the strobe `START` -/
  | start
  /-- select the implementation variant (R326: at any time, any number of times) -/
  | selectStrat (n : Nat)
  /-- reset the core (R320) -/
  | reset
  deriving DecidableEq, Repr, Inhabited

/-- How many of the core's steps one step of the model takes together. R258 lets a model merge any run of steps into
one. Log entry 6. -/
inductive Granularity where
  /-- a whole command, from START to DONE or FAILED, is one step -/
  | command
  /-- each row of R258's table is one step -/
  | phase
  /-- each operation of the opcode table, and each piece of walker work between them, is one step -/
  | operation
  deriving DecidableEq, Repr, Inhabited

/-- The whole state: the parameters of R13, the command record and the status registers (R33), the latched
configuration (R34), the working storage (R35 to R42), the hidden state (R44), the host memory that holds `IN` and
`OUT`, and the model's own fields (log entries 4 to 8). -/
structure State where
  /-- `PIXEL_ORDER` (R13), a build option: no step writes it. Log entry 16. -/
  pixelOrder : PixelOrder
  /-- `MORTON_LOW_AXIS` (R13), a build option: no step writes it. Log entry 16. -/
  mortonLow : Axis
  /-- `VARIANT`, `IS2BPP`, `WIDTH`, `HEIGHT`, `IN`, `OUT` (R33). -/
  cmd : CmdRecord
  /-- `FAULT` (R33, R290). -/
  fault : FaultCode
  /-- `RESULT` (R33, R263). -/
  result : Word32
  /-- `PH` (R41); `STATUS` is derived from it. -/
  ph : Phase
  /-- the latched and derived configuration (R34). -/
  cfg : Latched
  /-- `BX` (R35). -/
  bX : Int
  /-- `BY` (R35). -/
  bY : Int
  /-- the block indices `P`, `Q`, `R`, `S` (R36), each `(x, y)`. -/
  blk : Corners (Nat × Nat)
  /-- the word registers `WP`, `WQ`, `WR`, `WS` (R37). -/
  wd : Corners CWord
  /-- `CA[k]` (R38). -/
  ca : Corners Pixel32
  /-- `CB[k]` (R38). -/
  cb : Corners Pixel32
  /-- `MV[16][8]` (R39): entry `[sx][sy]` is number `8*sx + sy`. -/
  mv : List (Option Nat)
  /-- `MM[16][8]` (R39): entry `[sx][sy]` is number `8*sx + sy`. -/
  mm : List (Option ModTag)
  /-- `UA[32]` (R40): `none` is "holds no value". -/
  ua : List (Option Pixel128)
  /-- `UB[32]` (R40). -/
  ub : List (Option Pixel128)
  /-- `TILE[32]` (R40). -/
  tile : List (Option Pixel32)
  /-- `TMP` (R42): `none` is "does not exist". -/
  tmp : Option TmpRaster
  /-- `STRAT` (R44). -/
  strat : Strat
  /-- the host memory in which `IN` and `OUT` lie (R60, R61), in the canonical form of `Memory.wf`. -/
  mem : List Host.Cell
  /-- model's own: the position inside a phase at operation granularity (R328). -/
  seq : Nat
  /-- model's own: the storage index `Index(k.x, k.y)` of each block, between the mapping and the fetch (R257). -/
  ix : Corners Nat
  /-- model's own: the weight code of the current texel, between the resolver and the compositor (R210). -/
  weight : Nat
  /-- model's own: the host's moves still to come, oldest first (R80). -/
  hostQ : List HostAction
  /-- model's own: how many of the core's steps one model step takes (R258). -/
  granularity : Granularity
  /-- model's own: the draws of `ALLOC_OK` the environment has supplied (R13), oldest first. -/
  allocGiven : List Bool
  /-- model's own: how many free values have been taken. -/
  draws : Nat
  deriving DecidableEq, Repr, Inhabited

/-- Why the machine stops with a fault. None of these is a fault of R290, which end a COMMAND and are next states; each
guards an access the spec says cannot arise (R66, R68, R234, R295). -/
inductive Fault where
  /-- Raised by the word fetch when a storage index lies outside `IN` (R68, R295). Safe: the spec says no admitted
  command reads there. Log entry 15. -/
  | wordOutsideIn
  /-- Raised by the scatter and by the copy-back when the target raster does not lie inside `OUT` or `TMP` (R70, R80
  "The device may not write outside OUT or TMP"). Safe. Log entry 15. -/
  | rasterOutsideSpace
  /-- Raised by `IDX.MORTON` on a grid that is not a power of two, which the source leaves undefined and CHECK refuses
  before any access (R234, R293). Safe. Log entry 11. -/
  | mortonNotPow2
  deriving DecidableEq, Repr, Inhabited

/-- Why the model gives no meaning. -/
inductive Refusal where
  /-- Raised by an arm of `exec` whose instruction has no meaning yet. Safe. -/
  | notModelled (mnemonic : String)
  /-- Raised by a `DECOMP` command executed while `STATUS = BUSY`: R324 forbids the START, and R302 gives it no
  behaviour ("the model gives the host no such move"). `step` never gets there. Safe. Log
  entry 12. -/
  | startWhileBusy
  deriving DecidableEq, Repr, Inhabited

/-- The outcome of a step or of a meaning. -/
abbrev Result := Host.Outcome State Fault Refusal

/-- One value at all four blocks. -/
def corners {α : Type} (v : α) : Corners α := ⟨v, v, v, v⟩

/-- The command fields after reset: unspecified by R45; the zero of log entry 1. -/
def CmdRecord.reset : CmdRecord := ⟨.pvrtcI, false, 0, 0, ⟨0, 0⟩, ⟨0, 0⟩⟩

/-- The configuration after reset: unspecified by R45; the zero of log entry 1. -/
def Latched.reset : Latched := ⟨.pvrtcI, false, 0, 0, ⟨0, 0⟩, ⟨0, 0⟩, 0, 0, 0, 0, 0, 0, 0, false, 0, 0⟩

/-- The machine right after reset (R45, R320). `PH`, `FAULT`, `MV`, `MM`, `UA`, `UB`, `TILE`, `TMP` and `STRAT` have the
values of R45's table; what the table calls unspecified holds the zero of log entry 1; the parameters have R13's
defaults; the model's own fields have the values of log entries 4 to 8. -/
def State.reset : State where
  pixelOrder := .rgba
  mortonLow := .y
  cmd := CmdRecord.reset
  fault := .none
  result := 0
  ph := .idle
  cfg := Latched.reset
  bX := 0
  bY := 0
  blk := corners (0, 0)
  wd := corners ⟨0, 0⟩
  ca := corners ⟨0, 0, 0, 0⟩
  cb := corners ⟨0, 0, 0, 0⟩
  mv := List.replicate 128 none
  mm := List.replicate 128 none
  ua := List.replicate 32 none
  ub := List.replicate 32 none
  tile := List.replicate 32 none
  tmp := none
  strat := .notSelected
  mem := []
  seq := 0
  ix := corners 0
  weight := 0
  hostQ := []
  granularity := .command
  allocGiven := []
  draws := 0

end Sys2Proof.Machine
end

