-- ==== Sys2Proof/Machine/Ops.lean ====
section
/-! DEFINITION. The shared operations: loops, host memory and `TMP`, the word fetch and the pixel store, the register
updates, START, and ending a command with a fault. -/

namespace Sys2Proof

/-- The value at a block. -/
def Corners.get {α : Type} (c : Corners α) : Corner → α
  | .p => c.p
  | .q => c.q
  | .r => c.r
  | .s => c.s

/-- Put a value at a block. -/
def Corners.set {α : Type} (c : Corners α) (k : Corner) (v : α) : Corners α :=
  match k with
  | .p => { c with p := v }
  | .q => { c with q := v }
  | .r => { c with r := v }
  | .s => { c with s := v }

/-- The same function at each block. -/
def Corners.map {α β : Type} (c : Corners α) (f : α → β) : Corners β := ⟨f c.p, f c.q, f c.r, f c.s⟩

end Sys2Proof

namespace Sys2Proof.Machine

/-! ## Sequencing -/

/-- Go on with `f` from a next state; a fault or a refusal stops. -/
def andThen (r : Result) (f : State → Result) : Result :=
  match r with
  | .next s => f s
  | .fault e => .fault e
  | .refused e => .refused e

/-- The next state, if there is one. -/
def Result.state? : Result → Option State
  | .next s => some s
  | _ => none

/-- `for i in 0 .. n-1: a <- f i a`. -/
def iter {α : Type} : Nat → (Nat → α → α) → α → α
  | 0, _, a => a
  | n + 1, f, a => f n (iter n f a)

/-- `for i in 0 .. n-1`, where a body may stop. -/
def iterM : Nat → (Nat → State → Result) → State → Result
  | 0, _, s => .next s
  | n + 1, f, s => andThen (iterM n f s) (f n)

/-! ## Host memory and `TMP`: lists of cells with rising addresses -/

/-- The byte listed at an address. -/
def Cells.lookup : List Host.Cell → Nat → Option Byte
  | [], _ => none
  | (k, v) :: m, a => if k = a then some v else Cells.lookup m a

/-- List a byte at an address, in order, in place of what was listed there. -/
def Cells.insert : List Host.Cell → Nat → Byte → List Host.Cell
  | [], a, v => [(a, v)]
  | (k, w) :: m, a, v =>
    if a < k then (a, v) :: (k, w) :: m
    else if a = k then (a, v) :: m
    else (k, w) :: Cells.insert m a v

/-- List nothing at an address. -/
def Cells.erase : List Host.Cell → Nat → List Host.Cell
  | [], _ => []
  | (k, w) :: m, a => if k = a then m else (k, w) :: Cells.erase m a

/-- The addresses rise strictly. -/
def Cells.sorted : List Host.Cell → Bool
  | [] => true
  | [_] => true
  | (k, _) :: (k', w') :: m => decide (k < k') && Cells.sorted ((k', w') :: m)

/-- What an address of host memory that is not listed reads as. The spec gives no contents to a byte the host has not
written. DESIGN CHOICE, log entry 2, unsafe. -/
def Memory.unlisted : Byte := 0

/-- A read of one byte of host memory. -/
def Memory.read (m : List Host.Cell) (a : Nat) : Byte := (Cells.lookup m a).getD Memory.unlisted

/-- A write of one byte of host memory. Writing what an unlisted address reads as lists nothing there. -/
def Memory.write (m : List Host.Cell) (a : Nat) (v : Byte) : List Host.Cell :=
  if v = Memory.unlisted then Cells.erase m a else Cells.insert m a v

/-- The canonical form of host memory: addresses strictly rising, no entry equal to what an unlisted address reads as. -/
def Memory.wf (m : List Host.Cell) : Bool := Cells.sorted m && m.all fun c => decide (c.2 ≠ Memory.unlisted)

/-- `MemWrite(TMP, off, 1, v)` (R17, R62). -/
def TmpRaster.write (t : TmpRaster) (off : Nat) (v : Byte) : TmpRaster := { t with cells := Cells.insert t.cells off v }

/-- `MemRead(TMP, off, 1)`: a byte the core has not written holds no value (R42), so its read is a free value (U14). -/
def TmpRaster.read (t : TmpRaster) (off : Nat) : Byte := (Cells.lookup t.cells off).getD (Config.openTmpByte off)

/-- The canonical form of `TMP`: offsets strictly rising and inside the raster. -/
def TmpRaster.wf (t : TmpRaster) : Bool := Cells.sorted t.cells && t.cells.all fun c => decide (c.1 < t.size)

/-! ## Reading a word (R63, R64) -/

/-- `MemRead(IN, off, 4)`: four bytes of `IN`, little-endian (R17, R64). -/
def State.readField (s : State) (off : Nat) : Word32 :=
  let at' := fun i => Memory.read s.mem (s.cfg.inSp.base + off + i)
  BitVec.ofNat 32 (leNat [at' 0, at' 1, at' 2, at' 3])

/-- `ReadWord(k)` (R63): `mod` at bytes `8k .. 8k+3`, `col` at bytes `8k+4 .. 8k+7` of `IN`. -/
def State.readWord (s : State) (k : Nat) : CWord := ⟨s.readField (8 * k), s.readField (8 * k + 4)⟩

/-- Storage index `k` lies inside `IN` (R68). -/
def State.wordInside (s : State) (k : Nat) : Bool := decide (8 * k + 8 ≤ s.cfg.inSp.len)

/-! ## Writing a pixel (R65) -/

/-- The four stored bytes of a pixel (R65). -/
def pixelBytes (o : PixelOrder) (p : Pixel32) : List Byte :=
  match o with
  | .rgba => [p.r, p.g, p.b, p.a]
  | .bgra => [p.b, p.g, p.r, p.a]

/-- The target raster (R250, R261): `TMP` when `PAD`, else `OUT`. -/
inductive Target where
  | out
  | tmp
  deriving DecidableEq, Repr

/-- `dst <- PAD ? TMP : OUT` (R250). -/
def State.target (s : State) : Target := if s.cfg.pad then .tmp else .out

/-- The size of a target space in bytes (R61, R62); `TMP` that does not exist has none. -/
def State.targetSize (s : State) : Target → Nat
  | .out => s.cfg.outSp.len
  | .tmp => match s.tmp with | some t => t.size | none => 0

/-- `MemWrite(sp, off, 1, v)` (R17). -/
def State.putByte (s : State) (sp : Target) (off : Nat) (v : Byte) : State :=
  match sp with
  | .out => { s with mem := Memory.write s.mem (s.cfg.outSp.base + off) v }
  | .tmp => { s with tmp := s.tmp.map fun t => t.write off v }

/-- The byte offset of pixel `(x, y)` of a raster of row stride `w` (R18, R65). -/
def pixelOffset (w x y : Nat) : Nat := 4 * (y * w + x)

/-- Write bytes at rising offsets. -/
def State.putBytes (s : State) (sp : Target) (off : Nat) : List Byte → State
  | [] => s
  | b :: bs => (s.putByte sp off b).putBytes sp (off + 1) bs

/-- `WritePixel(sp, w, x, y, p)` (R65). -/
def State.writePixel (s : State) (sp : Target) (w x y : Nat) (p : Pixel32) : State :=
  s.putBytes sp (pixelOffset w x y) (pixelBytes s.pixelOrder p)

/-! ## Register updates -/

/-- `CA[k] <- v` (R38). -/
def State.setCa (s : State) (k : Corner) (v : Pixel32) : State := { s with ca := s.ca.set k v }

/-- `CB[k] <- v` (R38). -/
def State.setCb (s : State) (k : Corner) (v : Pixel32) : State := { s with cb := s.cb.set k v }

/-- The storage index of block `k`. -/
def State.setIx (s : State) (k : Corner) (v : Nat) : State := { s with ix := s.ix.set k v }

/-- The two modulation grids (R39). -/
def State.setGrids (s : State) (mv : List (Option Nat)) (mm : List (Option ModTag)) : State := { s with mv := mv, mm := mm }

/-- The colour buffer of a slot (R40). -/
def State.colorBuf (s : State) : ColorSlot → List (Option Pixel128)
  | .a => s.ua
  | .b => s.ub

/-- Write the colour buffer of a slot (R40). -/
def State.setColorBuf (s : State) (c : ColorSlot) (u : List (Option Pixel128)) : State :=
  match c with
  | .a => { s with ua := u }
  | .b => { s with ub := u }

/-- The weight code of the current texel (R210). -/
def State.setWeight (s : State) (w : Nat) : State := { s with weight := w }

/-- `TILE[j] <- p` (R40). -/
def State.setTexel (s : State) (j : Nat) (p : Pixel32) : State := { s with tile := s.tile.set j (some p) }

/-- `PH <- ph`, at the beginning of the phase (R41). -/
def State.enter (s : State) (ph : Phase) : State := { s with ph := ph, seq := 0 }

/-- Enter the walk: `PH <- FETCH` with `(BX, BY)` (R258). -/
def State.enterTile (s : State) (bx bY : Int) : State := { s with ph := .fetch, seq := 0, bX := bx, bY := bY }

/-- Every entry of `MV` and `MM` becomes `none` (R39, R258). -/
def State.clearGrids (s : State) : State := { s with mv := List.replicate 128 none, mm := List.replicate 128 none }

/-- `UA`, `UB` and `TILE` hold no value at the start of a tile (R40). -/
def State.clearBuffers (s : State) : State :=
  { s with ua := List.replicate 32 none, ub := List.replicate 32 none, tile := List.replicate 32 none }

/-- The word registers (R37). -/
def State.setWords (s : State) (w : Corners CWord) : State := { s with wd := w }

/-- The block indices (R36). -/
def State.setBlk (s : State) (b : Corners (Nat × Nat)) : State := { s with blk := b }

/-- The latched and derived configuration (R34). -/
def State.setCfg (s : State) (c : Latched) : State := { s with cfg := c }

/-- `TMP` is created (R250) or released (R262, R292). -/
def State.setTmp (s : State) (t : Option TmpRaster) : State := { s with tmp := t }

/-! ## Ending a command, and starting one -/

/-- `raise Fault(code)` (R292), the core's only trap (R298): `FAULT` takes the code, `RESULT` becomes 0, `TMP` is released
and `PH` becomes `FAILED`. Nothing else is saved and nothing of the command has been performed. -/
def State.takeFault (s : State) (code : FaultCode) : State :=
  { s with fault := code, result := 0, tmp := none, ph := .failed, seq := 0 }

/-- The end of a command (R263, R264): `RESULT` is written, `FAULT = NONE` and `PH` becomes `DONE`, in one step. -/
def State.finish (s : State) : State :=
  { s with result := BitVec.ofNat 32 (s.cfg.wt * s.cfg.ht * s.cfg.bpp / 8), fault := .none, ph := .done, seq := 0 }

/-- `Start()` (R322), which is also the only return from a fault (R299): the record is latched, with the selector of the
command; `FAULT` becomes `NONE`, `RESULT` unspecified, `PH` `CHECK`. The derived configuration is still the last
command's: CHECK sets it. -/
def State.start (s : State) (v : Variant) (is2bpp : Bool) : State :=
  { s with
    cfg := { s.cfg with
      variant := v, is2bpp := is2bpp, width := s.cmd.width, height := s.cmd.height,
      inSp := s.cmd.inSp, outSp := s.cmd.outSp }
    fault := .none
    result := Config.openResult s.draws
    draws := s.draws + 1
    ph := .check
    seq := 0 }

/-- The draw `ALLOC_OK` (R13, R294): the environment's next draw where it has supplied one, else a free value. -/
def State.drawAlloc (s : State) : Bool × State :=
  match s.allocGiven with
  | b :: rest => (b, { s with allocGiven := rest })
  | [] => (Config.allocOk s.draws, { s with draws := s.draws + 1 })

/-- Reset of the core (R320): every piece of the core's state takes its value of R45. The parameters, the host's memory
and the host's coming moves are not the core's, and stay. -/
def State.resetCore (s : State) : State :=
  { State.reset with
    pixelOrder := s.pixelOrder, mortonLow := s.mortonLow, mem := s.mem, hostQ := s.hostQ,
    granularity := s.granularity, allocGiven := s.allocGiven, draws := s.draws }

end Sys2Proof.Machine
end

