-- ==== Sys2Proof/Machine/Operands.lean ====
section
/-! DEFINITION. The operand forms: block geometry, the widening of colour fields, the modulation codes inside a word, the
supergrid positions, and the reads of grids and buffers. -/

namespace Sys2Proof.Machine

/-! ## Geometry (R9, R10, R39) -/

/-- `W` (R9). -/
def blockWidth (is2bpp : Bool) : Nat := if is2bpp then 8 else 4

/-- `H` (R9). -/
def blockHeight : Nat := 4

/-- `MIN_W` (R10). -/
def minWidth (is2bpp : Bool) : Nat := if is2bpp then 16 else 8

/-- `MIN_H` (R10). -/
def minHeight : Nat := 8

/-- `bpp` (R251). -/
def bitsPerPixel (is2bpp : Bool) : Nat := if is2bpp then 2 else 4

/-- Where the quadrant of block `k` begins in the supergrid, for block width `w` (R39, R141). -/
def quadrant (w : Nat) : Corner → Nat × Nat
  | .p => (0, 0)
  | .q => (w, 0)
  | .r => (0, 4)
  | .s => (w, 4)

/-- The number of grid entry `[sx][sy]`. -/
def gridIndex (sx sy : Nat) : Nat := 8 * sx + sy

/-- Visit the `w × 4` texels of the quadrant at `(ox, oy)` of a grid: the entry of block texel `(tx, ty)` becomes
`f tx ty old`; every other entry stays. -/
def fillQuadrant {α : Type} (w ox oy : Nat) (f : Nat → Nat → α → α) (g : List α) : List α :=
  g.zipIdx.map fun e =>
    let sx := e.2 / 8
    let sy := e.2 % 8
    if ox ≤ sx ∧ sx < ox + w ∧ oy ≤ sy ∧ sy < oy + 4 then f (sx - ox) (sy - oy) e.1 else e.1

/-- The code at supergrid position `(x, y)`. An entry that is `none` holds no value and a position outside the grid has
none: a free value (U13; R176 says no rule reads one). -/
def codeAt (mv : List (Option Nat)) (x y : Int) : Nat :=
  if 0 ≤ x ∧ x < 16 ∧ 0 ≤ y ∧ y < 8 then
    match mv[gridIndex x.toNat y.toNat]? with
    | some (some c) => c
    | _ => Config.openCode x y
  else Config.openCode x y

/-- The tag at supergrid position `(sx, sy)`; an entry that is `none` gives a free value (U13). -/
def tagAt (mm : List (Option ModTag)) (sx sy : Nat) : ModTag :=
  match mm[gridIndex sx sy]? with
  | some (some t) => t
  | _ => Config.openTag sx sy

/-- Entry `j` of a colour buffer; an entry that holds no value gives a free value (R40, U13). -/
def colorAt (c : ColorSlot) (u : List (Option Pixel128)) (j : Nat) : Pixel128 :=
  match u[j]? with
  | some (some p) => p
  | _ => Config.openColor c j

/-- Entry `j` of `TILE`; an entry that holds no value gives a free value (R40, U13). -/
def texelAt (t : List (Option Pixel32)) (j : Nat) : Pixel32 :=
  match t[j]? with
  | some (some p) => p
  | _ => Config.openTexel j

/-! ## Colour fields (R121 to R125) -/

/-- A 5-bit channel, kept as 5 bits. -/
def widen5 (v : BitVec 5) : Byte := v.setWidth 8

/-- 4 to 5 bits: `{v[3:0], v[3]}` (R121 blue, R122, R124). -/
def widen4 (v : BitVec 4) : Byte := (v ++ v.extractLsb' 3 1).setWidth 8

/-- 3 to 5 bits: `{v[2:0], v[2:1]}` (R122 blue). -/
def widen3 (v : BitVec 3) : Byte := (v ++ v.extractLsb' 1 2).setWidth 8

/-- A 3-bit alpha in a 4-bit slot, with the low bit given (R122, R124: 0; R125: 1). -/
def alpha3 (v : BitVec 3) (low : BitVec 1) : Byte := (v ++ low).setWidth 8

/-- The forced alpha of the opaque forms (R121, R123). -/
def alphaOpaque : Byte := 0xF

/-! ## Modulation codes (R95 to R97, R146) -/

/-- `mod[2i+1 : 2i]` (R95, R97). -/
def code2 (mod : Word32) (i : Nat) : Nat := (mod.extractLsb' (2 * i) 2).toNat

/-- `mod[i]` (R96). -/
def code1 (mod : Word32) (i : Nat) : Bool := mod.getLsbD i

/-- The number of a stored texel in raster order (R97): four stored texels a row. -/
def storedNumber (tx ty : Nat) : Nat := 4 * ty + tx / 2

/-- `v[i] <- b`. -/
def putBit (v : Word32) (i : Nat) (b : Bool) : Word32 :=
  if b then v ||| BitVec.twoPow 32 i else v &&& ~~~(BitVec.twoPow 32 i)

/-- `SubMode(mod)` (R146). -/
def subMode (mod : Word32) : ModTag × Word32 :=
  if subFlag mod then
    let tag := if axisFlag mod then ModTag.vOnly else ModTag.hOnly
    let bits := putBit mod 20 (mod.getLsbD 21)
    (tag, putBit bits 0 (bits.getLsbD 1))
  else (.hv, putBit mod 0 (mod.getLsbD 1))

/-! ## Block coordinates (R255, R256) -/

/-- `P`, `Q`, `R`, `S` of the tile at `(BX, BY)` (R256), wrapped on each axis (R255). -/
def neighbours (bx bY : Int) (gw gh : Nat) : Corners (Nat × Nat) :=
  let x0 := (bx % gw).toNat
  let x1 := ((bx + 1) % gw).toNat
  let y0 := (bY % gh).toNat
  let y1 := ((bY + 1) % gh).toNat
  ⟨(x0, y0), (x1, y0), (x0, y1), (x1, y1)⟩

/-! ## Tile texels (R18, R210) -/

/-- Column `c` of tile entry `j = r*W + c`. -/
def texelCol (w j : Nat) : Nat := j % w

/-- Row `r` of tile entry `j = r*W + c`. -/
def texelRow (w j : Nat) : Nat := j / w

/-- The supergrid position of tile entry `j` (R210): `(c + W/2, r + 2)`. -/
def texelPos (w j : Nat) : Nat × Nat := (texelCol w j + w / 2, texelRow w j + 2)

end Sys2Proof.Machine
end

