-- ==== Sys2Proof/Machine/Flags.lean ====
section
/-! DEFINITION. The status and flag computations: `STATUS`, the codes of `FAULT`, the punch-through flag, the derived
configuration with `PAD`, and the fault conditions of CHECK. -/

namespace Sys2Proof.Machine

/-! ## `STATUS` and `FAULT` -/

/-- `STATUS` from `PH` (R41). -/
def Phase.status : Phase → Status
  | .idle => .idle
  | .done => .done
  | .failed => .failed
  | .check | .alloc | .fetch | .unpack | .interp | .compose | .scatter | .copyback => .busy

/-- `STATUS` (R33). -/
def State.status (s : State) : Status := s.ph.status

/-- `STATUS = BUSY`. -/
def State.busy (s : State) : Bool := s.status == .busy

/-- The numeric value of `FAULT` (R290). -/
def FaultCode.value : FaultCode → Nat
  | .none => 0
  | .dimMult => 1
  | .npot => 2
  | .size => 3
  | .inShort => 4
  | .outShort => 5
  | .overlap => 6
  | .alloc => 7

/-! ## Punch-through (R211) -/

/-- `PT` (R211). -/
def ptFlag (code : Nat) : Bool := decide (10 < code)

/-- The weight `w` (R211). -/
def ptWeight (code : Nat) : Nat := if ptFlag code then code - 10 else code

/-! ## The derived configuration (R251 to R253) -/

/-- R251 and R252: `bpp`, `W`, `H`, `MIN_W`, `MIN_H`, `Wt`, `Ht`, `PAD`. -/
def configure (c : Latched) : Latched :=
  let wt := max c.width.toNat (minWidth c.is2bpp)
  let ht := max c.height.toNat minHeight
  { c with
    bpp := bitsPerPixel c.is2bpp, blockW := blockWidth c.is2bpp, blockH := blockHeight,
    minW := minWidth c.is2bpp, minH := minHeight, wt := wt, ht := ht,
    pad := decide (wt ≠ c.width.toNat ∨ ht ≠ c.height.toNat) }

/-- R253: `gw`, `gh`. -/
def withGrid (c : Latched) : Latched := { c with gw := c.wt / c.blockW, gh := c.ht / 4 }

/-! ## The fault conditions of CHECK (R290, R291) -/

/-- `Pow2(n)` (R291). -/
def pow2 (n : Nat) : Bool := decide (0 < n ∧ n &&& (n - 1) = 0)

/-- `F_DIM_MULT` (R290). -/
def dimMult (c : Latched) : Bool := decide (c.wt % c.blockW ≠ 0 ∨ c.ht % 4 ≠ 0)

/-- `F_NPOT` (R290). -/
def notPow2 (c : Latched) : Bool := c.variant == .pvrtcI && (!pow2 c.gw || !pow2 c.gh)

/-- `F_SIZE` (R290). -/
def tooLarge (c : Latched) : Bool := decide (c.wt * c.ht * 4 > 2 ^ 32 - 1)

/-- The bytes of `IN` a command reads: `8*gw*gh` (R68). -/
def inBytes (c : Latched) : Nat := 8 * c.gw * c.gh

/-- The bytes of `OUT` a command writes: `WIDTH*HEIGHT*4` (R70). -/
def outBytes (c : Latched) : Nat := c.width.toNat * c.height.toNat * 4

/-- `F_IN_SHORT` (R290). -/
def inShort (c : Latched) : Bool := decide (c.inSp.len < inBytes c)

/-- `F_OUT_SHORT` (R290). -/
def outShort (c : Latched) : Bool := decide (c.outSp.len < outBytes c)

/-- Two ranges of host memory, each of a length from a base, share a location; an empty range overlaps nothing (R291). -/
def rangesMeet (a n b m : Nat) : Bool := decide (0 < n ∧ 0 < m ∧ a < b + m ∧ b < a + n)

/-- `F_OVERLAP` (R290). -/
def overlaps (c : Latched) : Bool := rangesMeet c.inSp.base (inBytes c) c.outSp.base (outBytes c)

/-- The tests of R291 that follow the computation of the grid, in its order. -/
def gridFault (c : Latched) : FaultCode :=
  if notPow2 c then .npot
  else if tooLarge c then .size
  else if inShort c then .inShort
  else if outShort c then .outShort
  else if overlaps c then .overlap
  else .none

/-- `CheckCommand()` (R291) on a configured command: the code it raises, `none` if the command is admitted. -/
def checkCommand (c : Latched) : FaultCode := if dimMult c then .dimMult else gridFault (withGrid c)

/-- The configuration CHECK leaves: the grid is computed once `F_DIM_MULT` has passed (R253, R291). -/
def checkedCfg (c : Latched) : Latched := if dimMult (configure c) then configure c else withGrid (configure c)

end Sys2Proof.Machine
end

