-- ==== Sys2Proof/Machine/Compositor.lean ====
section
/-! DEFINITION. The block pixel compositor (44_block_compositor.md). -/

namespace Sys2Proof.Machine

/-- One channel of `Blend(w, A, B)`: `(A*(8 - w) + B*w) / 8`, floor division, kept as a signed 32-bit channel. `Blend` is
given for `w` in `[0, 8]` only: above that the value is a free one (log entry 14). The floor of a numerator below 0 is log
entry 25. -/
def blendChannel (w : Nat) (a b : BitVec 32) : BitVec 32 :=
  if w ≤ 8 then BitVec.ofInt 32 ((a.toInt * (8 - (w : Int)) + b.toInt * w) / 8) else Config.openBlend w a b

/-- `Blend(w, A, B)` (44_block_compositor.md section 2): the same weight in every lane (R218). -/
def blend (w : Nat) (a b : Pixel128) : Pixel128 :=
  ⟨blendChannel w a.r b.r, blendChannel w a.g b.g, blendChannel w a.b b.b, blendChannel w a.a b.a⟩

/-- `Narrow8(v)` (R215): bits 7:0 of each channel. -/
def narrow8 (v : Pixel128) : Pixel32 := ⟨v.r.setWidth 8, v.g.setWidth 8, v.b.setWidth 8, v.a.setWidth 8⟩

/-- `COMPOSE` (R212): the blend at the weight of R211, which is the code itself. -/
def composePlain (code : Nat) (a b : Pixel128) : Pixel32 := narrow8 (blend (ptWeight code) a b)

/-- `COMPOSE.PT.I` (R213): the blend at `code - 10` (R211), with alpha forced to 0. -/
def composeI (code : Nat) (a b : Pixel128) : Pixel32 := narrow8 { blend (ptWeight code) a b with a := 0 }

/-- `COMPOSE.PT.II` (R214): all four channels forced to 0. -/
def composeII : Pixel32 := narrow8 ⟨0, 0, 0, 0⟩

/-- `Compose(code, A, B, VARIANT)` (R210, R212 to R214): the pixel of the operation the code decodes to. -/
def composeTexel (v : Variant) (code : Nat) (a b : Pixel128) : Pixel32 :=
  match decodeCompose 0 v code with
  | .compose _ => composePlain code a b
  | .composePtI _ => composeI code a b
  | _ => composeII

/-! ## Meanings: the weight code comes from the resolver (R210) -/

/-- `COMPOSE` (R212). -/
def execCompose (j : Nat) (s : State) : Result :=
  .next (s.setTexel j (composePlain s.weight (colorAt .a s.ua j) (colorAt .b s.ub j)))

/-- `COMPOSE.PT.I` (R213). -/
def execComposePtI (j : Nat) (s : State) : Result :=
  .next (s.setTexel j (composeI s.weight (colorAt .a s.ua j) (colorAt .b s.ub j)))

/-- `COMPOSE.PT.II` (R214). -/
def execComposePtII (j : Nat) (s : State) : Result := .next (s.setTexel j composeII)

end Sys2Proof.Machine
end

