-- ==== Sys2Proof/Machine/Extractor.lean ====
section
/-! DEFINITION. The bit-field colour extractor (40_color_extractor.md). -/

namespace Sys2Proof.Machine

/-! ## The colours (R121 to R125) -/

/-- R121. -/
def colaOpq (r g : BitVec 5) (b : BitVec 4) : Pixel32 := ⟨widen5 r, widen5 g, widen4 b, alphaOpaque⟩

/-- R122. -/
def colaTrn (a : BitVec 3) (r g : BitVec 4) (b : BitVec 3) : Pixel32 := ⟨widen4 r, widen4 g, widen3 b, alpha3 a 0⟩

/-- R123. -/
def colbOpq (r g b : BitVec 5) : Pixel32 := ⟨widen5 r, widen5 g, widen5 b, alphaOpaque⟩

/-- R124. -/
def colbTrnI (a : BitVec 3) (r g b : BitVec 4) : Pixel32 := ⟨widen4 r, widen4 g, widen4 b, alpha3 a 0⟩

/-- R125: the low alpha bit is 1. -/
def colbTrnII (a : BitVec 3) (r g b : BitVec 4) : Pixel32 := ⟨widen4 r, widen4 g, widen4 b, alpha3 a 1⟩

/-! ## The contract (R120) -/

/-- `ExtractA(col)` (R120): the colour of the operation `col` decodes to. -/
def extractA (col : Word32) : Pixel32 :=
  match decodeColA .p col with
  | .colaOpq _ r g b => colaOpq r g b
  | .colaTrn _ a r g b => colaTrn a r g b
  | _ => ⟨0, 0, 0, 0⟩

/-- `ExtractB(col, variant)` (R120). -/
def extractB (v : Variant) (col : Word32) : Pixel32 :=
  match decodeColB .p v col with
  | .colbOpq _ r g b => colbOpq r g b
  | .colbTrnI _ a r g b => colbTrnI a r g b
  | .colbTrnII _ a r g b => colbTrnII a r g b
  | _ => ⟨0, 0, 0, 0⟩

/-! ## Meanings -/

/-- `COLA.OPQ` (R121, R127): `CA[k]` takes the opaque colour A. -/
def execColaOpq (k : Corner) (r g : BitVec 5) (b : BitVec 4) (s : State) : Result := .next (s.setCa k (colaOpq r g b))

/-- `COLA.TRN` (R122, R127). -/
def execColaTrn (k : Corner) (a : BitVec 3) (r g : BitVec 4) (b : BitVec 3) (s : State) : Result :=
  .next (s.setCa k (colaTrn a r g b))

/-- `COLB.OPQ` (R123, R127): `CB[k]` takes the opaque colour B. -/
def execColbOpq (k : Corner) (r g b : BitVec 5) (s : State) : Result := .next (s.setCb k (colbOpq r g b))

/-- `COLB.TRN.I` (R124, R127). -/
def execColbTrnI (k : Corner) (a : BitVec 3) (r g b : BitVec 4) (s : State) : Result := .next (s.setCb k (colbTrnI a r g b))

/-- `COLB.TRN.II` (R125, R127). -/
def execColbTrnII (k : Corner) (a : BitVec 3) (r g b : BitVec 4) (s : State) : Result :=
  .next (s.setCb k (colbTrnII a r g b))

end Sys2Proof.Machine
end

