-- ==== Sys2Proof/Machine/Interpolator.lean ====
section
/-! DEFINITION. The bilinear colour interpolator (43_bilinear_interpolator.md). -/

namespace Sys2Proof.Machine

/-! ## The accumulator (R191): one channel, exact integers -/

/-- `hP` and `hR` at column `c` (R191): each column adds the horizontal delta. -/
def edgeAt (w : Nat) (v d : Int) (c : Nat) : Int := iter c (fun _ h => h + d) (w * v)

/-- `acc` at texel `(c, r)` (R191): `4*hP`, and each row adds the column's vertical delta. -/
def accAt (w : Nat) (p q r s : Int) (col row : Nat) : Int :=
  let hP := edgeAt w p (q - p) col
  let hR := edgeAt w r (s - r) col
  iter row (fun _ acc => acc + (hR - hP)) (4 * hP)

/-! ## Narrowing (R194, R195) -/

/-- A signed 32-bit channel. -/
def channel (v : Int) : BitVec 32 := BitVec.ofInt 32 v

/-- `Narrow(acc, ch)` of red, green and blue in 4 bpp (R194). -/
def narrowRgb4 (acc : Int) : Int := (acc >>> (6 : Nat)) + (acc >>> (1 : Nat))

/-- `Narrow(acc, a)` in 4 bpp (R194). -/
def narrowA4 (acc : Int) : Int := (acc >>> (4 : Nat)) + acc

/-- `Narrow(acc, ch)` of red, green and blue in 2 bpp (R195). -/
def narrowRgb2 (acc : Int) : Int := (acc >>> (7 : Nat)) + (acc >>> (2 : Nat))

/-- `Narrow(acc, a)` in 2 bpp (R195). -/
def narrowA2 (acc : Int) : Int := (acc >>> (5 : Nat)) + (acc >>> (1 : Nat))

/-! ## One texel, and a buffer (R190) -/

/-- An 8-bit channel as the integer it is (R15: no field is signed). -/
def chan (v : Byte) : Int := v.toNat

/-- `U[r*W + c]` in 4 bpp (R191, R194). -/
def texel4 (k : Corners Pixel32) (c r : Nat) : Pixel128 :=
  let acc := fun (f : Pixel32 → Byte) => accAt 4 (chan (f k.p)) (chan (f k.q)) (chan (f k.r)) (chan (f k.s)) c r
  ⟨channel (narrowRgb4 (acc (·.r))), channel (narrowRgb4 (acc (·.g))), channel (narrowRgb4 (acc (·.b))),
    channel (narrowA4 (acc (·.a)))⟩

/-- `U[r*W + c]` in 2 bpp (R191, R195). -/
def texel2 (k : Corners Pixel32) (c r : Nat) : Pixel128 :=
  let acc := fun (f : Pixel32 → Byte) => accAt 8 (chan (f k.p)) (chan (f k.q)) (chan (f k.r)) (chan (f k.s)) c r
  ⟨channel (narrowRgb2 (acc (·.r))), channel (narrowRgb2 (acc (·.g))), channel (narrowRgb2 (acc (·.b))),
    channel (narrowA2 (acc (·.a)))⟩

/-- `Interp` at one texel (R190). -/
def interpTexel (is2bpp : Bool) (k : Corners Pixel32) (c r : Nat) : Pixel128 :=
  if is2bpp then texel2 k c r else texel4 k c r

/-- Write entries `0 .. W*4 - 1` of a colour buffer; the others stay (R40, R190). -/
def fillBuffer (w : Nat) (f : Nat → Nat → Pixel128) (u : List (Option Pixel128)) : List (Option Pixel128) :=
  u.zipIdx.map fun e => if e.2 < w * 4 then some (f (texelCol w e.2) (texelRow w e.2)) else e.1

/-- The corner colours of a slot (R197). -/
def State.cornerColors (s : State) : ColorSlot → Corners Pixel32
  | .a => s.ca
  | .b => s.cb

/-- `Interp` into the buffer of a slot (R197). -/
def State.interpolate (s : State) (is2bpp : Bool) (c : ColorSlot) : State :=
  s.setColorBuf c (fillBuffer (blockWidth is2bpp) (interpTexel is2bpp (s.cornerColors c)) (s.colorBuf c))

/-! ## Meanings -/

/-- `INTERP.4BPP` (R194). -/
def execInterp4bpp (c : ColorSlot) (s : State) : Result := .next (s.interpolate false c)

/-- `INTERP.2BPP` (R195). -/
def execInterp2bpp (c : ColorSlot) (s : State) : Result := .next (s.interpolate true c)

end Sys2Proof.Machine
end

