-- ==== Sys2Proof/Machine/Unpacker.lean ====
section
/-! DEFINITION. The modulation unpacker (41_modulation_unpacker.md). -/

namespace Sys2Proof.Machine

/-! ## Code to weight -/

/-- R142: 0→0, 1→3, 2→5, 3→8. -/
def stdWeight (code : Nat) : Nat :=
  let v := code * 3
  if 3 < v then v - 1 else v

/-- R143: 0→0, 1→4, 2→14 (weight 4 plus the sentinel 10), 3→8. -/
def ptWeightCode (code : Nat) : Nat := [0, 4, 14, 8].getD code 0

/-! ## The entries of a quadrant -/

/-- The two grids. -/
structure Grids where
  mv : List (Option Nat)
  mm : List (Option ModTag)
  deriving DecidableEq, Repr

/-- Fill a quadrant: the code of block texel `(tx, ty)`, where the format stores one, and the same tag for every texel. -/
def fillGrids (w : Nat) (k : Corner) (code : Nat → Nat → Option Nat) (tag : ModTag) (g : Grids) : Grids :=
  let o := quadrant w k
  { mv := fillQuadrant w o.1 o.2 (fun tx ty old => (code tx ty).or old) g.mv
    mm := fillQuadrant w o.1 o.2 (fun _ _ _ => some tag) g.mm }

/-- `MOD4.STD` (R142). -/
def std4 (mod : Word32) (tx ty : Nat) : Option Nat := some (stdWeight (code2 mod (4 * ty + tx)))

/-- `MOD4.PT` (R143). -/
def pt4 (mod : Word32) (tx ty : Nat) : Option Nat := some (ptWeightCode (code2 mod (4 * ty + tx)))

/-- `MOD2.DIRECT` (R145). -/
def direct2 (mod : Word32) (tx ty : Nat) : Option Nat := some (if code1 mod (8 * ty + tx) then 3 else 0)

/-- `FillSelectable` (R150): a stored texel takes its code from the adjusted bits; the others are left. -/
def selectable2 (bits : Word32) (tx ty : Nat) : Option Nat :=
  if oddParity tx ty then none else some (code2 bits (storedNumber tx ty))

/-- The unpacking of one modulation operation (R142 to R149) into the grids; other operations write no grid. -/
def unpackOp (i : Instr) (g : Grids) : Grids :=
  match i with
  | .mod4Std k m => fillGrids 4 k (std4 m) .direct g
  | .mod4Pt k m => fillGrids 4 k (pt4 m) .direct g
  | .mod2Direct k m => fillGrids 8 k (direct2 m) .direct g
  | .mod2Hv k m => fillGrids 8 k (selectable2 (subMode m).2) .hv g
  | .mod2H k m => fillGrids 8 k (selectable2 (subMode m).2) .hOnly g
  | .mod2V k m => fillGrids 8 k (selectable2 (subMode m).2) .vOnly g
  | _ => g

/-- `Unpack(word, ox, oy)` for the word of block `k` (R140, R141). -/
def unpack (is2bpp : Bool) (k : Corner) (w : CWord) (g : Grids) : Grids := unpackOp (decodeMod k is2bpp w) g

/-- The grids of a state. -/
def State.grids (s : State) : Grids := ⟨s.mv, s.mm⟩

/-- A modulation operation writes `MV` and `MM`, and nothing else (R140). -/
def State.unpackInto (s : State) (i : Instr) : State :=
  let g := unpackOp i s.grids
  s.setGrids g.mv g.mm

/-! ## Meanings -/

/-- `MOD4.STD` (R142). -/
def execMod4Std (k : Corner) (m : Word32) (s : State) : Result := .next (s.unpackInto (.mod4Std k m))

/-- `MOD4.PT` (R143). -/
def execMod4Pt (k : Corner) (m : Word32) (s : State) : Result := .next (s.unpackInto (.mod4Pt k m))

/-- `MOD2.DIRECT` (R145). -/
def execMod2Direct (k : Corner) (m : Word32) (s : State) : Result := .next (s.unpackInto (.mod2Direct k m))

/-- `MOD2.HV` (R147). -/
def execMod2Hv (k : Corner) (m : Word32) (s : State) : Result := .next (s.unpackInto (.mod2Hv k m))

/-- `MOD2.H` (R148). -/
def execMod2H (k : Corner) (m : Word32) (s : State) : Result := .next (s.unpackInto (.mod2H k m))

/-- `MOD2.V` (R149). -/
def execMod2V (k : Corner) (m : Word32) (s : State) : Result := .next (s.unpackInto (.mod2V k m))

end Sys2Proof.Machine
end

