-- ==== Sys2Proof/Machine/Resolver.lean ====
section
/-! DEFINITION. The neighbour-averaging resolver (42_neighbor_resolver.md). -/

namespace Sys2Proof.Machine

/-- `REP = [0, 3, 5, 8]` (R171); a code outside the table has no magnitude the spec gives: a free value. -/
def rep (code : Nat) : Nat :=
  match code with
  | 0 => 0
  | 1 => 3
  | 2 => 5
  | 3 => 8
  | n => Config.openMagnitude n

/-- The magnitude at a supergrid position. -/
def repAt (mv : List (Option Nat)) (x y : Int) : Nat := rep (codeAt mv x y)

/-- `RESOLVE.4BPP` (R170). -/
def weight4bpp (mv : List (Option Nat)) (sx sy : Nat) : Nat := codeAt mv sx sy

/-- `RESOLVE.STORED` (R172). -/
def weightStored (mv : List (Option Nat)) (sx sy : Nat) : Nat := repAt mv sx sy

/-- `RESOLVE.HV` (R173): the rounded average of the four orthogonal neighbours. -/
def weightHv (mv : List (Option Nat)) (sx sy : Nat) : Nat :=
  (repAt mv sx (sy - 1 : Int) + repAt mv sx (sy + 1 : Int) + repAt mv (sx - 1 : Int) sy + repAt mv (sx + 1 : Int) sy + 2) / 4

/-- `RESOLVE.H` (R174): the rounded average of left and right. -/
def weightH (mv : List (Option Nat)) (sx sy : Nat) : Nat :=
  (repAt mv (sx - 1 : Int) sy + repAt mv (sx + 1 : Int) sy + 1) / 2

/-- `RESOLVE.V` (R175): the rounded average of up and down. -/
def weightV (mv : List (Option Nat)) (sx sy : Nat) : Nat :=
  (repAt mv sx (sy - 1 : Int) + repAt mv sx (sy + 1 : Int) + 1) / 2

/-- `Weight(sx, sy)` (R170 to R175): the weight of the operation the position decodes to. -/
def weightOf (is2bpp : Bool) (g : Grids) (sx sy : Nat) : Nat :=
  match decodeResolve sx sy is2bpp (tagAt g.mm sx sy) with
  | .resolve4bpp x y => weight4bpp g.mv x y
  | .resolveStored x y => weightStored g.mv x y
  | .resolveHv x y => weightHv g.mv x y
  | .resolveH x y => weightH g.mv x y
  | .resolveV x y => weightV g.mv x y
  | _ => 0

/-! ## Meanings: each hands the weight to the compositor (R210) -/

/-- `RESOLVE.4BPP` (R170). -/
def execResolve4bpp (sx sy : Nat) (s : State) : Result := .next (s.setWeight (weight4bpp s.mv sx sy))

/-- `RESOLVE.STORED` (R172). -/
def execResolveStored (sx sy : Nat) (s : State) : Result := .next (s.setWeight (weightStored s.mv sx sy))

/-- `RESOLVE.HV` (R173). -/
def execResolveHv (sx sy : Nat) (s : State) : Result := .next (s.setWeight (weightHv s.mv sx sy))

/-- `RESOLVE.H` (R174). -/
def execResolveH (sx sy : Nat) (s : State) : Result := .next (s.setWeight (weightH s.mv sx sy))

/-- `RESOLVE.V` (R175). -/
def execResolveV (sx sy : Nat) (s : State) : Result := .next (s.setWeight (weightV s.mv sx sy))

end Sys2Proof.Machine
end

