-- ==== Sys2Proof/Machine/Twiddler.lean ====
section
/-! DEFINITION. The Morton/linear index twiddler (45_index_twiddler.md). -/

namespace Sys2Proof.Machine

/-- `v[i]` of a coordinate, placed at bit `j`. -/
def placeBit (v i j : Nat) : Nat := (v >>> i &&& 1) <<< j

/-- The interleave loop of R232 over `n` bits: the low axis fills the even bits, the other the odd bits. -/
def interleave (n low other : Nat) : Nat :=
  iter n (fun i k => (k ||| placeBit low i (2 * i)) ||| placeBit other i (2 * i + 1)) 0

/-- `IDX.MORTON` (R232, R233). -/
def mortonIndex (lowAxis : Axis) (gw gh x y : Nat) : Nat :=
  let n := Nat.log2 (min gw gh)
  let k := match lowAxis with
    | .y => interleave n y x
    | .x => interleave n x y
  let k := if gh < gw then k ||| (x >>> n) <<< (2 * n) else k
  if gw < gh then k ||| (y >>> n) <<< (2 * n) else k

/-- `IDX.LINEAR` (R231). -/
def linearIndex (gw x y : Nat) : Nat := y * gw + x

/-- `Index(x, y)` (R230), selected by `VARIANT`. -/
def State.indexOf (s : State) (b : Nat × Nat) : Nat :=
  match s.cfg.variant with
  | .pvrtcI => mortonIndex s.mortonLow s.cfg.gw s.cfg.gh b.1 b.2
  | .pvrtcII => linearIndex s.cfg.gw b.1 b.2

/-- Both grid dimensions are powers of two (R234). -/
def gridPow2 (c : Latched) : Bool := pow2 c.gw && pow2 c.gh

/-! ## Meanings -/

/-- `IDX.MORTON` (R232) of block `k`. On a grid that is not a power of two the order is undefined (R234): a fault. -/
def execIdxMorton (k : Corner) (s : State) : Result :=
  if gridPow2 s.cfg then
    .next (s.setIx k (mortonIndex s.mortonLow s.cfg.gw s.cfg.gh (s.blk.get k).1 (s.blk.get k).2))
  else .fault .mortonNotPow2

/-- `IDX.LINEAR` (R231) of block `k`. -/
def execIdxLinear (k : Corner) (s : State) : Result :=
  .next (s.setIx k (linearIndex s.cfg.gw (s.blk.get k).1 (s.blk.get k).2))

end Sys2Proof.Machine
end

