-- ==== Sys2Proof/Machine/Walker.lean ====
section
/-! DEFINITION. The toroidal block walker (46_block_walker.md): the phases of a command, one after the other, and the
command procedure `Decomp()`. -/

namespace Sys2Proof.Machine

/-! ## CHECK and ALLOC -/

/-- `PH = CHECK` (R251 to R253, R291, R258). -/
def checkPhase (s : State) : State :=
  let s1 := s.setCfg (checkedCfg s.cfg)
  match checkCommand (configure s.cfg) with
  | .none => if s1.cfg.pad then s1.enter .alloc else s1.enterTile (-1) (-1)
  | code => s1.takeFault code

/-- `PH = ALLOC` (R250, R294): the draw, then `TMP` of `Wt*Ht*4` bytes or `F_ALLOC`. -/
def allocPhase (s : State) : State :=
  let d := s.drawAlloc
  if d.1 then (d.2.setTmp (some ⟨s.cfg.wt * s.cfg.ht * 4, []⟩)).enterTile (-1) (-1) else d.2.takeFault .alloc

/-! ## FETCH (R256, R257) -/

/-- The first piece of FETCH: the block indices (R256); the buffers hold no value at the start of a tile (R40). -/
def State.beginTile (s : State) : State := s.clearBuffers.setBlk (neighbours s.bX s.bY s.cfg.gw s.cfg.gh)

/-- The storage indices of the four blocks (R257, R230). -/
def State.indexAll (s : State) : State :=
  ((((s.setIx .p (s.indexOf s.blk.p)).setIx .q (s.indexOf s.blk.q)).setIx .r (s.indexOf s.blk.r)).setIx .s (s.indexOf s.blk.s))

/-- The Morton order is defined for the grid (R234). -/
def State.orderDefined (s : State) : Bool :=
  match s.cfg.variant with
  | .pvrtcI => gridPow2 s.cfg
  | .pvrtcII => true

/-- The last piece of FETCH: the four words are read (R257). A storage index outside `IN` faults (R68, R295). -/
def loadWords (s : State) : Result :=
  if s.wordInside s.ix.p && s.wordInside s.ix.q && s.wordInside s.ix.r && s.wordInside s.ix.s then
    .next ((s.setWords (s.ix.map s.readWord)).enter .unpack)
  else .fault .wordOutsideIn

/-- `PH = FETCH`. -/
def fetchPhase (s : State) : Result :=
  if s.orderDefined then loadWords s.beginTile.indexAll else .fault .mortonNotPow2

/-! ## UNPACK, INTERP, COMPOSE (R258) -/

/-- Colours A and B of block `k` (R127). -/
def State.extract (s : State) (k : Corner) : State :=
  let s1 := s.setCa k (extractA (s.wd.get k).col)
  s1.setCb k (extractB s.cfg.variant (s.wd.get k).col)

/-- `Unpack` of the word of block `k` (R141). -/
def State.unpackBlock (s : State) (k : Corner) : State :=
  let g := unpack s.cfg.is2bpp k (s.wd.get k) s.grids
  s.setGrids g.mv g.mm

/-- `PH = UNPACK`. -/
def unpackPhase (s : State) : State :=
  let s1 := (((s.clearGrids.extract .p).extract .q).extract .r).extract .s
  ((((s1.unpackBlock .p).unpackBlock .q).unpackBlock .r).unpackBlock .s).enter .interp

/-- `PH = INTERP` (R197). -/
def interpPhase (s : State) : State :=
  ((s.interpolate s.cfg.is2bpp .a).interpolate s.cfg.is2bpp .b).enter .compose

/-- One texel of `ComposeTile` (R210): its weight, then its pixel. -/
def State.composeEntry (s : State) (j : Nat) : State :=
  let pos := texelPos s.cfg.blockW j
  let s1 := s.setWeight (weightOf s.cfg.is2bpp s.grids pos.1 pos.2)
  s1.setTexel j (composeTexel s.cfg.variant s1.weight (colorAt .a s.ua j) (colorAt .b s.ub j))

/-- `PH = COMPOSE`: `ComposeTile` (R210). -/
def composePhase (s : State) : State :=
  (iter (s.cfg.blockW * 4) (fun j t => t.composeEntry j) s).enter .scatter

/-! ## SCATTER (R259) -/

/-- The pixel of the target raster that tile entry `j` of the tile at `(BX, BY)` is written to (R259). -/
def scatterPos (c : Latched) (bx bY : Int) (j : Nat) : Nat × Nat :=
  ( ((bx * c.blockW + (c.blockW / 2 : Nat) + texelCol c.blockW j) % c.wt).toNat,
    ((bY * 4 + 2 + texelRow c.blockW j) % c.ht).toNat )

/-- One pixel of `Scatter` (R259). -/
def State.scatterEntry (s : State) (j : Nat) : State :=
  let pos := scatterPos s.cfg s.bX s.bY j
  s.writePixel s.target s.cfg.wt pos.1 pos.2 (texelAt s.tile j)

/-- The target raster lies inside its space (R70, R80). -/
def State.rasterInside (s : State) : Bool :=
  decide (0 < s.cfg.wt ∧ 0 < s.cfg.ht ∧ s.cfg.wt * s.cfg.ht * 4 ≤ s.targetSize s.target)

/-- `Scatter(BX, BY, dst)` (R259). -/
def scatterTile (s : State) : Result :=
  if s.rasterInside then .next (iter (s.cfg.blockW * 4) (fun j t => t.scatterEntry j) s) else .fault .rasterOutsideSpace

/-! ## COPYBACK (R262) -/

/-- One byte of `CopyBack` (R262). -/
def State.copyByte (s : State) (y x i : Nat) : State :=
  match s.tmp with
  | some t => s.putByte .out (pixelOffset s.cfg.width.toNat x y + i) (t.read (pixelOffset s.cfg.wt x y + i))
  | none => s

/-- `CopyBack()` (R262): the top-left `WIDTH × HEIGHT` corner of `TMP`, row by row; then `TMP` is released. -/
def copyBack (s : State) : Result :=
  if s.rasterInside && decide (outBytes s.cfg ≤ s.cfg.outSp.len) then
    let s1 := iter s.cfg.height.toNat (fun y => iter s.cfg.width.toNat (fun x => iter 4 (fun i t => t.copyByte y x i))) s
    .next (s1.setTmp none)
  else .fault .rasterOutsideSpace

/-! ## The command procedure (R250) -/

/-- `DoTile(BX, BY, dst)` (R258). -/
def doTile (bx bY : Int) (s : State) : Result :=
  andThen (fetchPhase (s.enterTile bx bY)) fun s1 => scatterTile (composePhase (interpPhase (unpackPhase s1)))

/-- The walk (R254): `BY` outer, `BX` inner, each from -1 and counting up, one tile for each block. -/
def walk (s : State) : Result :=
  iterM s.cfg.gh (fun j => iterM s.cfg.gw (fun i => doTile ((i : Int) - 1) ((j : Int) - 1))) s

/-- The end of a walked command: the copy-back when `PAD`, then `RESULT` and `DONE` (R250). -/
def endCommand (s : State) : Result :=
  if s.cfg.pad then andThen (copyBack s) fun s1 => .next s1.finish else .next s.finish

/-- `Decomp()` (R250), from `PH = CHECK` to `DONE` or `FAILED`. -/
def decomp (s : State) : Result :=
  let s1 := checkPhase s
  if s1.ph = .failed then .next s1
  else
    let s2 := if s1.cfg.pad then allocPhase s1 else s1
    if s2.ph = .failed then .next s2 else andThen (walk s2) endCommand

end Sys2Proof.Machine
end

