-- ==== Sys2Proof/Machine/Commands.lean ====
section
/-! DEFINITION. The four commands (46_block_walker.md R280 to R283). A command is executed as one step from START to
`DONE` or `FAILED`, which R258 allows; Machine/Sequencer.lean takes the same command step by step. -/

namespace Sys2Proof.Machine

/-- A command of a variant and a bit depth: `Start()` (R322), then `Decomp()` (R250). While another command runs the
START is not admitted and has no behaviour (R302, R324). -/
def runCommand (v : Variant) (is2bpp : Bool) (s : State) : Result :=
  if s.busy then .refused .startWhileBusy else decomp (s.start v is2bpp)

/-- `DECOMP.I.4BPP` (R280). -/
def execDecompI4bpp (s : State) : Result := runCommand .pvrtcI false s

/-- `DECOMP.I.2BPP` (R281). -/
def execDecompI2bpp (s : State) : Result := runCommand .pvrtcI true s

/-- `DECOMP.II.4BPP` (R282). -/
def execDecompII4bpp (s : State) : Result := runCommand .pvrtcII false s

/-- `DECOMP.II.2BPP` (R283). -/
def execDecompII2bpp (s : State) : Result := runCommand .pvrtcII true s

end Sys2Proof.Machine
end

