-- ==== Sys2Proof/Machine/Dispatch.lean ====
section
/-! DEFINITION. The one dispatch from an operation to its meaning. -/

namespace Sys2Proof.Machine

def exec (i : Instr) (s : State) : Host.Outcome State Fault Refusal :=
  match i with
  | .decompI4bpp => Sys2Proof.Machine.execDecompI4bpp s
  | .decompI2bpp => Sys2Proof.Machine.execDecompI2bpp s
  | .decompII4bpp => Sys2Proof.Machine.execDecompII4bpp s
  | .decompII2bpp => Sys2Proof.Machine.execDecompII2bpp s
  | .idxMorton k => Sys2Proof.Machine.execIdxMorton k s
  | .idxLinear k => Sys2Proof.Machine.execIdxLinear k s
  | .interp4bpp c => Sys2Proof.Machine.execInterp4bpp c s
  | .interp2bpp c => Sys2Proof.Machine.execInterp2bpp c s
  | .colaOpq k r g b => Sys2Proof.Machine.execColaOpq k r g b s
  | .colaTrn k a r g b => Sys2Proof.Machine.execColaTrn k a r g b s
  | .colbOpq k r g b => Sys2Proof.Machine.execColbOpq k r g b s
  | .colbTrnI k a r g b => Sys2Proof.Machine.execColbTrnI k a r g b s
  | .colbTrnII k a r g b => Sys2Proof.Machine.execColbTrnII k a r g b s
  | .mod4Std k m => Sys2Proof.Machine.execMod4Std k m s
  | .mod4Pt k m => Sys2Proof.Machine.execMod4Pt k m s
  | .mod2Direct k m => Sys2Proof.Machine.execMod2Direct k m s
  | .mod2Hv k m => Sys2Proof.Machine.execMod2Hv k m s
  | .mod2H k m => Sys2Proof.Machine.execMod2H k m s
  | .mod2V k m => Sys2Proof.Machine.execMod2V k m s
  | .resolve4bpp sx sy => Sys2Proof.Machine.execResolve4bpp sx sy s
  | .resolveStored sx sy => Sys2Proof.Machine.execResolveStored sx sy s
  | .resolveHv sx sy => Sys2Proof.Machine.execResolveHv sx sy s
  | .resolveH sx sy => Sys2Proof.Machine.execResolveH sx sy s
  | .resolveV sx sy => Sys2Proof.Machine.execResolveV sx sy s
  | .compose j => Sys2Proof.Machine.execCompose j s
  | .composePtI j => Sys2Proof.Machine.execComposePtI j s
  | .composePtII j => Sys2Proof.Machine.execComposePtII j s

end Sys2Proof.Machine
end

