-- ==== Sys2Proof/Machine/Sequencer.lean ====
section
/-! DEFINITION. The sequencing of the machine: the host's moves, the step of a busy core at each granularity, how the
next operation is fetched, and how a table word is placed where it is fetched next. -/

namespace Sys2Proof.Machine

/-! ## What follows SCATTER, and the end (R258) -/

/-- The tile at `(BX, BY)` is the last one (R254). -/
def State.lastTile (s : State) : Bool := decide (s.bX = (s.cfg.gw : Int) - 2 ∧ s.bY = (s.cfg.gh : Int) - 2)

/-- The next `(BX, BY)` of R254: `BX` counts up, then `BY`. -/
def State.nextTile (s : State) : State :=
  if s.bX = (s.cfg.gw : Int) - 2 then s.enterTile (-1) (s.bY + 1) else s.enterTile (s.bX + 1) s.bY

/-- Where SCATTER goes: the next tile, COPYBACK, or DONE with `RESULT` written (R258). -/
def State.afterScatter (s : State) : State :=
  if s.lastTile then if s.cfg.pad then s.enter .copyback else s.finish else s.nextTile

/-! ## One row of R258's table -/

/-- One step of the core as R258's table has it. A core that is not busy stays as it is (R307). -/
def phaseStep (s : State) : Result :=
  match s.ph with
  | .idle | .done | .failed => .next s
  | .check => .next (checkPhase s)
  | .alloc => .next (allocPhase s)
  | .fetch => fetchPhase s
  | .unpack => .next (unpackPhase s)
  | .interp => .next (interpPhase s)
  | .compose => .next (composePhase s)
  | .scatter => andThen (scatterTile s) fun t => .next t.afterScatter
  | .copyback => andThen (copyBack s) fun t => .next t.finish

/-! ## One operation -/

/-- The four blocks in the order P, Q, R, S. -/
def cornerAt : Nat → Corner
  | 0 => .p
  | 1 => .q
  | 2 => .r
  | _ => .s

/-- The selection the core makes next, when the next piece of its work is an operation of the opcode table. The order
inside a phase is R258's: in FETCH the block indices come first (`seq = 0`), then the four storage indices, then the
four words (`seq = 5`); in UNPACK the grids are cleared first, then colours A and B of each block, then the four
unpackings; in COMPOSE each texel takes its weight and then its pixel (R210). -/
def State.nextSlot (s : State) : Option Slot :=
  match s.ph with
  | .fetch => if 1 ≤ s.seq ∧ s.seq ≤ 4 then some (.index (cornerAt (s.seq - 1))) else none
  | .unpack =>
    if 1 ≤ s.seq ∧ s.seq ≤ 8 then
      if s.seq % 2 = 1 then some (.colA (cornerAt ((s.seq - 1) / 2))) else some (.colB (cornerAt ((s.seq - 1) / 2)))
    else if 9 ≤ s.seq ∧ s.seq ≤ 12 then some (.mod (cornerAt (s.seq - 9)))
    else none
  | .interp => if s.seq = 0 then some (.interp .a) else if s.seq = 1 then some (.interp .b) else none
  | .compose =>
    if s.seq < 8 * s.cfg.blockW then
      let j := s.seq / 2
      let pos := texelPos s.cfg.blockW j
      if s.seq % 2 = 0 then some (.resolve pos.1 pos.2) else some (.compose j)
    else none
  | .idle | .check | .alloc | .scatter | .copyback | .done | .failed => none

/-- The word a selection looks at. -/
def State.slotWord (s : State) : Slot → BitVec 64
  | .colA k | .colB k | .mod k => word64 (s.wd.get k)
  | _ => 0

/-- The tag a selection looks at: that of the word that holds the texel (42_neighbor_resolver.md section 2). -/
def State.slotTag (s : State) : Slot → ModTag
  | .resolve sx sy => tagAt s.mm sx sy
  | _ => .direct

/-- What the decoder sees for a selection: the latched `CMDSEL`, and the word, tag and code the selection looks at. -/
def State.fetchSlot (s : State) (slot : Slot) : Fetched :=
  ⟨slot, cmdSel s.cfg.variant s.cfg.is2bpp, s.slotWord slot, s.slotTag slot, s.weight⟩

/-- The operation of the opcode table a busy core executes next at operation granularity, if its next piece is one. -/
def State.nextOp (s : State) : Option Fetched := s.nextSlot.map s.fetchSlot

/-- Go past an operation: to the next one of the phase, or to the next phase (R258). -/
def State.advance (s : State) : State :=
  match s.ph with
  | .unpack => if 12 ≤ s.seq then s.enter .interp else { s with seq := s.seq + 1 }
  | .interp => if 1 ≤ s.seq then s.enter .compose else { s with seq := s.seq + 1 }
  | .compose => if 8 * s.cfg.blockW ≤ s.seq + 1 then s.enter .scatter else { s with seq := s.seq + 1 }
  | _ => { s with seq := s.seq + 1 }

/-- The walker's own work between two operations. -/
def walkerStep (s : State) : Result :=
  match s.ph with
  | .fetch => if s.seq = 0 then .next s.beginTile.advance else loadWords s
  | .unpack => if s.seq = 0 then .next s.clearGrids.advance else .next (s.enter .interp)
  | .interp => .next (s.enter .compose)
  | .compose => .next (s.enter .scatter)
  | .idle | .check | .alloc | .scatter | .copyback | .done | .failed => phaseStep s

/-- One step of a busy core at operation granularity: fetch, decode, execute, go on; or the walker's own work. -/
def operationStep (s : State) : Result :=
  match s.nextOp with
  | some f => andThen (exec (decode f) s) fun t => .next t.advance
  | none => walkerStep s

/-- One step of a busy core. -/
def busyStep (s : State) : Result :=
  match s.granularity with
  | .operation => operationStep s
  | .command | .phase => phaseStep s

/-! ## The host (R80) -/

/-- The command the record selects (R90): what the decoder sees when the host strobes START. -/
def State.fetchCommand (s : State) : Fetched := ⟨.command, cmdSel s.cmd.variant s.cmd.is2bpp, 0, .direct, 0⟩

/-- START (R322). At command granularity the selected command is decoded and executed whole; otherwise the core latches
the record and enters CHECK. -/
def startStep (s : State) : Result :=
  match s.granularity with
  | .command => exec (decode s.fetchCommand) s
  | .phase | .operation => .next (s.start s.cmd.variant s.cmd.is2bpp)

/-- A move of the host on a core that is not busy (R33, R80). -/
def hostMove (a : HostAction) (s : State) : Result :=
  match a with
  | .setVariant v => .next { s with cmd := { s.cmd with variant := v } }
  | .setIs2bpp b => .next { s with cmd := { s.cmd with is2bpp := b } }
  | .setWidth w => .next { s with cmd := { s.cmd with width := w } }
  | .setHeight h => .next { s with cmd := { s.cmd with height := h } }
  | .supplyIn sp => .next { s with cmd := { s.cmd with inSp := sp } }
  | .supplyOut sp => .next { s with cmd := { s.cmd with outSp := sp } }
  | .storeByte a v => .next { s with mem := Memory.write s.mem a v }
  | .start => startStep s
  | .selectStrat n => .next { s with strat := .selected n }
  | .reset => .next s.resetCore

/-- The moves that no rule ties to `STATUS ≠ BUSY`: the variant selection (R326) and reset (R320). -/
def HostAction.anyTime : HostAction → Bool
  | .selectStrat _ | .reset => true
  | .setVariant _ | .setIs2bpp _ | .setWidth _ | .setHeight _ | .supplyIn _ | .supplyOut _ | .storeByte .. | .start => false

/-- One step of the machine. The host's next move is made as soon as the host may make it: while the core is busy it
keeps its hands off (R323, R324), and the core goes on. -/
def machineStep (s : State) : Result :=
  match s.hostQ with
  | [] => if s.busy then busyStep s else .next s
  | a :: rest =>
    if s.busy && !a.anyTime then busyStep s else hostMove a { s with hostQ := rest }

/-! ## Placing a table word -/

/-- Place a command selector: the host's next move is a START of that command, at command granularity. -/
def State.placeSelector (s : State) (sel : BitVec 2) : State :=
  { s with
    cmd := { s.cmd with variant := selVariant sel, is2bpp := sel2bpp sel }
    hostQ := .start :: s.hostQ
    granularity := .command
    ph := if s.busy then .idle else s.ph }

/-- Where in UNPACK the operation of a selection on block P's word stands. -/
def unpackSeq : Slot → Nat
  | .colA _ => 1
  | .colB _ => 2
  | _ => 9

/-- Place a compressed word: it is in `WP`, and the core is in UNPACK at the operation that reads it as `bareWord` says. -/
def State.placeWord (s : State) (w : BitVec 64) : State :=
  let at' := bareWord w
  { s with
    cfg := { s.cfg with variant := selVariant at'.2, is2bpp := sel2bpp at'.2 }
    wd := s.wd.set .p (wordOf64 w)
    ph := .unpack
    seq := unpackSeq at'.1
    granularity := .operation
    hostQ := s.hostQ.filter fun a => !a.anyTime }

/-- Place an instruction of the opcode table, given by its bits, where the machine takes its next instruction. -/
def placeTableWord (s : State) (nbits w : Nat) : State :=
  if nbits ≤ 8 then s.placeSelector (BitVec.ofNat 2 w) else s.placeWord (BitVec.ofNat 64 w)

end Sys2Proof.Machine
end

