-- ==== Sys2Proof/Machine/ClosedForm.lean ====
section
/-! DEFINITION. The closed form of the output (R266): each pixel of the padded raster on its own, from the four words of
its tile. The walk of Machine/Walker.lean does not use it; statements compare the two. -/

namespace Sys2Proof.Machine

/-- The grids of a tile: every entry `none`, then the four words unpacked (R258). -/
def tileGrids (is2bpp : Bool) (w : Corners CWord) : Grids :=
  let g0 : Grids := ⟨List.replicate 128 none, List.replicate 128 none⟩
  unpack is2bpp .s w.s (unpack is2bpp .r w.r (unpack is2bpp .q w.q (unpack is2bpp .p w.p g0)))

/-- `TILE[r*W + c]` of the tile of four words (R258, R210): the blend of the two interpolated colours at texel `(c, r)`
by the weight of supergrid texel `(c + W/2, r + 2)`. -/
def tileTexel (v : Variant) (is2bpp : Bool) (w : Corners CWord) (c r : Nat) : Pixel32 :=
  composeTexel v (weightOf is2bpp (tileGrids is2bpp w) (c + blockWidth is2bpp / 2) (r + 2))
    (interpTexel is2bpp (w.map fun k => extractA k.col) c r)
    (interpTexel is2bpp (w.map fun k => extractB v k.col) c r)

/-- The block `(bx, by)` and the texel `(c, r)` of the tile that holds pixel `(X, Y)` (R266). -/
def tileOfPixel (c : Latched) (x y : Nat) : (Nat × Nat) × (Nat × Nat) :=
  let u := (((x : Int) - (c.blockW / 2 : Nat)) % c.wt).toNat
  let v := (((y : Int) - 2) % c.ht).toNat
  ((u / c.blockW, v / 4), (u % c.blockW, v % 4))

/-- P, Q, R and S of the tile whose first block is `b` (R266). -/
def tileBlocks (c : Latched) (b : Nat × Nat) : Corners (Nat × Nat) :=
  ⟨(b.1, b.2), ((b.1 + 1) % c.gw, b.2), (b.1, (b.2 + 1) % c.gh), ((b.1 + 1) % c.gw, (b.2 + 1) % c.gh)⟩

/-- The word of a block as `IN` holds it (R230, R63). -/
def State.wordOfBlock (s : State) (b : Nat × Nat) : CWord := s.readWord (s.indexOf b)

/-- `pixel(X, Y)` (R266), from the latched configuration and the bytes of `IN` of a state. -/
def State.closedPixel (s : State) (x y : Nat) : Pixel32 :=
  let t := tileOfPixel s.cfg x y
  tileTexel s.cfg.variant s.cfg.is2bpp ((tileBlocks s.cfg t.1).map s.wordOfBlock) t.2.1 t.2.2

/-- The state in which a command's walk begins: the record latched at START (R322), the configuration of CHECK
(R251 to R253). -/
def State.configured (s : State) (v : Variant) (is2bpp : Bool) : State :=
  (s.start v is2bpp).setCfg (checkedCfg (s.start v is2bpp).cfg)

end Sys2Proof.Machine
end

