-- ==== Sys2Proof/Safety.lean ====
section
/-! DEFINITION. What counts as a safe state of the core, and the vocabulary in which statements about it are made: the
invariants, the fault conditions of R290 over the command record, runs of several steps, and bit fields. -/

namespace Sys2Proof

/-- The field `v[hi:lo]`, as a number (R15). -/
def field {w : Nat} (v : BitVec w) (hi lo : Nat) : Nat := v.toNat / 2 ^ lo % 2 ^ (hi + 1 - lo)

/-- The command of a variant and a bit depth (R90). -/
def commandOf : Variant → Bool → Instr
  | .pvrtcI, false => .decompI4bpp
  | .pvrtcI, true => .decompI2bpp
  | .pvrtcII, false => .decompII4bpp
  | .pvrtcII, true => .decompII2bpp

/-- A colour on the extractor's scale (R126): red, green and blue in `[0, 31]`, alpha in `[0, 15]`. -/
def Pixel32.onScale (p : Pixel32) : Prop := p.r.toNat ≤ 31 ∧ p.g.toNat ≤ 31 ∧ p.b.toNat ≤ 31 ∧ p.a.toNat ≤ 15

/-- Every channel in `[0, 255]` (R196). -/
def Pixel128.inByte (p : Pixel128) : Prop := p.r.toNat ≤ 255 ∧ p.g.toNat ≤ 255 ∧ p.b.toNat ≤ 255 ∧ p.a.toNat ≤ 255

end Sys2Proof

namespace Sys2Proof.Machine

/-! ## Runs -/

/-- `n` steps of the machine; a fault or a refusal ends the run. -/
def runSteps : Nat → State → Result
  | 0, s => .next s
  | n + 1, s => andThen (step s) (runSteps n)

/-- The number of steps of R330 that a command takes from CHECK to its end, for a checked configuration. -/
def stepsOf (c : Latched) : Nat := 1 + (if c.pad then 1 else 0) + 5 * c.gw * c.gh + (if c.pad then 1 else 0)

/-! ## The command record's derived values (R251 to R253) -/

/-- `Wt` of a record (R252). -/
def recWt (is2bpp : Bool) (width : Word32) : Nat := max width.toNat (if is2bpp then 16 else 8)

/-- `Ht` of a record (R252). -/
def recHt (height : Word32) : Nat := max height.toNat 8

/-- `gw` of a record (R253). -/
def recGw (is2bpp : Bool) (width : Word32) : Nat := recWt is2bpp width / (if is2bpp then 8 else 4)

/-- `gh` of a record (R253). -/
def recGh (height : Word32) : Nat := recHt height / 4

/-- `PAD` of a record (R252). -/
def recPad (is2bpp : Bool) (r : CmdRecord) : Prop := recWt is2bpp r.width ≠ r.width.toNat ∨ recHt r.height ≠ r.height.toNat

/-! ## The conditions of R290, over the command record -/

/-- The condition of a code of CHECK (R290). `NONE` and `F_ALLOC` have no condition there. -/
def faultCondition (v : Variant) (is2bpp : Bool) (r : CmdRecord) : FaultCode → Prop
  | .dimMult => recWt is2bpp r.width % (if is2bpp then 8 else 4) ≠ 0 ∨ recHt r.height % 4 ≠ 0
  | .npot => v = .pvrtcI ∧ ¬((∃ a, recGw is2bpp r.width = 2 ^ a) ∧ ∃ b, recGh r.height = 2 ^ b)
  | .size => recWt is2bpp r.width * recHt r.height * 4 > 2 ^ 32 - 1
  | .inShort => r.inSp.len < 8 * recGw is2bpp r.width * recGh r.height
  | .outShort => r.outSp.len < r.width.toNat * r.height.toNat * 4
  | .overlap =>
    ∃ a, r.inSp.base ≤ a ∧ a < r.inSp.base + 8 * recGw is2bpp r.width * recGh r.height ∧
      r.outSp.base ≤ a ∧ a < r.outSp.base + r.width.toNat * r.height.toNat * 4
  | .none | .alloc => False

/-- The command is admitted: no condition of R290 holds in CHECK. -/
def admitted (v : Variant) (is2bpp : Bool) (r : CmdRecord) : Prop := ∀ code, ¬faultCondition v is2bpp r code

/-- The draw `ALLOC_OK` that a command started in a state takes if it needs one (R294): the environment's next draw, else
the free value that follows the one START takes for `RESULT`. -/
def State.drawOf (s : State) : Bool :=
  match s.allocGiven with
  | b :: _ => b
  | [] => Config.allocOk (s.draws + 1)

/-- An address of host memory inside the bytes a command writes to `OUT` (R70). -/
def inOut (r : CmdRecord) (a : Nat) : Prop :=
  r.outSp.base ≤ a ∧ a < r.outSp.base + r.width.toNat * r.height.toNat * 4

/-! ## What a statement says an operation leaves -/

/-- Where the quadrant of a block begins in the supergrid, for block width `w` (R141). -/
def quadrantOrigin (w : Nat) : Corner → Nat × Nat
  | .p => (0, 0)
  | .q => (w, 0)
  | .r => (0, 4)
  | .s => (w, 4)

/-- Only `CA[k]` differs, and it holds `p` (R120, R127). -/
def State.CaWritten (s t : State) (k : Corner) (p : Pixel32) : Prop :=
  t = { s with ca := t.ca } ∧ t.ca.get k = p ∧ ∀ k', k' ≠ k → t.ca.get k' = s.ca.get k'

/-- Only `CB[k]` differs, and it holds `p` (R120, R127). -/
def State.CbWritten (s t : State) (k : Corner) (p : Pixel32) : Prop :=
  t = { s with cb := t.cb } ∧ t.cb.get k = p ∧ ∀ k', k' ≠ k → t.cb.get k' = s.cb.get k'

/-- Only the storage index of block `k` differs, and it is `n` (R230). -/
def State.IxWritten (s t : State) (k : Corner) (n : Nat) : Prop :=
  t = { s with ix := t.ix } ∧ t.ix.get k = n ∧ ∀ k', k' ≠ k → t.ix.get k' = s.ix.get k'

/-- Only the grids differ (R140): every texel of the `w × 4` quadrant of block `k` carries the tag, and holds `code` of
its block texel where that is a code; every other entry of both grids is as before. -/
def State.Unpacked (s t : State) (w : Nat) (k : Corner) (code : Nat → Nat → Option Nat) (tag : ModTag) : Prop :=
  t = { s with mv := t.mv, mm := t.mm } ∧ t.mv.length = s.mv.length ∧ t.mm.length = s.mm.length ∧
    (s.mv.length = 128 → s.mm.length = 128 → ∀ tx ty, tx < w → ty < 4 →
      let n := 8 * ((quadrantOrigin w k).1 + tx) + ((quadrantOrigin w k).2 + ty)
      t.mm[n]? = some (some tag) ∧
        t.mv[n]? = match code tx ty with | some c => some (some c) | none => s.mv[n]?) ∧
    ∀ sx sy, sy < 8 →
      ¬((quadrantOrigin w k).1 ≤ sx ∧ sx < (quadrantOrigin w k).1 + w ∧
        (quadrantOrigin w k).2 ≤ sy ∧ sy < (quadrantOrigin w k).2 + 4) →
      t.mm[8 * sx + sy]? = s.mm[8 * sx + sy]? ∧ t.mv[8 * sx + sy]? = s.mv[8 * sx + sy]?

/-- Entry `[sx][sy]` of `MV` holds the code `c` (R39). -/
def State.HoldsCode (s : State) (sx sy c : Nat) : Prop := sx < 16 ∧ sy < 8 ∧ s.mv[8 * sx + sy]? = some (some c)

/-- The magnitude table `REP` (R171). -/
def repTable (c : Nat) : Nat := [0, 3, 5, 8].getD c 0

/-- `acc(c, r)` (R192), for channel values of the corners P, Q, R, S and block width `w`. -/
def accClosed (w : Nat) (p q r s : Byte) (col row : Nat) : Nat :=
  (w - col) * (4 - row) * p.toNat + col * (4 - row) * q.toNat + (w - col) * row * r.toNat + col * row * s.toNat

/-- Only the colour buffer of a slot differs: entry `r*w + c` is `f c r` for `c < w`, `r < 4`, and the entries from `4*w`
on are as before (R190, R197). -/
def State.Interpolated (s t : State) (slot : ColorSlot) (w : Nat) (f : Nat → Nat → Pixel128) : Prop :=
  (match slot with
    | .a => t = { s with ua := t.ua }
    | .b => t = { s with ub := t.ub }) ∧
    (t.colorBuf slot).length = (s.colorBuf slot).length ∧
    (∀ c r, c < w → r < 4 → r * w + c < (s.colorBuf slot).length → (t.colorBuf slot)[r * w + c]? = some (some (f c r))) ∧
    ∀ j, 4 * w ≤ j → (t.colorBuf slot)[j]? = (s.colorBuf slot)[j]?

/-- Only entry `j` of `TILE` differs (R210). -/
def State.TexelOnly (s t : State) (j : Nat) : Prop :=
  t = { s with tile := t.tile } ∧ t.tile.length = s.tile.length ∧ ∀ n, n ≠ j → t.tile[n]? = s.tile[n]?

/-- Byte `i` of a stored pixel (R65). -/
def storedByte (o : PixelOrder) (p : Pixel32) (i : Nat) : Byte :=
  match o with
  | .rgba => [p.r, p.g, p.b, p.a].getD i 0
  | .bgra => [p.b, p.g, p.r, p.a].getD i 0

/-- Byte `off` of the target raster of a state: of `TMP` when `PAD`, else of `OUT` (R261). -/
def State.targetByte (s : State) (off : Nat) : Byte :=
  if s.cfg.pad then (match s.tmp with | some r => r.read off | none => Config.openTmpByte off)
  else Memory.read s.mem (s.cfg.outSp.base + off)

/-! ## The invariants -/

/-- The phases in which the latched configuration is that of an admitted command. -/
def Phase.admittedWork : Phase → Bool
  | .alloc | .fetch | .unpack | .interp | .compose | .scatter | .copyback => true
  | .idle | .check | .done | .failed => false

/-- The phases of a tile. -/
def Phase.tileWork : Phase → Bool
  | .fetch | .unpack | .interp | .compose | .scatter => true
  | .idle | .check | .alloc | .copyback | .done | .failed => false

/-- The phases in which `TMP` exists when `PAD` (R42). -/
def Phase.afterAlloc : Phase → Bool
  | .fetch | .unpack | .interp | .compose | .scatter | .copyback => true
  | .idle | .check | .alloc | .done | .failed => false

/-- The sizes of the grids and buffers (R39, R40). -/
structure State.Sized (s : State) : Prop where
  mv   : s.mv.length = 128
  mm   : s.mm.length = 128
  ua   : s.ua.length = 32
  ub   : s.ub.length = 32
  tile : s.tile.length = 32

/-- The invariant of the core. Memory and `TMP` are in their canonical forms, grids and buffers have their sizes; `TMP`
exists exactly in the phases of a padded command in which R42 says so, with its size; in those phases the latched
configuration is the one CHECK derived, and it passed every test of R291; the walker position and the block indices lie
in their ranges (R35, R36); and a storage index that the fetch will use lies in the grid (R230). -/
structure State.Inv (s : State) : Prop where
  mem     : Memory.wf s.mem = true
  tmpWf   : ∀ r, s.tmp = some r → r.wf = true
  sized   : s.Sized
  config  : s.ph.admittedWork = true → checkCommand (configure s.cfg) = .none ∧ s.cfg = checkedCfg s.cfg
  padded  : s.ph = .alloc ∨ s.ph = .copyback → s.cfg.pad = true
  tmpSize : s.ph.afterAlloc = true → s.cfg.pad = true → ∃ r, s.tmp = some r ∧ r.size = s.cfg.wt * s.cfg.ht * 4
  tmpGone : ¬(s.ph.afterAlloc = true ∧ s.cfg.pad = true) → s.tmp = none
  walker  : s.ph.tileWork = true → -1 ≤ s.bX ∧ s.bX ≤ (s.cfg.gw : Int) - 2 ∧ -1 ≤ s.bY ∧ s.bY ≤ (s.cfg.gh : Int) - 2
  blocks  : s.ph.tileWork = true → s.ph ≠ .fetch ∨ 1 ≤ s.seq → ∀ k, (s.blk.get k).1 < s.cfg.gw ∧ (s.blk.get k).2 < s.cfg.gh
  indices : s.ph = .fetch → ∀ n, n < 4 → n + 2 ≤ s.seq → s.ix.get (cornerAt n) < s.cfg.gw * s.cfg.gh

/-- The values of the working registers are in the ranges the spec gives them: corner colours (R38, R126), codes (R39,
R152), interpolated colours (R196, R215). -/
structure State.Ranges (s : State) : Prop where
  ca : ∀ k, (s.ca.get k).onScale
  cb : ∀ k, (s.cb.get k).onScale
  mv : ∀ c, some c ∈ s.mv → c ∈ [0, 1, 2, 3, 4, 5, 8, 14]
  ua : ∀ p, some p ∈ s.ua → p.inByte
  ub : ∀ p, some p ∈ s.ub → p.inByte

end Sys2Proof.Machine
end

