-- ==== Sys2Proof/Certificates/Slice0/Obligations.lean ====
section
/-! DEFINITION. The statements about the model. Each docstring names the rules of spec/ it formalises. -/

open Sys2Proof Sys2Proof.Machine

/-! ## Encoding (30_encoding.md) -/

/-- Decoding the encoding of a well-formed operation gives the operation back, with every operand (R90 to R97, R101). -/
def Obligations.DecodeOfEncodeIsSame : Prop :=
  ∀ i : Instr, i.wellFormed = true → decode (encode i) = i

/-- R102: whatever the decoder sees, exactly one row of the opcode table matches it; and it is the row of the operation
that R101 selects. -/
def Obligations.ExactlyOneRowMatches : Prop :=
  ∀ f : Fetched, (tableRows.filter fun r => r.covers f).map Row.mnemonic = [(decode f).mnemonic]

/-- What the decoder gives at a position or tile entry the compositor uses is well-formed (R101, R176, R210). -/
def Obligations.DecodedIsWellFormed : Prop :=
  ∀ f : Fetched,
    (match f.slot with
      | .resolve sx sy => if sel2bpp f.sel then 4 ≤ sx ∧ sx < 12 ∧ 2 ≤ sy ∧ sy < 6 else 2 ≤ sx ∧ sx < 6 ∧ 2 ≤ sy ∧ sy < 6
      | .compose j => j < 32
      | _ => True) →
    (decode f).wellFormed = true

/-- R99: no bit of a word is ignored. Two words that decode to the same three operations under one command are the same
word. -/
def Obligations.NoWordBitIgnored : Prop :=
  ∀ (v : Variant) (is2bpp : Bool) (k : Corner) (w w' : CWord),
    decodeColA k w.col = decodeColA k w'.col → decodeColB k v w.col = decodeColB k v w'.col →
      decodeMod k is2bpp w = decodeMod k is2bpp w' → w = w'

/-- The fields of colour A are where R93 puts them. -/
def Obligations.ColourAFieldPlaces : Prop :=
  ∀ (k : Corner) (col : Word32),
    (field col 15 15 = 1 → ∃ r g b, decodeColA k col = .colaOpq k r g b ∧
      r.toNat = field col 14 10 ∧ g.toNat = field col 9 5 ∧ b.toNat = field col 4 1) ∧
    (field col 15 15 = 0 → ∃ a r g b, decodeColA k col = .colaTrn k a r g b ∧
      a.toNat = field col 14 12 ∧ r.toNat = field col 11 8 ∧ g.toNat = field col 7 4 ∧ b.toNat = field col 3 1)

/-- The fields of colour B are where R94 puts them, and `VARIANT` selects the translucent form (R101 item 3). -/
def Obligations.ColourBFieldPlaces : Prop :=
  ∀ (k : Corner) (col : Word32),
    (∀ v, field col 31 31 = 1 → ∃ r g b, decodeColB k v col = .colbOpq k r g b ∧
      r.toNat = field col 30 26 ∧ g.toNat = field col 25 21 ∧ b.toNat = field col 20 16) ∧
    (field col 31 31 = 0 → ∃ a r g b, decodeColB k .pvrtcI col = .colbTrnI k a r g b ∧
      decodeColB k .pvrtcII col = .colbTrnII k a r g b ∧
      a.toNat = field col 30 28 ∧ r.toNat = field col 27 24 ∧ g.toNat = field col 23 20 ∧ b.toNat = field col 19 16)

/-- A few words written out from the spec decode to the operations they stand for (R90, R93, R94, R101; vectors VC5, VC6,
VC8 and VM2, VM5, VM7 to VM9). A sanity statement. -/
def Obligations.WrittenWordsDecode : Prop :=
  decode ⟨.command, 0b01#2, 0, .direct, 0⟩ = .decompI2bpp ∧
  decode ⟨.index .q, 0b01#2, 0, .direct, 0⟩ = .idxMorton .q ∧
  decode ⟨.interp .b, 0b10#2, 0, .direct, 0⟩ = .interp4bpp .b ∧
  decode ⟨.colA .p, 0b00#2, 0x0000CD9200000000#64, .direct, 0⟩ = .colaOpq .p 19 12 9 ∧
  decode ⟨.colA .r, 0b00#2, 0x00005A5A00000000#64, .direct, 0⟩ = .colaTrn .r 5 10 5 5 ∧
  decode ⟨.colB .s, 0b10#2, 0x5A5A000000000000#64, .direct, 0⟩ = .colbTrnII .s 5 10 5 10 ∧
  decode ⟨.mod .p, 0b00#2, 0x00000001E4E4E4E4#64, .direct, 0⟩ = .mod4Pt .p 0xE4E4E4E4 ∧
  decode ⟨.mod .p, 0b01#2, 0x000000000000000F#64, .direct, 0⟩ = .mod2Direct .p 0x0000000F ∧
  decode ⟨.mod .p, 0b01#2, 0x0000000100000002#64, .direct, 0⟩ = .mod2Hv .p 0x00000002 ∧
  decode ⟨.mod .p, 0b01#2, 0x0000000100200001#64, .direct, 0⟩ = .mod2H .p 0x00200001 ∧
  decode ⟨.mod .p, 0b01#2, 0x0000000100300003#64, .direct, 0⟩ = .mod2V .p 0x00300003 ∧
  decode ⟨.resolve 5 2, 0b01#2, 0, .vOnly, 0⟩ = .resolveV 5 2 ∧
  decode ⟨.compose 0, 0b00#2, 0, .direct, 14⟩ = .composePtI 0

/-! ## Colour extractor (40_color_extractor.md) -/

/-- R121, R122: the two forms of colour A write `CA[k]` with the widened channels, and change nothing else. -/
def Obligations.ColourAOperations : Prop :=
  ∀ (s : State) (k : Corner),
    (∀ (r g : BitVec 5) (b : BitVec 4), ∃ t, exec (.colaOpq k r g b) s = .next t ∧
      s.CaWritten t k ⟨BitVec.ofNat 8 r.toNat, BitVec.ofNat 8 g.toNat, BitVec.ofNat 8 (2 * b.toNat + b.toNat / 8), 15⟩) ∧
    (∀ (a : BitVec 3) (r g : BitVec 4) (b : BitVec 3), ∃ t, exec (.colaTrn k a r g b) s = .next t ∧
      s.CaWritten t k ⟨BitVec.ofNat 8 (2 * r.toNat + r.toNat / 8), BitVec.ofNat 8 (2 * g.toNat + g.toNat / 8),
        BitVec.ofNat 8 (4 * b.toNat + b.toNat / 2), BitVec.ofNat 8 (2 * a.toNat)⟩)

/-- R123, R124, R125: the three forms of colour B write `CB[k]` with the widened channels, and change nothing else. The
low alpha bit of the translucent form is 0 in PVRTC-I and 1 in PVRTC-II. -/
def Obligations.ColourBOperations : Prop :=
  ∀ (s : State) (k : Corner),
    (∀ r g b : BitVec 5, ∃ t, exec (.colbOpq k r g b) s = .next t ∧
      s.CbWritten t k ⟨BitVec.ofNat 8 r.toNat, BitVec.ofNat 8 g.toNat, BitVec.ofNat 8 b.toNat, 15⟩) ∧
    (∀ (a : BitVec 3) (r g b : BitVec 4), ∃ t, exec (.colbTrnI k a r g b) s = .next t ∧
      s.CbWritten t k ⟨BitVec.ofNat 8 (2 * r.toNat + r.toNat / 8), BitVec.ofNat 8 (2 * g.toNat + g.toNat / 8),
        BitVec.ofNat 8 (2 * b.toNat + b.toNat / 8), BitVec.ofNat 8 (2 * a.toNat)⟩) ∧
    (∀ (a : BitVec 3) (r g b : BitVec 4), ∃ t, exec (.colbTrnII k a r g b) s = .next t ∧
      s.CbWritten t k ⟨BitVec.ofNat 8 (2 * r.toNat + r.toNat / 8), BitVec.ofNat 8 (2 * g.toNat + g.toNat / 8),
        BitVec.ofNat 8 (2 * b.toNat + b.toNat / 8), BitVec.ofNat 8 (2 * a.toNat + 1)⟩)

/-- R126: every extracted colour is on the extractor's scale; opaque forms have alpha 15, `COLA.TRN` and `COLB.TRN.I` an
even alpha of at most 14, `COLB.TRN.II` an odd one. -/
def Obligations.ExtractedColoursOnScale : Prop :=
  ∀ (s t : State) (k : Corner),
    (∀ r g b, exec (.colaOpq k r g b) s = .next t → (t.ca.get k).onScale ∧ (t.ca.get k).a.toNat = 15) ∧
    (∀ a r g b, exec (.colaTrn k a r g b) s = .next t →
      (t.ca.get k).onScale ∧ (t.ca.get k).a.toNat % 2 = 0 ∧ (t.ca.get k).a.toNat ≤ 14) ∧
    (∀ r g b, exec (.colbOpq k r g b) s = .next t → (t.cb.get k).onScale ∧ (t.cb.get k).a.toNat = 15) ∧
    (∀ a r g b, exec (.colbTrnI k a r g b) s = .next t →
      (t.cb.get k).onScale ∧ (t.cb.get k).a.toNat % 2 = 0 ∧ (t.cb.get k).a.toNat ≤ 14) ∧
    (∀ a r g b, exec (.colbTrnII k a r g b) s = .next t → (t.cb.get k).onScale ∧ (t.cb.get k).a.toNat % 2 = 1)

/-- R127: UNPACK takes both colours from the word of each block: `CA[k]` and `CB[k]` are what the two operations that the
word decodes to leave there. -/
def Obligations.BothColoursFromEveryWord : Prop :=
  ∀ s : State, s.ph = .unpack → ∃ t, phaseStep s = .next t ∧ t.wd = s.wd ∧ ∀ k : Corner,
    (∃ u, exec (decodeColA k (s.wd.get k).col) s = .next u ∧ t.ca.get k = u.ca.get k) ∧
      ∃ u, exec (decodeColB k s.cfg.variant (s.wd.get k).col) s = .next u ∧ t.cb.get k = u.cb.get k

/-! ## Modulation unpacker (41_modulation_unpacker.md) -/

/-- R142: `MOD4.STD` fills the quadrant of block `k` with the weights `code*3`, one less above 3, tag Direct, and changes
nothing else. -/
def Obligations.StandardModulation4 : Prop :=
  ∀ (s : State) (k : Corner) (m : Word32), ∃ t, exec (.mod4Std k m) s = .next t ∧
    s.Unpacked t 4 k (fun tx ty =>
      let v := 3 * field m (2 * (4 * ty + tx) + 1) (2 * (4 * ty + tx))
      some (if 3 < v then v - 1 else v)) .direct

/-- R143: `MOD4.PT` fills the quadrant with `[0, 4, 14, 8][code]`, tag Direct, and changes nothing else. -/
def Obligations.PunchThroughModulation4 : Prop :=
  ∀ (s : State) (k : Corner) (m : Word32), ∃ t, exec (.mod4Pt k m) s = .next t ∧
    s.Unpacked t 4 k (fun tx ty =>
      some ([0, 4, 14, 8].getD (field m (2 * (4 * ty + tx) + 1) (2 * (4 * ty + tx))) 0)) .direct

/-- R145: `MOD2.DIRECT`, the operation of a 2 bpp word whose `col[0]` is 0, fills the quadrant with 3 or 0 by the texel's
bit, tag Direct, and changes nothing else. That `col[0]` is the mode bit and that bit `8*ty + tx` is the texel's are the
spec's own decisions D8 and D10 (log entry 22). -/
def Obligations.DirectModulation2 : Prop :=
  (∀ (k : Corner) (m col : Word32), field col 0 0 = 0 → decodeMod k true ⟨m, col⟩ = .mod2Direct k m) ∧
  ∀ (s : State) (k : Corner) (m : Word32), ∃ t, exec (.mod2Direct k m) s = .next t ∧
    s.Unpacked t 8 k (fun tx ty => some (if field m (8 * ty + tx) (8 * ty + tx) = 1 then 3 else 0)) .direct

/-- R147 to R151: the selectable forms tag every texel of the quadrant, give each stored texel (of even parity) its 2-bit
code in raster order, leave `MV` alone at the others, and change nothing else. Texel (0, 0) takes `mod[1]` as both bits;
in H-only and V-only the centre texel (4, 2) takes `mod[21]` as both bits. The operations run on every `mod`; the codes
are stated for those that encode them. -/
def Obligations.SelectableModulation2 : Prop :=
  ∀ (s : State) (k : Corner) (m : Word32),
    (∃ t, exec (.mod2Hv k m) s = .next t ∧
      (field m 0 0 = 0 → s.Unpacked t 8 k (fun tx ty =>
        if (tx + ty) % 2 = 1 then none
        else if tx = 0 ∧ ty = 0 then some (3 * field m 1 1)
        else some (field m (2 * (4 * ty + tx / 2) + 1) (2 * (4 * ty + tx / 2)))) .hv)) ∧
    (∃ t, exec (.mod2H k m) s = .next t ∧
      (field m 0 0 = 1 → field m 20 20 = 0 → s.Unpacked t 8 k (fun tx ty =>
        if (tx + ty) % 2 = 1 then none
        else if tx = 0 ∧ ty = 0 then some (3 * field m 1 1)
        else if tx = 4 ∧ ty = 2 then some (3 * field m 21 21)
        else some (field m (2 * (4 * ty + tx / 2) + 1) (2 * (4 * ty + tx / 2)))) .hOnly)) ∧
    (∃ t, exec (.mod2V k m) s = .next t ∧
      (field m 0 0 = 1 → field m 20 20 = 1 → s.Unpacked t 8 k (fun tx ty =>
        if (tx + ty) % 2 = 1 then none
        else if tx = 0 ∧ ty = 0 then some (3 * field m 1 1)
        else if tx = 4 ∧ ty = 2 then some (3 * field m 21 21)
        else some (field m (2 * (4 * ty + tx / 2) + 1) (2 * (4 * ty + tx / 2)))) .vOnly))

/-- R152: the codes each format can leave in its quadrant, at every texel that holds one. -/
def Obligations.CodeDomains : Prop :=
  ∀ (s t : State) (k : Corner) (m : Word32) (i : Instr) (w : Nat) (codes : List Nat),
    (i, w, codes) ∈
      [(Instr.mod4Std k m, 4, [0, 3, 5, 8]), (.mod4Pt k m, 4, [0, 4, 8, 14]), (.mod2Direct k m, 8, [0, 3]),
        (.mod2Hv k m, 8, [0, 1, 2, 3]), (.mod2H k m, 8, [0, 1, 2, 3]), (.mod2V k m, 8, [0, 1, 2, 3])] →
    exec i { s with mv := List.replicate 128 none } = .next t →
    ∀ n c : Nat, t.mv[n]? = some (some c) → c ∈ codes

/-! ## Neighbour-averaging resolver (42_neighbor_resolver.md) -/

/-- R170: `RESOLVE.4BPP`, the weight operation of every 4 bpp texel, hands the code of the position to the compositor,
whatever its tag; nothing else changes, whatever the grid holds. -/
def Obligations.StoredWeights4 : Prop :=
  (∀ (sx sy : Nat) (tag : ModTag), decodeResolve sx sy false tag = .resolve4bpp sx sy) ∧
  ∀ (s : State) (sx sy : Nat), ∃ t, exec (.resolve4bpp sx sy) s = .next t ∧ t = { s with weight := t.weight } ∧
    ∀ c, s.HoldsCode sx sy c → t.weight = c

/-- R171, R172: `RESOLVE.STORED`, the operation of a 2 bpp texel that is direct or of even parity, hands the magnitude of
its code to the compositor; nothing else changes, whatever the grid holds. -/
def Obligations.StoredWeights2 : Prop :=
  (∀ (sx sy : Nat) (tag : ModTag), tag = .direct ∨ (sx + sy) % 2 = 0 →
    decodeResolve sx sy true tag = .resolveStored sx sy) ∧
  ∀ (s : State) (sx sy : Nat), ∃ t, exec (.resolveStored sx sy) s = .next t ∧ t = { s with weight := t.weight } ∧
    ∀ c, s.HoldsCode sx sy c → c < 4 → t.weight = repTable c

/-- R173, R174, R175: the averaging forms, which the tag of the texel selects at odd parity, round the mean of the
magnitudes of four, or of two, neighbours; nothing else changes, whatever the grid holds. -/
def Obligations.AveragedWeights : Prop :=
  (∀ sx sy : Nat, (sx + sy) % 2 = 1 →
    decodeResolve sx sy true .hv = .resolveHv sx sy ∧ decodeResolve sx sy true .hOnly = .resolveH sx sy ∧
      decodeResolve sx sy true .vOnly = .resolveV sx sy) ∧
  ∀ (s : State) (sx sy : Nat),
    (∃ t, exec (.resolveHv sx sy) s = .next t ∧ t = { s with weight := t.weight } ∧
      ∀ u d l r, 1 ≤ sx → 1 ≤ sy → s.HoldsCode sx (sy - 1) u → s.HoldsCode sx (sy + 1) d → s.HoldsCode (sx - 1) sy l →
        s.HoldsCode (sx + 1) sy r → u < 4 → d < 4 → l < 4 → r < 4 →
        t.weight = (repTable u + repTable d + repTable l + repTable r + 2) / 4) ∧
    (∃ t, exec (.resolveH sx sy) s = .next t ∧ t = { s with weight := t.weight } ∧
      ∀ l r, 1 ≤ sx → s.HoldsCode (sx - 1) sy l → s.HoldsCode (sx + 1) sy r → l < 4 → r < 4 →
        t.weight = (repTable l + repTable r + 1) / 2) ∧
    (∃ t, exec (.resolveV sx sy) s = .next t ∧ t = { s with weight := t.weight } ∧
      ∀ u d, 1 ≤ sy → s.HoldsCode sx (sy - 1) u → s.HoldsCode sx (sy + 1) d → u < 4 → d < 4 →
        t.weight = (repTable u + repTable d + 1) / 2)

/-- R176: after UNPACK of four words in 2 bpp, at every position the resolver is asked for, the tag is there; the texel's
own code is there when it is direct or stored; and otherwise the four neighbours hold codes of the table. So no read of
the resolver finds `none`. -/
def Obligations.ResolverReadsFindValues : Prop :=
  ∀ (s : State) (c r : Nat), s.Sized → s.ph = .unpack → s.cfg.is2bpp = true → c < 8 → r < 4 →
    ∃ t, phaseStep s = .next t ∧ ∃ tag, t.mm[8 * (c + 4) + (r + 2)]? = some (some tag) ∧
      ((tag = .direct ∨ (c + r) % 2 = 0) → ∃ code, t.HoldsCode (c + 4) (r + 2) code ∧ code < 4) ∧
      ((c + r) % 2 = 1 →
        (∃ code, t.HoldsCode (c + 4) (r + 1) code ∧ code < 4) ∧ (∃ code, t.HoldsCode (c + 4) (r + 3) code ∧ code < 4) ∧
        (∃ code, t.HoldsCode (c + 3) (r + 2) code ∧ code < 4) ∧ ∃ code, t.HoldsCode (c + 5) (r + 2) code ∧ code < 4)

/-- R177, R217: after UNPACK of four words, the weight of every tile texel is at most 8 in 2 bpp and one of 0, 3, 4, 5, 8
and 14 in 4 bpp; so in 2 bpp the blend that follows is always `COMPOSE`. -/
def Obligations.WeightsInRange : Prop :=
  ∀ (s : State) (c r : Nat), s.Sized → s.ph = .unpack → c < (if s.cfg.is2bpp then 8 else 4) → r < 4 →
    ∃ t u, phaseStep s = .next t ∧
      exec (decode (t.fetchSlot (.resolve (c + (if s.cfg.is2bpp then 4 else 2)) (r + 2)))) t = .next u ∧
      (s.cfg.is2bpp = true → u.weight ≤ 8 ∧ ∀ j, decode (u.fetchSlot (.compose j)) = .compose j) ∧
      (s.cfg.is2bpp = false → u.weight ∈ [0, 3, 4, 5, 8, 14])

/-! ## Bilinear interpolator (43_bilinear_interpolator.md) -/

/-- R192, R194: `INTERP.4BPP` fills the 16 entries of the slot's buffer with the narrowed closed form of the accumulator,
channel by channel, and changes nothing else. -/
def Obligations.Interpolation4 : Prop :=
  ∀ (s : State) (slot : ColorSlot), ∃ t, exec (.interp4bpp slot) s = .next t ∧
    let k := match slot with | .a => s.ca | .b => s.cb
    let acc := fun (f : Pixel32 → Byte) (c r : Nat) => accClosed 4 (f k.p) (f k.q) (f k.r) (f k.s) c r
    s.Interpolated t slot 4 fun c r =>
      ⟨BitVec.ofNat 32 (acc (·.r) c r / 64 + acc (·.r) c r / 2), BitVec.ofNat 32 (acc (·.g) c r / 64 + acc (·.g) c r / 2),
        BitVec.ofNat 32 (acc (·.b) c r / 64 + acc (·.b) c r / 2), BitVec.ofNat 32 (acc (·.a) c r / 16 + acc (·.a) c r)⟩

/-- R192, R195: `INTERP.2BPP` fills the 32 entries of the slot's buffer, and changes nothing else. -/
def Obligations.Interpolation2 : Prop :=
  ∀ (s : State) (slot : ColorSlot), ∃ t, exec (.interp2bpp slot) s = .next t ∧
    let k := match slot with | .a => s.ca | .b => s.cb
    let acc := fun (f : Pixel32 → Byte) (c r : Nat) => accClosed 8 (f k.p) (f k.q) (f k.r) (f k.s) c r
    s.Interpolated t slot 8 fun c r =>
      ⟨BitVec.ofNat 32 (acc (·.r) c r / 128 + acc (·.r) c r / 4), BitVec.ofNat 32 (acc (·.g) c r / 128 + acc (·.g) c r / 4),
        BitVec.ofNat 32 (acc (·.b) c r / 128 + acc (·.b) c r / 4), BitVec.ofNat 32 (acc (·.a) c r / 32 + acc (·.a) c r / 2)⟩

/-- R197: INTERP fills both buffers from the eight corner colours: `UA` and `UB` are what the two operations that the
command selects leave there. -/
def Obligations.BothColoursInterpolated : Prop :=
  ∀ s : State, s.ph = .interp → ∃ t u u', phaseStep s = .next t ∧ t.ph = .compose ∧
    exec (decode (s.fetchSlot (.interp .a))) s = .next u ∧ exec (decode (s.fetchSlot (.interp .b))) s = .next u' ∧
    t.ua = u.ua ∧ t.ub = u'.ub ∧ t.ca = s.ca ∧ t.cb = s.cb

/-! ## Block pixel compositor (44_block_compositor.md) -/

/-- R212, R213, R214: the three blends, which the code and the variant select, write one entry of `TILE` and change nothing
else, whatever the buffers hold. Where both colours are there, and for a weight in the range `[0, 8]` of `Blend`, the entry
is the blend of R212 (floor division, bits 7:0), or at `code - 10` with alpha 0; in `COMPOSE.PT.II` it is all zeros. The
floor of a numerator below 0, which a channel below 0 can give, is the model's reading, log entry 25. -/
def Obligations.BlendOperations : Prop :=
  (∀ j code : Nat,
    (code ≤ 10 → ∀ v, decodeCompose j v code = .compose j) ∧
    (10 < code → decodeCompose j .pvrtcI code = .composePtI j ∧ decodeCompose j .pvrtcII code = .composePtII j)) ∧
  ∀ (s : State) (j : Nat),
    (∃ t, exec (.compose j) s = .next t ∧ s.TexelOnly t j ∧
      ∀ a b, j < s.tile.length → s.weight ≤ 8 → s.ua[j]? = some (some a) → s.ub[j]? = some (some b) →
        let ch := fun (x y : BitVec 32) => BitVec.ofInt 8 ((x.toInt * (8 - (s.weight : Int)) + y.toInt * (s.weight : Int)) / 8)
        t.tile[j]? = some (some ⟨ch a.r b.r, ch a.g b.g, ch a.b b.b, ch a.a b.a⟩)) ∧
    (∃ t, exec (.composePtI j) s = .next t ∧ s.TexelOnly t j ∧
      ∀ a b, j < s.tile.length → 10 < s.weight → s.weight ≤ 18 → s.ua[j]? = some (some a) → s.ub[j]? = some (some b) →
        let w : Int := (s.weight : Int) - 10
        let ch := fun (x y : BitVec 32) => BitVec.ofInt 8 ((x.toInt * (8 - w) + y.toInt * w) / 8)
        t.tile[j]? = some (some ⟨ch a.r b.r, ch a.g b.g, ch a.b b.b, 0⟩)) ∧
    (∃ t, exec (.composePtII j) s = .next t ∧ s.TexelOnly t j ∧
      (j < s.tile.length → t.tile[j]? = some (some ⟨0, 0, 0, 0⟩)))

/-- R215: for a weight in `[0, 8]` and colours in `[0, 255]` the narrowing of `COMPOSE` never changes a value: each
channel is the quotient itself. -/
def Obligations.NarrowingIsExact : Prop :=
  ∀ (s t : State) (j : Nat) (a b : Pixel128) (p : Pixel32),
    s.weight ≤ 8 → s.ua[j]? = some (some a) → s.ub[j]? = some (some b) → a.inByte → b.inByte →
      exec (.compose j) s = .next t → t.tile[j]? = some (some p) →
        p.r.toNat = (a.r.toNat * (8 - s.weight) + b.r.toNat * s.weight) / 8 ∧
        p.g.toNat = (a.g.toNat * (8 - s.weight) + b.g.toNat * s.weight) / 8 ∧
        p.b.toNat = (a.b.toNat * (8 - s.weight) + b.b.toNat * s.weight) / 8 ∧
        p.a.toNat = (a.a.toNat * (8 - s.weight) + b.a.toNat * s.weight) / 8

/-! ## Index twiddler (45_index_twiddler.md) -/

/-- R231: `IDX.LINEAR`, the mapping of a PVRTC-II command, gives block `k` the index `y*gw + x`, and changes nothing else,
whatever the grid. -/
def Obligations.LinearIndexOperation : Prop :=
  (∀ (s : State) (k : Corner), s.cfg.variant = .pvrtcII → decode (s.fetchSlot (.index k)) = .idxLinear k) ∧
  ∀ (s : State) (k : Corner), ∃ t, exec (.idxLinear k) s = .next t ∧
    s.IxWritten t k ((s.blk.get k).2 * s.cfg.gw + (s.blk.get k).1)

/-- R232, R233: on a grid of powers of two, `IDX.MORTON` gives block `k` the interleave, bit by bit: below `2n` the low
axis at even and the other axis at odd positions, above it the remaining bits of the longer axis as one block; and it
changes nothing else. -/
def Obligations.MortonIndexOperation : Prop :=
  ∀ (s : State) (k : Corner) (a b : Nat), s.cfg.gw = 2 ^ a → s.cfg.gh = 2 ^ b →
    ∃ t n, exec (.idxMorton k) s = .next t ∧ s.IxWritten t k n ∧
      ∀ m, n.testBit m =
        if m < 2 * min a b then
          (if m % 2 = 0 ↔ s.mortonLow = .y then (s.blk.get k).2 else (s.blk.get k).1).testBit (m / 2)
        else if b < a then (s.blk.get k).1.testBit (m - b)
        else if a < b then (s.blk.get k).2.testBit (m - a)
        else false

/-- On a grid that is not a power of two `IDX.MORTON` stops, by name. The source leaves the order undefined there (R234,
R293: CHECK refuses such a command before any access); the stop is the model's choice, log entry 11. -/
def Obligations.MortonStopsOffPowersOfTwo : Prop :=
  ∀ (s : State) (k : Corner), ¬((∃ a, s.cfg.gw = 2 ^ a) ∧ ∃ b, s.cfg.gh = 2 ^ b) →
    exec (.idxMorton k) s = .fault .mortonNotPow2

/-- R235, R230: for every admitted grid the selected mapping is a bijection from the blocks onto `[0, gw*gh)`. -/
def Obligations.IndexIsBijection : Prop :=
  ∀ (s : State), (s.cfg.variant = .pvrtcI → (∃ a, s.cfg.gw = 2 ^ a) ∧ ∃ b, s.cfg.gh = 2 ^ b) →
    (∀ k, ∃ t, exec (decode (s.fetchSlot (.index k))) s = .next t ∧ t.ix.get k = s.indexOf (s.blk.get k)) ∧
    (∀ x y, x < s.cfg.gw → y < s.cfg.gh → s.indexOf (x, y) < s.cfg.gw * s.cfg.gh) ∧
    (∀ x y x' y', x < s.cfg.gw → y < s.cfg.gh → x' < s.cfg.gw → y' < s.cfg.gh →
      s.indexOf (x, y) = s.indexOf (x', y') → x = x' ∧ y = y') ∧
    ∀ n, n < s.cfg.gw * s.cfg.gh → ∃ x y, x < s.cfg.gw ∧ y < s.cfg.gh ∧ s.indexOf (x, y) = n

/-! ## Commands: how they end (46_block_walker.md, 60_exceptions.md) -/

/-- R291, R292, R290: when a condition of CHECK holds, the command fails with the code of lowest value whose condition
holds: `FAULT` has the code, `RESULT` is 0, `TMP` is gone, `STATUS` is FAILED; host memory, the command record and every
other register are as before, but for the latched configuration and the count of draws. -/
def Obligations.FirstFaultIsReported : Prop :=
  ∀ (s : State) (v : Variant) (is2bpp : Bool) (code : FaultCode), s.busy = false →
    faultCondition v is2bpp s.cmd code → (∀ c, c.value < code.value → ¬faultCondition v is2bpp s.cmd c) →
    ∃ t, exec (commandOf v is2bpp) s = .next t ∧ t.status = .failed ∧
      t = { s with
        cfg := t.cfg, fault := code, result := 0, tmp := none, ph := .failed, seq := 0, draws := t.draws }

/-- R294: an admitted command that needs `TMP` and whose draw `ALLOC_OK` is false fails with `F_ALLOC`; `OUT` and every
other byte of host memory are as before. The draw is the environment's next one where it has supplied one. -/
def Obligations.FailedAllocationIsReported : Prop :=
  ∀ (s : State) (v : Variant) (is2bpp : Bool), s.busy = false → admitted v is2bpp s.cmd → recPad is2bpp s.cmd →
    s.drawOf = false →
    ∃ t, exec (commandOf v is2bpp) s = .next t ∧ t.status = .failed ∧ t.allocGiven = s.allocGiven.tail ∧
      t = { s with
        cfg := t.cfg, fault := .alloc, result := 0, tmp := none, ph := .failed, seq := 0, draws := t.draws
        allocGiven := t.allocGiven }

/-- R280 to R283, R250, R263, R264, R266: an admitted command whose draw, if it needs one, is true ends in DONE with
`RESULT = 8*gw*gh` and `FAULT = NONE`; byte `i` of pixel `(x, y)` of `OUT` is that of the closed form; every byte of host
memory outside `[0, WIDTH*HEIGHT*4)` of `OUT` is as before; a command without padding takes no draw; and outside the
working registers nothing else changes. -/
def Obligations.AdmittedCommandCompletes : Prop :=
  ∀ (s : State), s.busy = false → Memory.wf s.mem = true →
    let completes := fun (i : Instr) (v : Variant) (is2bpp : Bool) =>
      admitted v is2bpp s.cmd → (recPad is2bpp s.cmd → s.drawOf = true) →
      ∃ t, exec i s = .next t ∧ t.status = .done ∧
        t = { s with
          cfg := t.cfg, bX := t.bX, bY := t.bY, blk := t.blk, wd := t.wd, ca := t.ca, cb := t.cb, mv := t.mv, mm := t.mm
          ua := t.ua, ub := t.ub, tile := t.tile, ix := t.ix, weight := t.weight, mem := t.mem, tmp := t.tmp
          draws := t.draws, allocGiven := t.allocGiven
          result := BitVec.ofNat 32 (8 * recGw is2bpp s.cmd.width * recGh s.cmd.height)
          fault := .none, ph := .done, seq := 0 } ∧
        (s.tmp = none → t.tmp = none) ∧
        (recPad is2bpp s.cmd → t.allocGiven = s.allocGiven.tail) ∧
        (¬recPad is2bpp s.cmd → t.allocGiven = s.allocGiven) ∧
        (∀ x y n, x < s.cmd.width.toNat → y < s.cmd.height.toNat → n < 4 →
          Memory.read t.mem (s.cmd.outSp.base + (4 * (y * s.cmd.width.toNat + x) + n)) =
            storedByte s.pixelOrder ((s.configured v is2bpp).closedPixel x y) n) ∧
        ∀ a, ¬inOut s.cmd a → Memory.read t.mem a = Memory.read s.mem a
    completes .decompI4bpp .pvrtcI false ∧ completes .decompI2bpp .pvrtcI true ∧
      completes .decompII4bpp .pvrtcII false ∧ completes .decompII2bpp .pvrtcII true

/-- R295: from every state that is not busy, with canonical memory, every command ends in DONE or FAILED; it neither
stops nor leaves the core busy. -/
def Obligations.CommandAlwaysEnds : Prop :=
  ∀ (s : State) (v : Variant) (is2bpp : Bool), s.busy = false → Memory.wf s.mem = true →
    ∃ t, exec (commandOf v is2bpp) s = .next t ∧ (t.status = .done ∨ t.status = .failed) ∧
      (t.status = .done ↔ t.fault = .none)

/-- A START while the core is busy has no behaviour: R324 forbids it, and R302 says the model gives the host no such
move. The refusal by name is the model's choice, log entry 12. -/
def Obligations.CommandWhileBusyIsRefused : Prop :=
  ∀ (s : State) (i : Instr), i ∈ [Instr.decompI4bpp, .decompI2bpp, .decompII4bpp, .decompII2bpp] → s.busy = true →
    exec i s = .refused .startWhileBusy

/-- R265, R267, R237: the end state of a command is a function of the record, of the overlap, of the first `8*gw*gh` bytes
of `IN`, of the two parameters and, when padded, of the draw: two states that agree on these, wherever their spaces lie
and whatever else they hold (`STRAT` among it), give the same `STATUS`, `FAULT` and `RESULT`, and on DONE the same bytes
of `OUT`. -/
def Obligations.EndStateIsDetermined : Prop :=
  ∀ (s s' t t' : State) (v : Variant) (is2bpp : Bool),
    s.busy = false → s'.busy = false → Memory.wf s.mem = true → Memory.wf s'.mem = true →
    s'.pixelOrder = s.pixelOrder → s'.mortonLow = s.mortonLow →
    s'.cmd.width = s.cmd.width → s'.cmd.height = s.cmd.height →
    s'.cmd.inSp.len = s.cmd.inSp.len → s'.cmd.outSp.len = s.cmd.outSp.len →
    (faultCondition v is2bpp s'.cmd .overlap ↔ faultCondition v is2bpp s.cmd .overlap) →
    (∀ o, o < 8 * recGw is2bpp s.cmd.width * recGh s.cmd.height →
      Memory.read s'.mem (s'.cmd.inSp.base + o) = Memory.read s.mem (s.cmd.inSp.base + o)) →
    (recPad is2bpp s.cmd → s'.drawOf = s.drawOf) →
    exec (commandOf v is2bpp) s = .next t → exec (commandOf v is2bpp) s' = .next t' →
    t'.status = t.status ∧ t'.fault = t.fault ∧ t'.result = t.result ∧
      (t.status = .done → ∀ o, o < s.cmd.width.toNat * s.cmd.height.toNat * 4 →
        Memory.read t'.mem (s'.cmd.outSp.base + o) = Memory.read t.mem (s.cmd.outSp.base + o))

/-- R260: over the walk of an admitted command every pixel of the padded raster is the target of exactly one entry of
exactly one tile, and no entry's target lies outside the raster. -/
def Obligations.EveryPixelWrittenOnce : Prop :=
  ∀ c : Latched, checkCommand (configure c) = .none → c = checkedCfg c →
    (∀ i j e, i < c.gw → j < c.gh → e < 4 * c.blockW →
      (scatterPos c ((i : Int) - 1) ((j : Int) - 1) e).1 < c.wt ∧ (scatterPos c ((i : Int) - 1) ((j : Int) - 1) e).2 < c.ht) ∧
    ∀ x y, x < c.wt → y < c.ht →
      ∃ i j e, (i < c.gw ∧ j < c.gh ∧ e < 4 * c.blockW ∧ scatterPos c ((i : Int) - 1) ((j : Int) - 1) e = (x, y)) ∧
        ∀ i' j' e', i' < c.gw → j' < c.gh → e' < 4 * c.blockW →
          scatterPos c ((i' : Int) - 1) ((j' : Int) - 1) e' = (x, y) → i' = i ∧ j' = j ∧ e' = e

/-! ## The rows of R258's table -/

/-- R258, R254: the phase that follows each phase and the condition on which it does, with the walker position, and the end
of the command. CHECK fails exactly when a test of R291 raises a code, and with that code; ALLOC fails exactly when the draw
`ALLOC_OK` is false. -/
def Obligations.PhaseTransitions : Prop :=
  ∀ s : State, s.Inv → ∃ t, phaseStep s = .next t ∧
    match s.ph with
    | .idle | .done | .failed => t = s
    | .check =>
      t.cfg = checkedCfg s.cfg ∧
        (checkCommand (configure s.cfg) ≠ .none →
          t.ph = .failed ∧ t.fault = checkCommand (configure s.cfg) ∧ t.result = 0 ∧ t.tmp = none) ∧
        (checkCommand (configure s.cfg) = .none →
          if (configure s.cfg).pad then t.ph = .alloc else t.ph = .fetch ∧ t.bX = -1 ∧ t.bY = -1)
    | .alloc =>
      (s.drawAlloc.1 = false → t.ph = .failed ∧ t.fault = .alloc ∧ t.result = 0 ∧ t.tmp = none) ∧
        (s.drawAlloc.1 = true →
          t.ph = .fetch ∧ t.tmp = some ⟨s.cfg.wt * s.cfg.ht * 4, []⟩ ∧ t.bX = -1 ∧ t.bY = -1)
    | .fetch => t.ph = .unpack ∧ t.bX = s.bX ∧ t.bY = s.bY
    | .unpack => t.ph = .interp ∧ t.bX = s.bX ∧ t.bY = s.bY
    | .interp => t.ph = .compose ∧ t.bX = s.bX ∧ t.bY = s.bY
    | .compose => t.ph = .scatter ∧ t.bX = s.bX ∧ t.bY = s.bY
    | .scatter =>
      if s.bX < (s.cfg.gw : Int) - 2 then t.ph = .fetch ∧ t.bX = s.bX + 1 ∧ t.bY = s.bY
      else if s.bY < (s.cfg.gh : Int) - 2 then t.ph = .fetch ∧ t.bX = -1 ∧ t.bY = s.bY + 1
      else if s.cfg.pad then t.ph = .copyback
      else t.ph = .done ∧ t.fault = .none ∧ t.result.toNat = 8 * s.cfg.gw * s.cfg.gh
    | .copyback => t.ph = .done ∧ t.fault = .none ∧ t.tmp = none ∧ t.result.toNat = 8 * s.cfg.gw * s.cfg.gh

/-- R251: CHECK sets the block configuration of the command's bit depth, whether or not the command is admitted. -/
def Obligations.BlockConfiguration : Prop :=
  ∀ s : State, s.ph = .check → ∃ t, phaseStep s = .next t ∧
    (s.cfg.is2bpp = true → t.cfg.bpp = 2 ∧ t.cfg.blockW = 8 ∧ t.cfg.minW = 16) ∧
    (s.cfg.is2bpp = false → t.cfg.bpp = 4 ∧ t.cfg.blockW = 4 ∧ t.cfg.minW = 8) ∧
    t.cfg.blockH = 4 ∧ t.cfg.minH = 8

/-- R256: FETCH leaves the coordinates of the tile's four blocks, wrapped on each axis. -/
def Obligations.BlockIndicesOfATile : Prop :=
  ∀ s : State, s.Inv → s.ph = .fetch → ∃ t, phaseStep s = .next t ∧
    t.blk.p = ((s.bX % (s.cfg.gw : Int)).toNat, (s.bY % (s.cfg.gh : Int)).toNat) ∧
    t.blk.q = (((s.bX + 1) % (s.cfg.gw : Int)).toNat, (s.bY % (s.cfg.gh : Int)).toNat) ∧
    t.blk.r = ((s.bX % (s.cfg.gw : Int)).toNat, ((s.bY + 1) % (s.cfg.gh : Int)).toNat) ∧
    t.blk.s = (((s.bX + 1) % (s.cfg.gw : Int)).toNat, ((s.bY + 1) % (s.cfg.gh : Int)).toNat)

/-- R257, R63, R64: FETCH leaves, for each of the four blocks, the word at bytes `8k .. 8k+7` of `IN` of its storage index
`k`, little-endian, `mod` first. -/
def Obligations.FetchReadsFourWords : Prop :=
  ∀ s : State, s.Inv → s.ph = .fetch → ∃ t, phaseStep s = .next t ∧ ∀ k : Corner,
    let byte := fun n => (Memory.read s.mem (s.cfg.inSp.base + 8 * s.indexOf (t.blk.get k) + n)).toNat
    (t.wd.get k).mod.toNat = byte 0 + 2 ^ 8 * byte 1 + 2 ^ 16 * byte 2 + 2 ^ 24 * byte 3 ∧
      (t.wd.get k).col.toNat = byte 4 + 2 ^ 8 * byte 5 + 2 ^ 16 * byte 6 + 2 ^ 24 * byte 7

/-- R259, R65, R261: SCATTER writes each pixel of the tile at its place in the target raster, four bytes in the order
`PIXEL_ORDER` gives; every other byte of that raster is as before, the other of `OUT` and `TMP` too, and of the registers
only those that say where the command goes on (and how it ends) differ. -/
def Obligations.ScatterPlacesEveryTexel : Prop :=
  ∀ s : State, s.Inv → s.ph = .scatter → ∃ t, phaseStep s = .next t ∧
    t = { s with
      mem := t.mem, tmp := t.tmp, ph := t.ph, seq := 0, bX := t.bX, bY := t.bY, result := t.result, fault := t.fault } ∧
    (∀ c r n p, c < s.cfg.blockW → r < 4 → n < 4 → s.tile[r * s.cfg.blockW + c]? = some (some p) →
      let x := ((s.bX * s.cfg.blockW + (s.cfg.blockW / 2 : Nat) + c) % (s.cfg.wt : Int)).toNat
      let y := ((s.bY * 4 + 2 + r) % (s.cfg.ht : Int)).toNat
      t.targetByte (4 * (y * s.cfg.wt + x) + n) = storedByte s.pixelOrder p n) ∧
    (∀ o,
      (∀ e n, e < 4 * s.cfg.blockW → n < 4 →
        o ≠ 4 * ((scatterPos s.cfg s.bX s.bY e).2 * s.cfg.wt + (scatterPos s.cfg s.bX s.bY e).1) + n) →
      t.targetByte o = s.targetByte o) ∧
    (s.cfg.pad = true → t.mem = s.mem) ∧
    (s.cfg.pad = false → t.tmp = s.tmp ∧ ∀ a, a < s.cfg.outSp.base → Memory.read t.mem a = Memory.read s.mem a)

/-- R262, R263, R264: COPYBACK copies the top-left `WIDTH × HEIGHT` pixels of `TMP` into `OUT` byte by byte, releases
`TMP`, and the command is DONE; every other byte of host memory is as before. -/
def Obligations.CopyBackCropsTheRaster : Prop :=
  ∀ (s : State) (r : TmpRaster), s.Inv → s.ph = .copyback → s.tmp = some r → ∃ t, phaseStep s = .next t ∧
    t.ph = .done ∧ t.tmp = none ∧
    (∀ x y n, x < s.cfg.width.toNat → y < s.cfg.height.toNat → n < 4 →
      Memory.read t.mem (s.cfg.outSp.base + (4 * (y * s.cfg.width.toNat + x) + n)) = r.read (4 * (y * s.cfg.wt + x) + n)) ∧
    ∀ a, ¬(s.cfg.outSp.base ≤ a ∧ a < s.cfg.outSp.base + s.cfg.width.toNat * s.cfg.height.toNat * 4) →
      Memory.read t.mem a = Memory.read s.mem a

/-- R321, R46: what the working registers held before a tile is never seen. Two cores at the beginning of the same tile of
the same command, with the same memory, have the same tile after FETCH, UNPACK, INTERP and COMPOSE. -/
def Obligations.TileIgnoresLeftovers : Prop :=
  ∀ s s' : State, s.Inv → s'.Inv → s.ph = .fetch → s'.ph = .fetch → s'.cfg = s.cfg → s'.bX = s.bX → s'.bY = s.bY →
    s'.mem = s.mem → s'.mortonLow = s.mortonLow → s.granularity = .phase → s'.granularity = .phase →
    s.hostQ = [] → s'.hostQ = [] →
    ∃ t t', runSteps 4 s = .next t ∧ runSteps 4 s' = .next t' ∧ t.ph = .scatter ∧ t'.ph = .scatter ∧
      ∀ e, e < 4 * s.cfg.blockW → ∃ p, t.tile[e]? = some (some p) ∧ t'.tile[e]? = some (some p)

/-- R330, R258: taken row by row, a command reaches the same end state as in one step, after exactly the number of steps
of R330, and is busy until then. -/
def Obligations.RowByRowIsTheCommand : Prop :=
  ∀ (s t : State) (v : Variant) (is2bpp : Bool), s.busy = false → Memory.wf s.mem = true → s.granularity = .phase →
    s.hostQ = [] → exec (commandOf v is2bpp) s = .next t →
    let n := if t.fault = .none then stepsOf t.cfg else if t.fault = .alloc then 2 else 1
    runSteps n (s.start v is2bpp) = .next t ∧ ∀ m, m < n → ∃ u, runSteps m (s.start v is2bpp) = .next u ∧ u.busy = true

/-- R258, R328: taken operation by operation, a phase reaches the same state as in one step: FETCH in 6 steps, UNPACK in
13, INTERP in 2, COMPOSE in two for each texel, the others in one. -/
def Obligations.OperationsMakeThePhase : Prop :=
  ∀ (s t : State), s.Inv → s.busy = true → s.granularity = .operation → s.hostQ = [] → s.seq = 0 →
    phaseStep s = .next t →
    runSteps (match s.ph with
      | .fetch => 6
      | .unpack => 13
      | .interp => 2
      | .compose => 8 * s.cfg.blockW
      | _ => 1) s = .next t

/-! ## The machine: steps, host, reset, invariants -/

/-- A step runs the decoded instruction. A START at command granularity executes the command the record selects, decoded
from `CMDSEL`; a busy core at operation granularity whose next piece is an operation decodes it, executes it and goes on
to the next piece. -/
def Obligations.StepRunsTheDecodedInstruction : Prop :=
  (∀ (s : State) (rest : List HostAction), s.hostQ = .start :: rest → s.busy = false → s.granularity = .command →
    decode s.fetchCommand = commandOf s.cmd.variant s.cmd.is2bpp ∧
      step s = exec (decode s.fetchCommand) { s with hostQ := rest }) ∧
  ∀ (s : State) (f : Fetched), s.busy = true → s.granularity = .operation →
    (∀ a rest, s.hostQ = a :: rest → a.anyTime = false) → s.nextOp = some f →
      step s = andThen (exec (decode f) s) fun t => .next t.advance

/-- R322, R34: at phase and operation granularity START latches the six fields of the record, sets `FAULT = NONE` and
enters CHECK, so `STATUS` is BUSY; `RESULT` is a free value, and nothing else changes but the count of draws. -/
def Obligations.StartLatchesTheRecord : Prop :=
  ∀ (s : State) (rest : List HostAction), s.hostQ = .start :: rest → s.busy = false → s.granularity ≠ .command →
    ∃ t, step s = .next t ∧ t.status = .busy ∧
      t = { s with
        hostQ := rest, fault := .none, ph := .check, seq := 0, result := t.result, draws := t.draws
        cfg := { s.cfg with
          variant := s.cmd.variant, is2bpp := s.cmd.is2bpp, width := s.cmd.width, height := s.cmd.height
          inSp := s.cmd.inSp, outSp := s.cmd.outSp } }

/-- R33, R80: what a host that may write the record changes by each write, and that nothing else changes. -/
def Obligations.HostWritesTheRecord : Prop :=
  ∀ (s : State) (a : HostAction) (rest : List HostAction), s.hostQ = a :: rest → s.busy = false →
    let q := { s with hostQ := rest }
    match a with
    | .setVariant v => step s = .next { q with cmd := { s.cmd with variant := v } }
    | .setIs2bpp b => step s = .next { q with cmd := { s.cmd with is2bpp := b } }
    | .setWidth w => step s = .next { q with cmd := { s.cmd with width := w } }
    | .setHeight h => step s = .next { q with cmd := { s.cmd with height := h } }
    | .supplyIn sp => step s = .next { q with cmd := { s.cmd with inSp := sp } }
    | .supplyOut sp => step s = .next { q with cmd := { s.cmd with outSp := sp } }
    | .storeByte x b =>
      ∃ t, step s = .next t ∧ t = { q with mem := t.mem } ∧
        (Memory.wf s.mem = true → Memory.read t.mem x = b) ∧
        ∀ y, y ≠ x → Memory.read t.mem y = Memory.read s.mem y
    | .selectStrat n => step s = .next { q with strat := .selected n }
    | .start | .reset => True

/-- R323, R324, R302: while the core is busy the host's next move waits, unless it is the variant selection or a reset,
and the core goes on as if no move were there. -/
def Obligations.HostWaitsWhileBusy : Prop :=
  ∀ (s : State) (a : HostAction) (rest : List HostAction), s.hostQ = a :: rest → s.busy = true →
    (∀ n, a ≠ .selectStrat n) → a ≠ .reset → step s = busyStep s

/-- R80, R70, R323: a step of a busy core changes no byte of host memory outside `[0, WIDTH*HEIGHT*4)` of the latched
`OUT`; so it changes no byte of `[0, 8*gw*gh)` of `IN`. Host memory changes in SCATTER and COPYBACK only, and `TMP` in these
and in ALLOC only (R258). -/
def Obligations.StoresOnlyInsideOut : Prop :=
  ∀ (s t : State), s.Inv → s.busy = true → s.hostQ = [] → step s = .next t →
    (∀ a, ¬(s.cfg.outSp.base ≤ a ∧ a < s.cfg.outSp.base + s.cfg.width.toNat * s.cfg.height.toNat * 4) →
      Memory.read t.mem a = Memory.read s.mem a) ∧
    (s.ph.admittedWork = true → ∀ a, s.cfg.inSp.base ≤ a → a < s.cfg.inSp.base + 8 * s.cfg.gw * s.cfg.gh →
      Memory.read t.mem a = Memory.read s.mem a) ∧
    (s.ph ≠ .scatter → s.ph ≠ .copyback → t.mem = s.mem ∧ (s.ph ≠ .alloc → t.tmp = s.tmp))

/-- R307, R264, R299: a core that is not busy keeps its whole state when the host makes no move; and no move of the host
but START and reset changes `STATUS`, `FAULT` or `RESULT`. -/
def Obligations.RestingCoreKeepsItsState : Prop :=
  ∀ s : State, s.busy = false →
    (s.hostQ = [] → step s = .next s) ∧
    ∀ a rest, s.hostQ = a :: rest → a ≠ .start → a ≠ .reset →
      ∃ t, step s = .next t ∧ t.status = s.status ∧ t.fault = s.fault ∧ t.result = s.result

/-- R45, R320: the values of the reset state that the spec gives. (What R45 leaves unspecified holds zeros, which no
statement states: log entry 1.) -/
def Obligations.ResetValues : Prop :=
  State.reset.ph = .idle ∧ State.reset.status = .idle ∧ State.reset.fault = .none ∧
    State.reset.mv = List.replicate (16 * 8) none ∧ State.reset.mm = List.replicate (16 * 8) none ∧
    State.reset.ua = List.replicate 32 none ∧ State.reset.ub = List.replicate 32 none ∧
    State.reset.tile = List.replicate 32 none ∧ State.reset.tmp = none ∧ State.reset.strat = .notSelected

/-- R320: a reset leaves the core idle with no command in progress and no `TMP`. That the host may reset a busy core, and
that its memory and its moves to come stay, is the model's reading, log entry 19: R320 does not say when a reset may come
nor what stays. -/
def Obligations.ResetEndsTheCommand : Prop :=
  ∀ (s : State) (rest : List HostAction), s.hostQ = .reset :: rest →
    ∃ t, step s = .next t ∧ t.ph = .idle ∧ t.fault = .none ∧ t.tmp = none ∧ t.strat = .notSelected ∧
      t.mv = List.replicate 128 none ∧ t.mm = List.replicate 128 none ∧ t.ua = List.replicate 32 none ∧
      t.ub = List.replicate 32 none ∧ t.tile = List.replicate 32 none ∧ t.mem = s.mem ∧ t.hostQ = rest

/-- The reset state meets the invariant of Safety.lean and has its registers in range. `CA` and `CB`, which R45 leaves
unspecified, are in range because the model resets them to zero, log entry 1. -/
def Obligations.ResetMeetsInvariant : Prop := State.reset.Inv ∧ State.reset.Ranges

/-- Every step keeps the invariant: memory and `TMP` canonical, `TMP` present exactly where R42 says, the configuration
that of an admitted command while the command runs (R34), the walker and the blocks in their ranges (R35, R36). -/
def Obligations.StepKeepsInvariant : Prop := ∀ s t : State, s.Inv → step s = .next t → t.Inv

/-- R295: no state that meets the invariant stops: every step goes on, with no fault and no refusal. -/
def Obligations.InvariantStatesNeverStop : Prop := ∀ s : State, s.Inv → ∃ t, step s = .next t

/-- Every step keeps the working registers in the ranges the spec gives them: corner colours (R38, R126), codes (R39),
interpolated channels (R196). -/
def Obligations.StepKeepsRegisterRanges : Prop := ∀ s t : State, s.Ranges → step s = .next t → t.Ranges
end

