-- ==== Sys2Proof/Laws/Decode.lean ====
section
/-! SUPPORT. The decoder: the selector, and what each selection of R101 can name. -/

namespace Sys2Proof

@[simp] theorem selVariant_cmdSel (v : Variant) (b : Bool) : selVariant (cmdSel v b) = v := by
  cases v <;> cases b <;> rfl

@[simp] theorem sel2bpp_cmdSel (v : Variant) (b : Bool) : sel2bpp (cmdSel v b) = b := by
  cases v <;> cases b <;> rfl

@[simp] theorem wordOf64_word64 (w : CWord) : wordOf64 (word64 w) = w := by
  obtain ⟨m, c⟩ := w
  have h1 := BitVec.extractLsb'_append_eq_of_add_le (v := 32) (w := 32) (xhi := c) (xlo := m) (start := 0) (len := 32) (by omega)
  have h2 := BitVec.extractLsb'_append_eq_of_le (v := 32) (w := 32) (xhi := c) (xlo := m) (start := 32) (len := 32) (by omega)
  simp only [wordOf64, word64, CWord.mk.injEq]
  exact ⟨h1.trans (by simp), h2.trans (by simp)⟩

/-- The operations that are neither a command nor an index mapping: they write working registers and nothing else. -/
def Instr.inTile : Instr → Bool
  | .decompI4bpp | .decompI2bpp | .decompII4bpp | .decompII2bpp | .idxMorton _ | .idxLinear _ => false
  | .interp4bpp _ | .interp2bpp _ | .colaOpq .. | .colaTrn .. | .colbOpq .. | .colbTrnI .. | .colbTrnII .. => true
  | .mod4Std .. | .mod4Pt .. | .mod2Direct .. | .mod2Hv .. | .mod2H .. | .mod2V .. => true
  | .resolve4bpp .. | .resolveStored .. | .resolveHv .. | .resolveH .. | .resolveV .. => true
  | .compose _ | .composePtI _ | .composePtII _ => true

theorem decodeColA_inTile (k : Corner) (col : Word32) : (decodeColA k col).inTile = true := by
  unfold decodeColA
  split <;> rfl

theorem decodeColB_inTile (k : Corner) (v : Variant) (col : Word32) : (decodeColB k v col).inTile = true := by
  unfold decodeColB
  split
  · rfl
  · cases v <;> rfl

theorem decodeMod_inTile (k : Corner) (b : Bool) (w : CWord) : (decodeMod k b w).inTile = true := by
  unfold decodeMod
  repeat' split
  all_goals rfl

theorem decodeResolve_inTile (sx sy : Nat) (b : Bool) (t : ModTag) : (decodeResolve sx sy b t).inTile = true := by
  unfold decodeResolve
  repeat' split
  all_goals rfl

theorem decodeCompose_inTile (j : Nat) (v : Variant) (code : Nat) : (decodeCompose j v code).inTile = true := by
  unfold decodeCompose
  split
  · rfl
  · cases v <;> rfl

/-- Only the selections of R101 item 1 other than the interpolation name a command or an index mapping. -/
theorem decode_inTile (f : Fetched) (h : f.slot ≠ .command) (h' : ∀ k, f.slot ≠ .index k) : (decode f).inTile = true := by
  unfold decode
  split
  · exact absurd ‹_› h
  · exact absurd ‹_› (h' _)
  · split <;> rfl
  · exact decodeColA_inTile _ _
  · exact decodeColB_inTile _ _ _
  · exact decodeMod_inTile _ _ _
  · exact decodeResolve_inTile _ _ _ _
  · exact decodeCompose_inTile _ _ _

/-! ## What a selection can name, written out -/

theorem decodeColA_cases (k : Corner) (col : Word32) :
    (opaqueA col = true ∧ decodeColA k col = .colaOpq k (col.extractLsb' 10 5) (col.extractLsb' 5 5) (col.extractLsb' 1 4)) ∨
      (opaqueA col = false ∧ decodeColA k col =
        .colaTrn k (col.extractLsb' 12 3) (col.extractLsb' 8 4) (col.extractLsb' 4 4) (col.extractLsb' 1 3)) := by
  unfold decodeColA
  cases opaqueA col <;> simp

theorem decodeMod_cases (k : Corner) (b : Bool) (w : CWord) :
    decodeMod k b w = .mod4Std k w.mod ∨ decodeMod k b w = .mod4Pt k w.mod ∨ decodeMod k b w = .mod2Direct k w.mod ∨
      decodeMod k b w = .mod2Hv k w.mod ∨ decodeMod k b w = .mod2H k w.mod ∨ decodeMod k b w = .mod2V k w.mod := by
  unfold decodeMod
  repeat' split
  all_goals simp

end Sys2Proof
end

