-- ==== Sys2Proof/Laws/State.lean ====
section
/-! SUPPORT. One lemma for each field and each named update of the state: what the field is after it. -/

namespace Sys2Proof.Machine

variable (s : State)

/-! ## `setCa` -/

@[simp] theorem State.setCa_pixelOrder (k : Corner) (v : Pixel32) : (s.setCa k v).pixelOrder = s.pixelOrder := rfl
@[simp] theorem State.setCa_mortonLow (k : Corner) (v : Pixel32) : (s.setCa k v).mortonLow = s.mortonLow := rfl
@[simp] theorem State.setCa_cmd (k : Corner) (v : Pixel32) : (s.setCa k v).cmd = s.cmd := rfl
@[simp] theorem State.setCa_fault (k : Corner) (v : Pixel32) : (s.setCa k v).fault = s.fault := rfl
@[simp] theorem State.setCa_result (k : Corner) (v : Pixel32) : (s.setCa k v).result = s.result := rfl
@[simp] theorem State.setCa_ph (k : Corner) (v : Pixel32) : (s.setCa k v).ph = s.ph := rfl
@[simp] theorem State.setCa_cfg (k : Corner) (v : Pixel32) : (s.setCa k v).cfg = s.cfg := rfl
@[simp] theorem State.setCa_bX (k : Corner) (v : Pixel32) : (s.setCa k v).bX = s.bX := rfl
@[simp] theorem State.setCa_bY (k : Corner) (v : Pixel32) : (s.setCa k v).bY = s.bY := rfl
@[simp] theorem State.setCa_blk (k : Corner) (v : Pixel32) : (s.setCa k v).blk = s.blk := rfl
@[simp] theorem State.setCa_wd (k : Corner) (v : Pixel32) : (s.setCa k v).wd = s.wd := rfl
@[simp] theorem State.setCa_ca (k : Corner) (v : Pixel32) : (s.setCa k v).ca = s.ca.set k v := rfl
@[simp] theorem State.setCa_cb (k : Corner) (v : Pixel32) : (s.setCa k v).cb = s.cb := rfl
@[simp] theorem State.setCa_mv (k : Corner) (v : Pixel32) : (s.setCa k v).mv = s.mv := rfl
@[simp] theorem State.setCa_mm (k : Corner) (v : Pixel32) : (s.setCa k v).mm = s.mm := rfl
@[simp] theorem State.setCa_ua (k : Corner) (v : Pixel32) : (s.setCa k v).ua = s.ua := rfl
@[simp] theorem State.setCa_ub (k : Corner) (v : Pixel32) : (s.setCa k v).ub = s.ub := rfl
@[simp] theorem State.setCa_tile (k : Corner) (v : Pixel32) : (s.setCa k v).tile = s.tile := rfl
@[simp] theorem State.setCa_tmp (k : Corner) (v : Pixel32) : (s.setCa k v).tmp = s.tmp := rfl
@[simp] theorem State.setCa_strat (k : Corner) (v : Pixel32) : (s.setCa k v).strat = s.strat := rfl
@[simp] theorem State.setCa_mem (k : Corner) (v : Pixel32) : (s.setCa k v).mem = s.mem := rfl
@[simp] theorem State.setCa_seq (k : Corner) (v : Pixel32) : (s.setCa k v).seq = s.seq := rfl
@[simp] theorem State.setCa_ix (k : Corner) (v : Pixel32) : (s.setCa k v).ix = s.ix := rfl
@[simp] theorem State.setCa_weight (k : Corner) (v : Pixel32) : (s.setCa k v).weight = s.weight := rfl
@[simp] theorem State.setCa_hostQ (k : Corner) (v : Pixel32) : (s.setCa k v).hostQ = s.hostQ := rfl
@[simp] theorem State.setCa_granularity (k : Corner) (v : Pixel32) : (s.setCa k v).granularity = s.granularity := rfl
@[simp] theorem State.setCa_allocGiven (k : Corner) (v : Pixel32) : (s.setCa k v).allocGiven = s.allocGiven := rfl
@[simp] theorem State.setCa_draws (k : Corner) (v : Pixel32) : (s.setCa k v).draws = s.draws := rfl

/-! ## `setCb` -/

@[simp] theorem State.setCb_pixelOrder (k : Corner) (v : Pixel32) : (s.setCb k v).pixelOrder = s.pixelOrder := rfl
@[simp] theorem State.setCb_mortonLow (k : Corner) (v : Pixel32) : (s.setCb k v).mortonLow = s.mortonLow := rfl
@[simp] theorem State.setCb_cmd (k : Corner) (v : Pixel32) : (s.setCb k v).cmd = s.cmd := rfl
@[simp] theorem State.setCb_fault (k : Corner) (v : Pixel32) : (s.setCb k v).fault = s.fault := rfl
@[simp] theorem State.setCb_result (k : Corner) (v : Pixel32) : (s.setCb k v).result = s.result := rfl
@[simp] theorem State.setCb_ph (k : Corner) (v : Pixel32) : (s.setCb k v).ph = s.ph := rfl
@[simp] theorem State.setCb_cfg (k : Corner) (v : Pixel32) : (s.setCb k v).cfg = s.cfg := rfl
@[simp] theorem State.setCb_bX (k : Corner) (v : Pixel32) : (s.setCb k v).bX = s.bX := rfl
@[simp] theorem State.setCb_bY (k : Corner) (v : Pixel32) : (s.setCb k v).bY = s.bY := rfl
@[simp] theorem State.setCb_blk (k : Corner) (v : Pixel32) : (s.setCb k v).blk = s.blk := rfl
@[simp] theorem State.setCb_wd (k : Corner) (v : Pixel32) : (s.setCb k v).wd = s.wd := rfl
@[simp] theorem State.setCb_ca (k : Corner) (v : Pixel32) : (s.setCb k v).ca = s.ca := rfl
@[simp] theorem State.setCb_cb (k : Corner) (v : Pixel32) : (s.setCb k v).cb = s.cb.set k v := rfl
@[simp] theorem State.setCb_mv (k : Corner) (v : Pixel32) : (s.setCb k v).mv = s.mv := rfl
@[simp] theorem State.setCb_mm (k : Corner) (v : Pixel32) : (s.setCb k v).mm = s.mm := rfl
@[simp] theorem State.setCb_ua (k : Corner) (v : Pixel32) : (s.setCb k v).ua = s.ua := rfl
@[simp] theorem State.setCb_ub (k : Corner) (v : Pixel32) : (s.setCb k v).ub = s.ub := rfl
@[simp] theorem State.setCb_tile (k : Corner) (v : Pixel32) : (s.setCb k v).tile = s.tile := rfl
@[simp] theorem State.setCb_tmp (k : Corner) (v : Pixel32) : (s.setCb k v).tmp = s.tmp := rfl
@[simp] theorem State.setCb_strat (k : Corner) (v : Pixel32) : (s.setCb k v).strat = s.strat := rfl
@[simp] theorem State.setCb_mem (k : Corner) (v : Pixel32) : (s.setCb k v).mem = s.mem := rfl
@[simp] theorem State.setCb_seq (k : Corner) (v : Pixel32) : (s.setCb k v).seq = s.seq := rfl
@[simp] theorem State.setCb_ix (k : Corner) (v : Pixel32) : (s.setCb k v).ix = s.ix := rfl
@[simp] theorem State.setCb_weight (k : Corner) (v : Pixel32) : (s.setCb k v).weight = s.weight := rfl
@[simp] theorem State.setCb_hostQ (k : Corner) (v : Pixel32) : (s.setCb k v).hostQ = s.hostQ := rfl
@[simp] theorem State.setCb_granularity (k : Corner) (v : Pixel32) : (s.setCb k v).granularity = s.granularity := rfl
@[simp] theorem State.setCb_allocGiven (k : Corner) (v : Pixel32) : (s.setCb k v).allocGiven = s.allocGiven := rfl
@[simp] theorem State.setCb_draws (k : Corner) (v : Pixel32) : (s.setCb k v).draws = s.draws := rfl

/-! ## `setIx` -/

@[simp] theorem State.setIx_pixelOrder (k : Corner) (v : Nat) : (s.setIx k v).pixelOrder = s.pixelOrder := rfl
@[simp] theorem State.setIx_mortonLow (k : Corner) (v : Nat) : (s.setIx k v).mortonLow = s.mortonLow := rfl
@[simp] theorem State.setIx_cmd (k : Corner) (v : Nat) : (s.setIx k v).cmd = s.cmd := rfl
@[simp] theorem State.setIx_fault (k : Corner) (v : Nat) : (s.setIx k v).fault = s.fault := rfl
@[simp] theorem State.setIx_result (k : Corner) (v : Nat) : (s.setIx k v).result = s.result := rfl
@[simp] theorem State.setIx_ph (k : Corner) (v : Nat) : (s.setIx k v).ph = s.ph := rfl
@[simp] theorem State.setIx_cfg (k : Corner) (v : Nat) : (s.setIx k v).cfg = s.cfg := rfl
@[simp] theorem State.setIx_bX (k : Corner) (v : Nat) : (s.setIx k v).bX = s.bX := rfl
@[simp] theorem State.setIx_bY (k : Corner) (v : Nat) : (s.setIx k v).bY = s.bY := rfl
@[simp] theorem State.setIx_blk (k : Corner) (v : Nat) : (s.setIx k v).blk = s.blk := rfl
@[simp] theorem State.setIx_wd (k : Corner) (v : Nat) : (s.setIx k v).wd = s.wd := rfl
@[simp] theorem State.setIx_ca (k : Corner) (v : Nat) : (s.setIx k v).ca = s.ca := rfl
@[simp] theorem State.setIx_cb (k : Corner) (v : Nat) : (s.setIx k v).cb = s.cb := rfl
@[simp] theorem State.setIx_mv (k : Corner) (v : Nat) : (s.setIx k v).mv = s.mv := rfl
@[simp] theorem State.setIx_mm (k : Corner) (v : Nat) : (s.setIx k v).mm = s.mm := rfl
@[simp] theorem State.setIx_ua (k : Corner) (v : Nat) : (s.setIx k v).ua = s.ua := rfl
@[simp] theorem State.setIx_ub (k : Corner) (v : Nat) : (s.setIx k v).ub = s.ub := rfl
@[simp] theorem State.setIx_tile (k : Corner) (v : Nat) : (s.setIx k v).tile = s.tile := rfl
@[simp] theorem State.setIx_tmp (k : Corner) (v : Nat) : (s.setIx k v).tmp = s.tmp := rfl
@[simp] theorem State.setIx_strat (k : Corner) (v : Nat) : (s.setIx k v).strat = s.strat := rfl
@[simp] theorem State.setIx_mem (k : Corner) (v : Nat) : (s.setIx k v).mem = s.mem := rfl
@[simp] theorem State.setIx_seq (k : Corner) (v : Nat) : (s.setIx k v).seq = s.seq := rfl
@[simp] theorem State.setIx_ix (k : Corner) (v : Nat) : (s.setIx k v).ix = s.ix.set k v := rfl
@[simp] theorem State.setIx_weight (k : Corner) (v : Nat) : (s.setIx k v).weight = s.weight := rfl
@[simp] theorem State.setIx_hostQ (k : Corner) (v : Nat) : (s.setIx k v).hostQ = s.hostQ := rfl
@[simp] theorem State.setIx_granularity (k : Corner) (v : Nat) : (s.setIx k v).granularity = s.granularity := rfl
@[simp] theorem State.setIx_allocGiven (k : Corner) (v : Nat) : (s.setIx k v).allocGiven = s.allocGiven := rfl
@[simp] theorem State.setIx_draws (k : Corner) (v : Nat) : (s.setIx k v).draws = s.draws := rfl

/-! ## `setGrids` -/

@[simp] theorem State.setGrids_pixelOrder (v : List (Option Nat)) (m : List (Option ModTag)) : (s.setGrids v m).pixelOrder = s.pixelOrder := rfl
@[simp] theorem State.setGrids_mortonLow (v : List (Option Nat)) (m : List (Option ModTag)) : (s.setGrids v m).mortonLow = s.mortonLow := rfl
@[simp] theorem State.setGrids_cmd (v : List (Option Nat)) (m : List (Option ModTag)) : (s.setGrids v m).cmd = s.cmd := rfl
@[simp] theorem State.setGrids_fault (v : List (Option Nat)) (m : List (Option ModTag)) : (s.setGrids v m).fault = s.fault := rfl
@[simp] theorem State.setGrids_result (v : List (Option Nat)) (m : List (Option ModTag)) : (s.setGrids v m).result = s.result := rfl
@[simp] theorem State.setGrids_ph (v : List (Option Nat)) (m : List (Option ModTag)) : (s.setGrids v m).ph = s.ph := rfl
@[simp] theorem State.setGrids_cfg (v : List (Option Nat)) (m : List (Option ModTag)) : (s.setGrids v m).cfg = s.cfg := rfl
@[simp] theorem State.setGrids_bX (v : List (Option Nat)) (m : List (Option ModTag)) : (s.setGrids v m).bX = s.bX := rfl
@[simp] theorem State.setGrids_bY (v : List (Option Nat)) (m : List (Option ModTag)) : (s.setGrids v m).bY = s.bY := rfl
@[simp] theorem State.setGrids_blk (v : List (Option Nat)) (m : List (Option ModTag)) : (s.setGrids v m).blk = s.blk := rfl
@[simp] theorem State.setGrids_wd (v : List (Option Nat)) (m : List (Option ModTag)) : (s.setGrids v m).wd = s.wd := rfl
@[simp] theorem State.setGrids_ca (v : List (Option Nat)) (m : List (Option ModTag)) : (s.setGrids v m).ca = s.ca := rfl
@[simp] theorem State.setGrids_cb (v : List (Option Nat)) (m : List (Option ModTag)) : (s.setGrids v m).cb = s.cb := rfl
@[simp] theorem State.setGrids_mv (v : List (Option Nat)) (m : List (Option ModTag)) : (s.setGrids v m).mv = v := rfl
@[simp] theorem State.setGrids_mm (v : List (Option Nat)) (m : List (Option ModTag)) : (s.setGrids v m).mm = m := rfl
@[simp] theorem State.setGrids_ua (v : List (Option Nat)) (m : List (Option ModTag)) : (s.setGrids v m).ua = s.ua := rfl
@[simp] theorem State.setGrids_ub (v : List (Option Nat)) (m : List (Option ModTag)) : (s.setGrids v m).ub = s.ub := rfl
@[simp] theorem State.setGrids_tile (v : List (Option Nat)) (m : List (Option ModTag)) : (s.setGrids v m).tile = s.tile := rfl
@[simp] theorem State.setGrids_tmp (v : List (Option Nat)) (m : List (Option ModTag)) : (s.setGrids v m).tmp = s.tmp := rfl
@[simp] theorem State.setGrids_strat (v : List (Option Nat)) (m : List (Option ModTag)) : (s.setGrids v m).strat = s.strat := rfl
@[simp] theorem State.setGrids_mem (v : List (Option Nat)) (m : List (Option ModTag)) : (s.setGrids v m).mem = s.mem := rfl
@[simp] theorem State.setGrids_seq (v : List (Option Nat)) (m : List (Option ModTag)) : (s.setGrids v m).seq = s.seq := rfl
@[simp] theorem State.setGrids_ix (v : List (Option Nat)) (m : List (Option ModTag)) : (s.setGrids v m).ix = s.ix := rfl
@[simp] theorem State.setGrids_weight (v : List (Option Nat)) (m : List (Option ModTag)) : (s.setGrids v m).weight = s.weight := rfl
@[simp] theorem State.setGrids_hostQ (v : List (Option Nat)) (m : List (Option ModTag)) : (s.setGrids v m).hostQ = s.hostQ := rfl
@[simp] theorem State.setGrids_granularity (v : List (Option Nat)) (m : List (Option ModTag)) : (s.setGrids v m).granularity = s.granularity := rfl
@[simp] theorem State.setGrids_allocGiven (v : List (Option Nat)) (m : List (Option ModTag)) : (s.setGrids v m).allocGiven = s.allocGiven := rfl
@[simp] theorem State.setGrids_draws (v : List (Option Nat)) (m : List (Option ModTag)) : (s.setGrids v m).draws = s.draws := rfl

/-! ## `setWeight` -/

@[simp] theorem State.setWeight_pixelOrder (w : Nat) : (s.setWeight w).pixelOrder = s.pixelOrder := rfl
@[simp] theorem State.setWeight_mortonLow (w : Nat) : (s.setWeight w).mortonLow = s.mortonLow := rfl
@[simp] theorem State.setWeight_cmd (w : Nat) : (s.setWeight w).cmd = s.cmd := rfl
@[simp] theorem State.setWeight_fault (w : Nat) : (s.setWeight w).fault = s.fault := rfl
@[simp] theorem State.setWeight_result (w : Nat) : (s.setWeight w).result = s.result := rfl
@[simp] theorem State.setWeight_ph (w : Nat) : (s.setWeight w).ph = s.ph := rfl
@[simp] theorem State.setWeight_cfg (w : Nat) : (s.setWeight w).cfg = s.cfg := rfl
@[simp] theorem State.setWeight_bX (w : Nat) : (s.setWeight w).bX = s.bX := rfl
@[simp] theorem State.setWeight_bY (w : Nat) : (s.setWeight w).bY = s.bY := rfl
@[simp] theorem State.setWeight_blk (w : Nat) : (s.setWeight w).blk = s.blk := rfl
@[simp] theorem State.setWeight_wd (w : Nat) : (s.setWeight w).wd = s.wd := rfl
@[simp] theorem State.setWeight_ca (w : Nat) : (s.setWeight w).ca = s.ca := rfl
@[simp] theorem State.setWeight_cb (w : Nat) : (s.setWeight w).cb = s.cb := rfl
@[simp] theorem State.setWeight_mv (w : Nat) : (s.setWeight w).mv = s.mv := rfl
@[simp] theorem State.setWeight_mm (w : Nat) : (s.setWeight w).mm = s.mm := rfl
@[simp] theorem State.setWeight_ua (w : Nat) : (s.setWeight w).ua = s.ua := rfl
@[simp] theorem State.setWeight_ub (w : Nat) : (s.setWeight w).ub = s.ub := rfl
@[simp] theorem State.setWeight_tile (w : Nat) : (s.setWeight w).tile = s.tile := rfl
@[simp] theorem State.setWeight_tmp (w : Nat) : (s.setWeight w).tmp = s.tmp := rfl
@[simp] theorem State.setWeight_strat (w : Nat) : (s.setWeight w).strat = s.strat := rfl
@[simp] theorem State.setWeight_mem (w : Nat) : (s.setWeight w).mem = s.mem := rfl
@[simp] theorem State.setWeight_seq (w : Nat) : (s.setWeight w).seq = s.seq := rfl
@[simp] theorem State.setWeight_ix (w : Nat) : (s.setWeight w).ix = s.ix := rfl
@[simp] theorem State.setWeight_weight (w : Nat) : (s.setWeight w).weight = w := rfl
@[simp] theorem State.setWeight_hostQ (w : Nat) : (s.setWeight w).hostQ = s.hostQ := rfl
@[simp] theorem State.setWeight_granularity (w : Nat) : (s.setWeight w).granularity = s.granularity := rfl
@[simp] theorem State.setWeight_allocGiven (w : Nat) : (s.setWeight w).allocGiven = s.allocGiven := rfl
@[simp] theorem State.setWeight_draws (w : Nat) : (s.setWeight w).draws = s.draws := rfl

/-! ## `setTexel` -/

@[simp] theorem State.setTexel_pixelOrder (j : Nat) (p : Pixel32) : (s.setTexel j p).pixelOrder = s.pixelOrder := rfl
@[simp] theorem State.setTexel_mortonLow (j : Nat) (p : Pixel32) : (s.setTexel j p).mortonLow = s.mortonLow := rfl
@[simp] theorem State.setTexel_cmd (j : Nat) (p : Pixel32) : (s.setTexel j p).cmd = s.cmd := rfl
@[simp] theorem State.setTexel_fault (j : Nat) (p : Pixel32) : (s.setTexel j p).fault = s.fault := rfl
@[simp] theorem State.setTexel_result (j : Nat) (p : Pixel32) : (s.setTexel j p).result = s.result := rfl
@[simp] theorem State.setTexel_ph (j : Nat) (p : Pixel32) : (s.setTexel j p).ph = s.ph := rfl
@[simp] theorem State.setTexel_cfg (j : Nat) (p : Pixel32) : (s.setTexel j p).cfg = s.cfg := rfl
@[simp] theorem State.setTexel_bX (j : Nat) (p : Pixel32) : (s.setTexel j p).bX = s.bX := rfl
@[simp] theorem State.setTexel_bY (j : Nat) (p : Pixel32) : (s.setTexel j p).bY = s.bY := rfl
@[simp] theorem State.setTexel_blk (j : Nat) (p : Pixel32) : (s.setTexel j p).blk = s.blk := rfl
@[simp] theorem State.setTexel_wd (j : Nat) (p : Pixel32) : (s.setTexel j p).wd = s.wd := rfl
@[simp] theorem State.setTexel_ca (j : Nat) (p : Pixel32) : (s.setTexel j p).ca = s.ca := rfl
@[simp] theorem State.setTexel_cb (j : Nat) (p : Pixel32) : (s.setTexel j p).cb = s.cb := rfl
@[simp] theorem State.setTexel_mv (j : Nat) (p : Pixel32) : (s.setTexel j p).mv = s.mv := rfl
@[simp] theorem State.setTexel_mm (j : Nat) (p : Pixel32) : (s.setTexel j p).mm = s.mm := rfl
@[simp] theorem State.setTexel_ua (j : Nat) (p : Pixel32) : (s.setTexel j p).ua = s.ua := rfl
@[simp] theorem State.setTexel_ub (j : Nat) (p : Pixel32) : (s.setTexel j p).ub = s.ub := rfl
@[simp] theorem State.setTexel_tile (j : Nat) (p : Pixel32) : (s.setTexel j p).tile = s.tile.set j (some p) := rfl
@[simp] theorem State.setTexel_tmp (j : Nat) (p : Pixel32) : (s.setTexel j p).tmp = s.tmp := rfl
@[simp] theorem State.setTexel_strat (j : Nat) (p : Pixel32) : (s.setTexel j p).strat = s.strat := rfl
@[simp] theorem State.setTexel_mem (j : Nat) (p : Pixel32) : (s.setTexel j p).mem = s.mem := rfl
@[simp] theorem State.setTexel_seq (j : Nat) (p : Pixel32) : (s.setTexel j p).seq = s.seq := rfl
@[simp] theorem State.setTexel_ix (j : Nat) (p : Pixel32) : (s.setTexel j p).ix = s.ix := rfl
@[simp] theorem State.setTexel_weight (j : Nat) (p : Pixel32) : (s.setTexel j p).weight = s.weight := rfl
@[simp] theorem State.setTexel_hostQ (j : Nat) (p : Pixel32) : (s.setTexel j p).hostQ = s.hostQ := rfl
@[simp] theorem State.setTexel_granularity (j : Nat) (p : Pixel32) : (s.setTexel j p).granularity = s.granularity := rfl
@[simp] theorem State.setTexel_allocGiven (j : Nat) (p : Pixel32) : (s.setTexel j p).allocGiven = s.allocGiven := rfl
@[simp] theorem State.setTexel_draws (j : Nat) (p : Pixel32) : (s.setTexel j p).draws = s.draws := rfl

/-! ## `enter` -/

@[simp] theorem State.enter_pixelOrder (p : Phase) : (s.enter p).pixelOrder = s.pixelOrder := rfl
@[simp] theorem State.enter_mortonLow (p : Phase) : (s.enter p).mortonLow = s.mortonLow := rfl
@[simp] theorem State.enter_cmd (p : Phase) : (s.enter p).cmd = s.cmd := rfl
@[simp] theorem State.enter_fault (p : Phase) : (s.enter p).fault = s.fault := rfl
@[simp] theorem State.enter_result (p : Phase) : (s.enter p).result = s.result := rfl
@[simp] theorem State.enter_ph (p : Phase) : (s.enter p).ph = p := rfl
@[simp] theorem State.enter_cfg (p : Phase) : (s.enter p).cfg = s.cfg := rfl
@[simp] theorem State.enter_bX (p : Phase) : (s.enter p).bX = s.bX := rfl
@[simp] theorem State.enter_bY (p : Phase) : (s.enter p).bY = s.bY := rfl
@[simp] theorem State.enter_blk (p : Phase) : (s.enter p).blk = s.blk := rfl
@[simp] theorem State.enter_wd (p : Phase) : (s.enter p).wd = s.wd := rfl
@[simp] theorem State.enter_ca (p : Phase) : (s.enter p).ca = s.ca := rfl
@[simp] theorem State.enter_cb (p : Phase) : (s.enter p).cb = s.cb := rfl
@[simp] theorem State.enter_mv (p : Phase) : (s.enter p).mv = s.mv := rfl
@[simp] theorem State.enter_mm (p : Phase) : (s.enter p).mm = s.mm := rfl
@[simp] theorem State.enter_ua (p : Phase) : (s.enter p).ua = s.ua := rfl
@[simp] theorem State.enter_ub (p : Phase) : (s.enter p).ub = s.ub := rfl
@[simp] theorem State.enter_tile (p : Phase) : (s.enter p).tile = s.tile := rfl
@[simp] theorem State.enter_tmp (p : Phase) : (s.enter p).tmp = s.tmp := rfl
@[simp] theorem State.enter_strat (p : Phase) : (s.enter p).strat = s.strat := rfl
@[simp] theorem State.enter_mem (p : Phase) : (s.enter p).mem = s.mem := rfl
@[simp] theorem State.enter_seq (p : Phase) : (s.enter p).seq = 0 := rfl
@[simp] theorem State.enter_ix (p : Phase) : (s.enter p).ix = s.ix := rfl
@[simp] theorem State.enter_weight (p : Phase) : (s.enter p).weight = s.weight := rfl
@[simp] theorem State.enter_hostQ (p : Phase) : (s.enter p).hostQ = s.hostQ := rfl
@[simp] theorem State.enter_granularity (p : Phase) : (s.enter p).granularity = s.granularity := rfl
@[simp] theorem State.enter_allocGiven (p : Phase) : (s.enter p).allocGiven = s.allocGiven := rfl
@[simp] theorem State.enter_draws (p : Phase) : (s.enter p).draws = s.draws := rfl

/-! ## `enterTile` -/

@[simp] theorem State.enterTile_pixelOrder (x y : Int) : (s.enterTile x y).pixelOrder = s.pixelOrder := rfl
@[simp] theorem State.enterTile_mortonLow (x y : Int) : (s.enterTile x y).mortonLow = s.mortonLow := rfl
@[simp] theorem State.enterTile_cmd (x y : Int) : (s.enterTile x y).cmd = s.cmd := rfl
@[simp] theorem State.enterTile_fault (x y : Int) : (s.enterTile x y).fault = s.fault := rfl
@[simp] theorem State.enterTile_result (x y : Int) : (s.enterTile x y).result = s.result := rfl
@[simp] theorem State.enterTile_ph (x y : Int) : (s.enterTile x y).ph = .fetch := rfl
@[simp] theorem State.enterTile_cfg (x y : Int) : (s.enterTile x y).cfg = s.cfg := rfl
@[simp] theorem State.enterTile_bX (x y : Int) : (s.enterTile x y).bX = x := rfl
@[simp] theorem State.enterTile_bY (x y : Int) : (s.enterTile x y).bY = y := rfl
@[simp] theorem State.enterTile_blk (x y : Int) : (s.enterTile x y).blk = s.blk := rfl
@[simp] theorem State.enterTile_wd (x y : Int) : (s.enterTile x y).wd = s.wd := rfl
@[simp] theorem State.enterTile_ca (x y : Int) : (s.enterTile x y).ca = s.ca := rfl
@[simp] theorem State.enterTile_cb (x y : Int) : (s.enterTile x y).cb = s.cb := rfl
@[simp] theorem State.enterTile_mv (x y : Int) : (s.enterTile x y).mv = s.mv := rfl
@[simp] theorem State.enterTile_mm (x y : Int) : (s.enterTile x y).mm = s.mm := rfl
@[simp] theorem State.enterTile_ua (x y : Int) : (s.enterTile x y).ua = s.ua := rfl
@[simp] theorem State.enterTile_ub (x y : Int) : (s.enterTile x y).ub = s.ub := rfl
@[simp] theorem State.enterTile_tile (x y : Int) : (s.enterTile x y).tile = s.tile := rfl
@[simp] theorem State.enterTile_tmp (x y : Int) : (s.enterTile x y).tmp = s.tmp := rfl
@[simp] theorem State.enterTile_strat (x y : Int) : (s.enterTile x y).strat = s.strat := rfl
@[simp] theorem State.enterTile_mem (x y : Int) : (s.enterTile x y).mem = s.mem := rfl
@[simp] theorem State.enterTile_seq (x y : Int) : (s.enterTile x y).seq = 0 := rfl
@[simp] theorem State.enterTile_ix (x y : Int) : (s.enterTile x y).ix = s.ix := rfl
@[simp] theorem State.enterTile_weight (x y : Int) : (s.enterTile x y).weight = s.weight := rfl
@[simp] theorem State.enterTile_hostQ (x y : Int) : (s.enterTile x y).hostQ = s.hostQ := rfl
@[simp] theorem State.enterTile_granularity (x y : Int) : (s.enterTile x y).granularity = s.granularity := rfl
@[simp] theorem State.enterTile_allocGiven (x y : Int) : (s.enterTile x y).allocGiven = s.allocGiven := rfl
@[simp] theorem State.enterTile_draws (x y : Int) : (s.enterTile x y).draws = s.draws := rfl

/-! ## `clearGrids` -/

@[simp] theorem State.clearGrids_pixelOrder : (s.clearGrids).pixelOrder = s.pixelOrder := rfl
@[simp] theorem State.clearGrids_mortonLow : (s.clearGrids).mortonLow = s.mortonLow := rfl
@[simp] theorem State.clearGrids_cmd : (s.clearGrids).cmd = s.cmd := rfl
@[simp] theorem State.clearGrids_fault : (s.clearGrids).fault = s.fault := rfl
@[simp] theorem State.clearGrids_result : (s.clearGrids).result = s.result := rfl
@[simp] theorem State.clearGrids_ph : (s.clearGrids).ph = s.ph := rfl
@[simp] theorem State.clearGrids_cfg : (s.clearGrids).cfg = s.cfg := rfl
@[simp] theorem State.clearGrids_bX : (s.clearGrids).bX = s.bX := rfl
@[simp] theorem State.clearGrids_bY : (s.clearGrids).bY = s.bY := rfl
@[simp] theorem State.clearGrids_blk : (s.clearGrids).blk = s.blk := rfl
@[simp] theorem State.clearGrids_wd : (s.clearGrids).wd = s.wd := rfl
@[simp] theorem State.clearGrids_ca : (s.clearGrids).ca = s.ca := rfl
@[simp] theorem State.clearGrids_cb : (s.clearGrids).cb = s.cb := rfl
@[simp] theorem State.clearGrids_mv : (s.clearGrids).mv = List.replicate 128 none := rfl
@[simp] theorem State.clearGrids_mm : (s.clearGrids).mm = List.replicate 128 none := rfl
@[simp] theorem State.clearGrids_ua : (s.clearGrids).ua = s.ua := rfl
@[simp] theorem State.clearGrids_ub : (s.clearGrids).ub = s.ub := rfl
@[simp] theorem State.clearGrids_tile : (s.clearGrids).tile = s.tile := rfl
@[simp] theorem State.clearGrids_tmp : (s.clearGrids).tmp = s.tmp := rfl
@[simp] theorem State.clearGrids_strat : (s.clearGrids).strat = s.strat := rfl
@[simp] theorem State.clearGrids_mem : (s.clearGrids).mem = s.mem := rfl
@[simp] theorem State.clearGrids_seq : (s.clearGrids).seq = s.seq := rfl
@[simp] theorem State.clearGrids_ix : (s.clearGrids).ix = s.ix := rfl
@[simp] theorem State.clearGrids_weight : (s.clearGrids).weight = s.weight := rfl
@[simp] theorem State.clearGrids_hostQ : (s.clearGrids).hostQ = s.hostQ := rfl
@[simp] theorem State.clearGrids_granularity : (s.clearGrids).granularity = s.granularity := rfl
@[simp] theorem State.clearGrids_allocGiven : (s.clearGrids).allocGiven = s.allocGiven := rfl
@[simp] theorem State.clearGrids_draws : (s.clearGrids).draws = s.draws := rfl

/-! ## `clearBuffers` -/

@[simp] theorem State.clearBuffers_pixelOrder : (s.clearBuffers).pixelOrder = s.pixelOrder := rfl
@[simp] theorem State.clearBuffers_mortonLow : (s.clearBuffers).mortonLow = s.mortonLow := rfl
@[simp] theorem State.clearBuffers_cmd : (s.clearBuffers).cmd = s.cmd := rfl
@[simp] theorem State.clearBuffers_fault : (s.clearBuffers).fault = s.fault := rfl
@[simp] theorem State.clearBuffers_result : (s.clearBuffers).result = s.result := rfl
@[simp] theorem State.clearBuffers_ph : (s.clearBuffers).ph = s.ph := rfl
@[simp] theorem State.clearBuffers_cfg : (s.clearBuffers).cfg = s.cfg := rfl
@[simp] theorem State.clearBuffers_bX : (s.clearBuffers).bX = s.bX := rfl
@[simp] theorem State.clearBuffers_bY : (s.clearBuffers).bY = s.bY := rfl
@[simp] theorem State.clearBuffers_blk : (s.clearBuffers).blk = s.blk := rfl
@[simp] theorem State.clearBuffers_wd : (s.clearBuffers).wd = s.wd := rfl
@[simp] theorem State.clearBuffers_ca : (s.clearBuffers).ca = s.ca := rfl
@[simp] theorem State.clearBuffers_cb : (s.clearBuffers).cb = s.cb := rfl
@[simp] theorem State.clearBuffers_mv : (s.clearBuffers).mv = s.mv := rfl
@[simp] theorem State.clearBuffers_mm : (s.clearBuffers).mm = s.mm := rfl
@[simp] theorem State.clearBuffers_ua : (s.clearBuffers).ua = List.replicate 32 none := rfl
@[simp] theorem State.clearBuffers_ub : (s.clearBuffers).ub = List.replicate 32 none := rfl
@[simp] theorem State.clearBuffers_tile : (s.clearBuffers).tile = List.replicate 32 none := rfl
@[simp] theorem State.clearBuffers_tmp : (s.clearBuffers).tmp = s.tmp := rfl
@[simp] theorem State.clearBuffers_strat : (s.clearBuffers).strat = s.strat := rfl
@[simp] theorem State.clearBuffers_mem : (s.clearBuffers).mem = s.mem := rfl
@[simp] theorem State.clearBuffers_seq : (s.clearBuffers).seq = s.seq := rfl
@[simp] theorem State.clearBuffers_ix : (s.clearBuffers).ix = s.ix := rfl
@[simp] theorem State.clearBuffers_weight : (s.clearBuffers).weight = s.weight := rfl
@[simp] theorem State.clearBuffers_hostQ : (s.clearBuffers).hostQ = s.hostQ := rfl
@[simp] theorem State.clearBuffers_granularity : (s.clearBuffers).granularity = s.granularity := rfl
@[simp] theorem State.clearBuffers_allocGiven : (s.clearBuffers).allocGiven = s.allocGiven := rfl
@[simp] theorem State.clearBuffers_draws : (s.clearBuffers).draws = s.draws := rfl

/-! ## `setWords` -/

@[simp] theorem State.setWords_pixelOrder (w : Corners CWord) : (s.setWords w).pixelOrder = s.pixelOrder := rfl
@[simp] theorem State.setWords_mortonLow (w : Corners CWord) : (s.setWords w).mortonLow = s.mortonLow := rfl
@[simp] theorem State.setWords_cmd (w : Corners CWord) : (s.setWords w).cmd = s.cmd := rfl
@[simp] theorem State.setWords_fault (w : Corners CWord) : (s.setWords w).fault = s.fault := rfl
@[simp] theorem State.setWords_result (w : Corners CWord) : (s.setWords w).result = s.result := rfl
@[simp] theorem State.setWords_ph (w : Corners CWord) : (s.setWords w).ph = s.ph := rfl
@[simp] theorem State.setWords_cfg (w : Corners CWord) : (s.setWords w).cfg = s.cfg := rfl
@[simp] theorem State.setWords_bX (w : Corners CWord) : (s.setWords w).bX = s.bX := rfl
@[simp] theorem State.setWords_bY (w : Corners CWord) : (s.setWords w).bY = s.bY := rfl
@[simp] theorem State.setWords_blk (w : Corners CWord) : (s.setWords w).blk = s.blk := rfl
@[simp] theorem State.setWords_wd (w : Corners CWord) : (s.setWords w).wd = w := rfl
@[simp] theorem State.setWords_ca (w : Corners CWord) : (s.setWords w).ca = s.ca := rfl
@[simp] theorem State.setWords_cb (w : Corners CWord) : (s.setWords w).cb = s.cb := rfl
@[simp] theorem State.setWords_mv (w : Corners CWord) : (s.setWords w).mv = s.mv := rfl
@[simp] theorem State.setWords_mm (w : Corners CWord) : (s.setWords w).mm = s.mm := rfl
@[simp] theorem State.setWords_ua (w : Corners CWord) : (s.setWords w).ua = s.ua := rfl
@[simp] theorem State.setWords_ub (w : Corners CWord) : (s.setWords w).ub = s.ub := rfl
@[simp] theorem State.setWords_tile (w : Corners CWord) : (s.setWords w).tile = s.tile := rfl
@[simp] theorem State.setWords_tmp (w : Corners CWord) : (s.setWords w).tmp = s.tmp := rfl
@[simp] theorem State.setWords_strat (w : Corners CWord) : (s.setWords w).strat = s.strat := rfl
@[simp] theorem State.setWords_mem (w : Corners CWord) : (s.setWords w).mem = s.mem := rfl
@[simp] theorem State.setWords_seq (w : Corners CWord) : (s.setWords w).seq = s.seq := rfl
@[simp] theorem State.setWords_ix (w : Corners CWord) : (s.setWords w).ix = s.ix := rfl
@[simp] theorem State.setWords_weight (w : Corners CWord) : (s.setWords w).weight = s.weight := rfl
@[simp] theorem State.setWords_hostQ (w : Corners CWord) : (s.setWords w).hostQ = s.hostQ := rfl
@[simp] theorem State.setWords_granularity (w : Corners CWord) : (s.setWords w).granularity = s.granularity := rfl
@[simp] theorem State.setWords_allocGiven (w : Corners CWord) : (s.setWords w).allocGiven = s.allocGiven := rfl
@[simp] theorem State.setWords_draws (w : Corners CWord) : (s.setWords w).draws = s.draws := rfl

/-! ## `setBlk` -/

@[simp] theorem State.setBlk_pixelOrder (b : Corners (Nat × Nat)) : (s.setBlk b).pixelOrder = s.pixelOrder := rfl
@[simp] theorem State.setBlk_mortonLow (b : Corners (Nat × Nat)) : (s.setBlk b).mortonLow = s.mortonLow := rfl
@[simp] theorem State.setBlk_cmd (b : Corners (Nat × Nat)) : (s.setBlk b).cmd = s.cmd := rfl
@[simp] theorem State.setBlk_fault (b : Corners (Nat × Nat)) : (s.setBlk b).fault = s.fault := rfl
@[simp] theorem State.setBlk_result (b : Corners (Nat × Nat)) : (s.setBlk b).result = s.result := rfl
@[simp] theorem State.setBlk_ph (b : Corners (Nat × Nat)) : (s.setBlk b).ph = s.ph := rfl
@[simp] theorem State.setBlk_cfg (b : Corners (Nat × Nat)) : (s.setBlk b).cfg = s.cfg := rfl
@[simp] theorem State.setBlk_bX (b : Corners (Nat × Nat)) : (s.setBlk b).bX = s.bX := rfl
@[simp] theorem State.setBlk_bY (b : Corners (Nat × Nat)) : (s.setBlk b).bY = s.bY := rfl
@[simp] theorem State.setBlk_blk (b : Corners (Nat × Nat)) : (s.setBlk b).blk = b := rfl
@[simp] theorem State.setBlk_wd (b : Corners (Nat × Nat)) : (s.setBlk b).wd = s.wd := rfl
@[simp] theorem State.setBlk_ca (b : Corners (Nat × Nat)) : (s.setBlk b).ca = s.ca := rfl
@[simp] theorem State.setBlk_cb (b : Corners (Nat × Nat)) : (s.setBlk b).cb = s.cb := rfl
@[simp] theorem State.setBlk_mv (b : Corners (Nat × Nat)) : (s.setBlk b).mv = s.mv := rfl
@[simp] theorem State.setBlk_mm (b : Corners (Nat × Nat)) : (s.setBlk b).mm = s.mm := rfl
@[simp] theorem State.setBlk_ua (b : Corners (Nat × Nat)) : (s.setBlk b).ua = s.ua := rfl
@[simp] theorem State.setBlk_ub (b : Corners (Nat × Nat)) : (s.setBlk b).ub = s.ub := rfl
@[simp] theorem State.setBlk_tile (b : Corners (Nat × Nat)) : (s.setBlk b).tile = s.tile := rfl
@[simp] theorem State.setBlk_tmp (b : Corners (Nat × Nat)) : (s.setBlk b).tmp = s.tmp := rfl
@[simp] theorem State.setBlk_strat (b : Corners (Nat × Nat)) : (s.setBlk b).strat = s.strat := rfl
@[simp] theorem State.setBlk_mem (b : Corners (Nat × Nat)) : (s.setBlk b).mem = s.mem := rfl
@[simp] theorem State.setBlk_seq (b : Corners (Nat × Nat)) : (s.setBlk b).seq = s.seq := rfl
@[simp] theorem State.setBlk_ix (b : Corners (Nat × Nat)) : (s.setBlk b).ix = s.ix := rfl
@[simp] theorem State.setBlk_weight (b : Corners (Nat × Nat)) : (s.setBlk b).weight = s.weight := rfl
@[simp] theorem State.setBlk_hostQ (b : Corners (Nat × Nat)) : (s.setBlk b).hostQ = s.hostQ := rfl
@[simp] theorem State.setBlk_granularity (b : Corners (Nat × Nat)) : (s.setBlk b).granularity = s.granularity := rfl
@[simp] theorem State.setBlk_allocGiven (b : Corners (Nat × Nat)) : (s.setBlk b).allocGiven = s.allocGiven := rfl
@[simp] theorem State.setBlk_draws (b : Corners (Nat × Nat)) : (s.setBlk b).draws = s.draws := rfl

/-! ## `setCfg` -/

@[simp] theorem State.setCfg_pixelOrder (c : Latched) : (s.setCfg c).pixelOrder = s.pixelOrder := rfl
@[simp] theorem State.setCfg_mortonLow (c : Latched) : (s.setCfg c).mortonLow = s.mortonLow := rfl
@[simp] theorem State.setCfg_cmd (c : Latched) : (s.setCfg c).cmd = s.cmd := rfl
@[simp] theorem State.setCfg_fault (c : Latched) : (s.setCfg c).fault = s.fault := rfl
@[simp] theorem State.setCfg_result (c : Latched) : (s.setCfg c).result = s.result := rfl
@[simp] theorem State.setCfg_ph (c : Latched) : (s.setCfg c).ph = s.ph := rfl
@[simp] theorem State.setCfg_cfg (c : Latched) : (s.setCfg c).cfg = c := rfl
@[simp] theorem State.setCfg_bX (c : Latched) : (s.setCfg c).bX = s.bX := rfl
@[simp] theorem State.setCfg_bY (c : Latched) : (s.setCfg c).bY = s.bY := rfl
@[simp] theorem State.setCfg_blk (c : Latched) : (s.setCfg c).blk = s.blk := rfl
@[simp] theorem State.setCfg_wd (c : Latched) : (s.setCfg c).wd = s.wd := rfl
@[simp] theorem State.setCfg_ca (c : Latched) : (s.setCfg c).ca = s.ca := rfl
@[simp] theorem State.setCfg_cb (c : Latched) : (s.setCfg c).cb = s.cb := rfl
@[simp] theorem State.setCfg_mv (c : Latched) : (s.setCfg c).mv = s.mv := rfl
@[simp] theorem State.setCfg_mm (c : Latched) : (s.setCfg c).mm = s.mm := rfl
@[simp] theorem State.setCfg_ua (c : Latched) : (s.setCfg c).ua = s.ua := rfl
@[simp] theorem State.setCfg_ub (c : Latched) : (s.setCfg c).ub = s.ub := rfl
@[simp] theorem State.setCfg_tile (c : Latched) : (s.setCfg c).tile = s.tile := rfl
@[simp] theorem State.setCfg_tmp (c : Latched) : (s.setCfg c).tmp = s.tmp := rfl
@[simp] theorem State.setCfg_strat (c : Latched) : (s.setCfg c).strat = s.strat := rfl
@[simp] theorem State.setCfg_mem (c : Latched) : (s.setCfg c).mem = s.mem := rfl
@[simp] theorem State.setCfg_seq (c : Latched) : (s.setCfg c).seq = s.seq := rfl
@[simp] theorem State.setCfg_ix (c : Latched) : (s.setCfg c).ix = s.ix := rfl
@[simp] theorem State.setCfg_weight (c : Latched) : (s.setCfg c).weight = s.weight := rfl
@[simp] theorem State.setCfg_hostQ (c : Latched) : (s.setCfg c).hostQ = s.hostQ := rfl
@[simp] theorem State.setCfg_granularity (c : Latched) : (s.setCfg c).granularity = s.granularity := rfl
@[simp] theorem State.setCfg_allocGiven (c : Latched) : (s.setCfg c).allocGiven = s.allocGiven := rfl
@[simp] theorem State.setCfg_draws (c : Latched) : (s.setCfg c).draws = s.draws := rfl

/-! ## `setTmp` -/

@[simp] theorem State.setTmp_pixelOrder (t : Option TmpRaster) : (s.setTmp t).pixelOrder = s.pixelOrder := rfl
@[simp] theorem State.setTmp_mortonLow (t : Option TmpRaster) : (s.setTmp t).mortonLow = s.mortonLow := rfl
@[simp] theorem State.setTmp_cmd (t : Option TmpRaster) : (s.setTmp t).cmd = s.cmd := rfl
@[simp] theorem State.setTmp_fault (t : Option TmpRaster) : (s.setTmp t).fault = s.fault := rfl
@[simp] theorem State.setTmp_result (t : Option TmpRaster) : (s.setTmp t).result = s.result := rfl
@[simp] theorem State.setTmp_ph (t : Option TmpRaster) : (s.setTmp t).ph = s.ph := rfl
@[simp] theorem State.setTmp_cfg (t : Option TmpRaster) : (s.setTmp t).cfg = s.cfg := rfl
@[simp] theorem State.setTmp_bX (t : Option TmpRaster) : (s.setTmp t).bX = s.bX := rfl
@[simp] theorem State.setTmp_bY (t : Option TmpRaster) : (s.setTmp t).bY = s.bY := rfl
@[simp] theorem State.setTmp_blk (t : Option TmpRaster) : (s.setTmp t).blk = s.blk := rfl
@[simp] theorem State.setTmp_wd (t : Option TmpRaster) : (s.setTmp t).wd = s.wd := rfl
@[simp] theorem State.setTmp_ca (t : Option TmpRaster) : (s.setTmp t).ca = s.ca := rfl
@[simp] theorem State.setTmp_cb (t : Option TmpRaster) : (s.setTmp t).cb = s.cb := rfl
@[simp] theorem State.setTmp_mv (t : Option TmpRaster) : (s.setTmp t).mv = s.mv := rfl
@[simp] theorem State.setTmp_mm (t : Option TmpRaster) : (s.setTmp t).mm = s.mm := rfl
@[simp] theorem State.setTmp_ua (t : Option TmpRaster) : (s.setTmp t).ua = s.ua := rfl
@[simp] theorem State.setTmp_ub (t : Option TmpRaster) : (s.setTmp t).ub = s.ub := rfl
@[simp] theorem State.setTmp_tile (t : Option TmpRaster) : (s.setTmp t).tile = s.tile := rfl
@[simp] theorem State.setTmp_tmp (t : Option TmpRaster) : (s.setTmp t).tmp = t := rfl
@[simp] theorem State.setTmp_strat (t : Option TmpRaster) : (s.setTmp t).strat = s.strat := rfl
@[simp] theorem State.setTmp_mem (t : Option TmpRaster) : (s.setTmp t).mem = s.mem := rfl
@[simp] theorem State.setTmp_seq (t : Option TmpRaster) : (s.setTmp t).seq = s.seq := rfl
@[simp] theorem State.setTmp_ix (t : Option TmpRaster) : (s.setTmp t).ix = s.ix := rfl
@[simp] theorem State.setTmp_weight (t : Option TmpRaster) : (s.setTmp t).weight = s.weight := rfl
@[simp] theorem State.setTmp_hostQ (t : Option TmpRaster) : (s.setTmp t).hostQ = s.hostQ := rfl
@[simp] theorem State.setTmp_granularity (t : Option TmpRaster) : (s.setTmp t).granularity = s.granularity := rfl
@[simp] theorem State.setTmp_allocGiven (t : Option TmpRaster) : (s.setTmp t).allocGiven = s.allocGiven := rfl
@[simp] theorem State.setTmp_draws (t : Option TmpRaster) : (s.setTmp t).draws = s.draws := rfl

/-! ## `takeFault` -/

@[simp] theorem State.takeFault_pixelOrder (c : FaultCode) : (s.takeFault c).pixelOrder = s.pixelOrder := rfl
@[simp] theorem State.takeFault_mortonLow (c : FaultCode) : (s.takeFault c).mortonLow = s.mortonLow := rfl
@[simp] theorem State.takeFault_cmd (c : FaultCode) : (s.takeFault c).cmd = s.cmd := rfl
@[simp] theorem State.takeFault_fault (c : FaultCode) : (s.takeFault c).fault = c := rfl
@[simp] theorem State.takeFault_result (c : FaultCode) : (s.takeFault c).result = 0 := rfl
@[simp] theorem State.takeFault_ph (c : FaultCode) : (s.takeFault c).ph = .failed := rfl
@[simp] theorem State.takeFault_cfg (c : FaultCode) : (s.takeFault c).cfg = s.cfg := rfl
@[simp] theorem State.takeFault_bX (c : FaultCode) : (s.takeFault c).bX = s.bX := rfl
@[simp] theorem State.takeFault_bY (c : FaultCode) : (s.takeFault c).bY = s.bY := rfl
@[simp] theorem State.takeFault_blk (c : FaultCode) : (s.takeFault c).blk = s.blk := rfl
@[simp] theorem State.takeFault_wd (c : FaultCode) : (s.takeFault c).wd = s.wd := rfl
@[simp] theorem State.takeFault_ca (c : FaultCode) : (s.takeFault c).ca = s.ca := rfl
@[simp] theorem State.takeFault_cb (c : FaultCode) : (s.takeFault c).cb = s.cb := rfl
@[simp] theorem State.takeFault_mv (c : FaultCode) : (s.takeFault c).mv = s.mv := rfl
@[simp] theorem State.takeFault_mm (c : FaultCode) : (s.takeFault c).mm = s.mm := rfl
@[simp] theorem State.takeFault_ua (c : FaultCode) : (s.takeFault c).ua = s.ua := rfl
@[simp] theorem State.takeFault_ub (c : FaultCode) : (s.takeFault c).ub = s.ub := rfl
@[simp] theorem State.takeFault_tile (c : FaultCode) : (s.takeFault c).tile = s.tile := rfl
@[simp] theorem State.takeFault_tmp (c : FaultCode) : (s.takeFault c).tmp = none := rfl
@[simp] theorem State.takeFault_strat (c : FaultCode) : (s.takeFault c).strat = s.strat := rfl
@[simp] theorem State.takeFault_mem (c : FaultCode) : (s.takeFault c).mem = s.mem := rfl
@[simp] theorem State.takeFault_seq (c : FaultCode) : (s.takeFault c).seq = 0 := rfl
@[simp] theorem State.takeFault_ix (c : FaultCode) : (s.takeFault c).ix = s.ix := rfl
@[simp] theorem State.takeFault_weight (c : FaultCode) : (s.takeFault c).weight = s.weight := rfl
@[simp] theorem State.takeFault_hostQ (c : FaultCode) : (s.takeFault c).hostQ = s.hostQ := rfl
@[simp] theorem State.takeFault_granularity (c : FaultCode) : (s.takeFault c).granularity = s.granularity := rfl
@[simp] theorem State.takeFault_allocGiven (c : FaultCode) : (s.takeFault c).allocGiven = s.allocGiven := rfl
@[simp] theorem State.takeFault_draws (c : FaultCode) : (s.takeFault c).draws = s.draws := rfl

/-! ## `finish` -/

@[simp] theorem State.finish_pixelOrder : (s.finish).pixelOrder = s.pixelOrder := rfl
@[simp] theorem State.finish_mortonLow : (s.finish).mortonLow = s.mortonLow := rfl
@[simp] theorem State.finish_cmd : (s.finish).cmd = s.cmd := rfl
@[simp] theorem State.finish_fault : (s.finish).fault = .none := rfl
@[simp] theorem State.finish_result : (s.finish).result = BitVec.ofNat 32 (s.cfg.wt * s.cfg.ht * s.cfg.bpp / 8) := rfl
@[simp] theorem State.finish_ph : (s.finish).ph = .done := rfl
@[simp] theorem State.finish_cfg : (s.finish).cfg = s.cfg := rfl
@[simp] theorem State.finish_bX : (s.finish).bX = s.bX := rfl
@[simp] theorem State.finish_bY : (s.finish).bY = s.bY := rfl
@[simp] theorem State.finish_blk : (s.finish).blk = s.blk := rfl
@[simp] theorem State.finish_wd : (s.finish).wd = s.wd := rfl
@[simp] theorem State.finish_ca : (s.finish).ca = s.ca := rfl
@[simp] theorem State.finish_cb : (s.finish).cb = s.cb := rfl
@[simp] theorem State.finish_mv : (s.finish).mv = s.mv := rfl
@[simp] theorem State.finish_mm : (s.finish).mm = s.mm := rfl
@[simp] theorem State.finish_ua : (s.finish).ua = s.ua := rfl
@[simp] theorem State.finish_ub : (s.finish).ub = s.ub := rfl
@[simp] theorem State.finish_tile : (s.finish).tile = s.tile := rfl
@[simp] theorem State.finish_tmp : (s.finish).tmp = s.tmp := rfl
@[simp] theorem State.finish_strat : (s.finish).strat = s.strat := rfl
@[simp] theorem State.finish_mem : (s.finish).mem = s.mem := rfl
@[simp] theorem State.finish_seq : (s.finish).seq = 0 := rfl
@[simp] theorem State.finish_ix : (s.finish).ix = s.ix := rfl
@[simp] theorem State.finish_weight : (s.finish).weight = s.weight := rfl
@[simp] theorem State.finish_hostQ : (s.finish).hostQ = s.hostQ := rfl
@[simp] theorem State.finish_granularity : (s.finish).granularity = s.granularity := rfl
@[simp] theorem State.finish_allocGiven : (s.finish).allocGiven = s.allocGiven := rfl
@[simp] theorem State.finish_draws : (s.finish).draws = s.draws := rfl

/-! ## `start` -/

@[simp] theorem State.start_pixelOrder (v : Variant) (b : Bool) : (s.start v b).pixelOrder = s.pixelOrder := rfl
@[simp] theorem State.start_mortonLow (v : Variant) (b : Bool) : (s.start v b).mortonLow = s.mortonLow := rfl
@[simp] theorem State.start_cmd (v : Variant) (b : Bool) : (s.start v b).cmd = s.cmd := rfl
@[simp] theorem State.start_fault (v : Variant) (b : Bool) : (s.start v b).fault = .none := rfl
@[simp] theorem State.start_result (v : Variant) (b : Bool) : (s.start v b).result = Config.openResult s.draws := rfl
@[simp] theorem State.start_ph (v : Variant) (b : Bool) : (s.start v b).ph = .check := rfl
@[simp] theorem State.start_bX (v : Variant) (b : Bool) : (s.start v b).bX = s.bX := rfl
@[simp] theorem State.start_bY (v : Variant) (b : Bool) : (s.start v b).bY = s.bY := rfl
@[simp] theorem State.start_blk (v : Variant) (b : Bool) : (s.start v b).blk = s.blk := rfl
@[simp] theorem State.start_wd (v : Variant) (b : Bool) : (s.start v b).wd = s.wd := rfl
@[simp] theorem State.start_ca (v : Variant) (b : Bool) : (s.start v b).ca = s.ca := rfl
@[simp] theorem State.start_cb (v : Variant) (b : Bool) : (s.start v b).cb = s.cb := rfl
@[simp] theorem State.start_mv (v : Variant) (b : Bool) : (s.start v b).mv = s.mv := rfl
@[simp] theorem State.start_mm (v : Variant) (b : Bool) : (s.start v b).mm = s.mm := rfl
@[simp] theorem State.start_ua (v : Variant) (b : Bool) : (s.start v b).ua = s.ua := rfl
@[simp] theorem State.start_ub (v : Variant) (b : Bool) : (s.start v b).ub = s.ub := rfl
@[simp] theorem State.start_tile (v : Variant) (b : Bool) : (s.start v b).tile = s.tile := rfl
@[simp] theorem State.start_tmp (v : Variant) (b : Bool) : (s.start v b).tmp = s.tmp := rfl
@[simp] theorem State.start_strat (v : Variant) (b : Bool) : (s.start v b).strat = s.strat := rfl
@[simp] theorem State.start_mem (v : Variant) (b : Bool) : (s.start v b).mem = s.mem := rfl
@[simp] theorem State.start_seq (v : Variant) (b : Bool) : (s.start v b).seq = 0 := rfl
@[simp] theorem State.start_ix (v : Variant) (b : Bool) : (s.start v b).ix = s.ix := rfl
@[simp] theorem State.start_weight (v : Variant) (b : Bool) : (s.start v b).weight = s.weight := rfl
@[simp] theorem State.start_hostQ (v : Variant) (b : Bool) : (s.start v b).hostQ = s.hostQ := rfl
@[simp] theorem State.start_granularity (v : Variant) (b : Bool) : (s.start v b).granularity = s.granularity := rfl
@[simp] theorem State.start_allocGiven (v : Variant) (b : Bool) : (s.start v b).allocGiven = s.allocGiven := rfl
@[simp] theorem State.start_draws (v : Variant) (b : Bool) : (s.start v b).draws = s.draws + 1 := rfl

/-- START latches the record and leaves the derived configuration to CHECK (R322, R34). -/
@[simp] theorem State.start_cfg (v : Variant) (b : Bool) :
    (s.start v b).cfg =
      { s.cfg with
        variant := v, is2bpp := b, width := s.cmd.width, height := s.cmd.height, inSp := s.cmd.inSp
        outSp := s.cmd.outSp } := rfl

/-! ## `putByte`: only host memory or `TMP` changes -/

@[simp] theorem State.putByte_pixelOrder (sp : Target) (o : Nat) (v : Byte) : (s.putByte sp o v).pixelOrder = s.pixelOrder := by cases sp <;> rfl
@[simp] theorem State.putByte_mortonLow (sp : Target) (o : Nat) (v : Byte) : (s.putByte sp o v).mortonLow = s.mortonLow := by cases sp <;> rfl
@[simp] theorem State.putByte_cmd (sp : Target) (o : Nat) (v : Byte) : (s.putByte sp o v).cmd = s.cmd := by cases sp <;> rfl
@[simp] theorem State.putByte_fault (sp : Target) (o : Nat) (v : Byte) : (s.putByte sp o v).fault = s.fault := by cases sp <;> rfl
@[simp] theorem State.putByte_result (sp : Target) (o : Nat) (v : Byte) : (s.putByte sp o v).result = s.result := by cases sp <;> rfl
@[simp] theorem State.putByte_ph (sp : Target) (o : Nat) (v : Byte) : (s.putByte sp o v).ph = s.ph := by cases sp <;> rfl
@[simp] theorem State.putByte_cfg (sp : Target) (o : Nat) (v : Byte) : (s.putByte sp o v).cfg = s.cfg := by cases sp <;> rfl
@[simp] theorem State.putByte_bX (sp : Target) (o : Nat) (v : Byte) : (s.putByte sp o v).bX = s.bX := by cases sp <;> rfl
@[simp] theorem State.putByte_bY (sp : Target) (o : Nat) (v : Byte) : (s.putByte sp o v).bY = s.bY := by cases sp <;> rfl
@[simp] theorem State.putByte_blk (sp : Target) (o : Nat) (v : Byte) : (s.putByte sp o v).blk = s.blk := by cases sp <;> rfl
@[simp] theorem State.putByte_wd (sp : Target) (o : Nat) (v : Byte) : (s.putByte sp o v).wd = s.wd := by cases sp <;> rfl
@[simp] theorem State.putByte_ca (sp : Target) (o : Nat) (v : Byte) : (s.putByte sp o v).ca = s.ca := by cases sp <;> rfl
@[simp] theorem State.putByte_cb (sp : Target) (o : Nat) (v : Byte) : (s.putByte sp o v).cb = s.cb := by cases sp <;> rfl
@[simp] theorem State.putByte_mv (sp : Target) (o : Nat) (v : Byte) : (s.putByte sp o v).mv = s.mv := by cases sp <;> rfl
@[simp] theorem State.putByte_mm (sp : Target) (o : Nat) (v : Byte) : (s.putByte sp o v).mm = s.mm := by cases sp <;> rfl
@[simp] theorem State.putByte_ua (sp : Target) (o : Nat) (v : Byte) : (s.putByte sp o v).ua = s.ua := by cases sp <;> rfl
@[simp] theorem State.putByte_ub (sp : Target) (o : Nat) (v : Byte) : (s.putByte sp o v).ub = s.ub := by cases sp <;> rfl
@[simp] theorem State.putByte_tile (sp : Target) (o : Nat) (v : Byte) : (s.putByte sp o v).tile = s.tile := by cases sp <;> rfl
@[simp] theorem State.putByte_strat (sp : Target) (o : Nat) (v : Byte) : (s.putByte sp o v).strat = s.strat := by cases sp <;> rfl
@[simp] theorem State.putByte_seq (sp : Target) (o : Nat) (v : Byte) : (s.putByte sp o v).seq = s.seq := by cases sp <;> rfl
@[simp] theorem State.putByte_ix (sp : Target) (o : Nat) (v : Byte) : (s.putByte sp o v).ix = s.ix := by cases sp <;> rfl
@[simp] theorem State.putByte_weight (sp : Target) (o : Nat) (v : Byte) : (s.putByte sp o v).weight = s.weight := by cases sp <;> rfl
@[simp] theorem State.putByte_hostQ (sp : Target) (o : Nat) (v : Byte) : (s.putByte sp o v).hostQ = s.hostQ := by cases sp <;> rfl
@[simp] theorem State.putByte_granularity (sp : Target) (o : Nat) (v : Byte) : (s.putByte sp o v).granularity = s.granularity := by cases sp <;> rfl
@[simp] theorem State.putByte_allocGiven (sp : Target) (o : Nat) (v : Byte) : (s.putByte sp o v).allocGiven = s.allocGiven := by cases sp <;> rfl
@[simp] theorem State.putByte_draws (sp : Target) (o : Nat) (v : Byte) : (s.putByte sp o v).draws = s.draws := by cases sp <;> rfl
@[simp] theorem State.putByte_out_mem (o : Nat) (v : Byte) :
    (s.putByte .out o v).mem = Memory.write s.mem (s.cfg.outSp.base + o) v := rfl
@[simp] theorem State.putByte_out_tmp (o : Nat) (v : Byte) : (s.putByte .out o v).tmp = s.tmp := rfl
@[simp] theorem State.putByte_tmp_mem (o : Nat) (v : Byte) : (s.putByte .tmp o v).mem = s.mem := rfl
@[simp] theorem State.putByte_tmp_tmp (o : Nat) (v : Byte) :
    (s.putByte .tmp o v).tmp = s.tmp.map fun t => t.write o v := rfl

/-! ## `setColorBuf`: only the buffer of the slot changes -/

@[simp] theorem State.setColorBuf_pixelOrder (c : ColorSlot) (u : List (Option Pixel128)) : (s.setColorBuf c u).pixelOrder = s.pixelOrder := by cases c <;> rfl
@[simp] theorem State.setColorBuf_mortonLow (c : ColorSlot) (u : List (Option Pixel128)) : (s.setColorBuf c u).mortonLow = s.mortonLow := by cases c <;> rfl
@[simp] theorem State.setColorBuf_cmd (c : ColorSlot) (u : List (Option Pixel128)) : (s.setColorBuf c u).cmd = s.cmd := by cases c <;> rfl
@[simp] theorem State.setColorBuf_fault (c : ColorSlot) (u : List (Option Pixel128)) : (s.setColorBuf c u).fault = s.fault := by cases c <;> rfl
@[simp] theorem State.setColorBuf_result (c : ColorSlot) (u : List (Option Pixel128)) : (s.setColorBuf c u).result = s.result := by cases c <;> rfl
@[simp] theorem State.setColorBuf_ph (c : ColorSlot) (u : List (Option Pixel128)) : (s.setColorBuf c u).ph = s.ph := by cases c <;> rfl
@[simp] theorem State.setColorBuf_cfg (c : ColorSlot) (u : List (Option Pixel128)) : (s.setColorBuf c u).cfg = s.cfg := by cases c <;> rfl
@[simp] theorem State.setColorBuf_bX (c : ColorSlot) (u : List (Option Pixel128)) : (s.setColorBuf c u).bX = s.bX := by cases c <;> rfl
@[simp] theorem State.setColorBuf_bY (c : ColorSlot) (u : List (Option Pixel128)) : (s.setColorBuf c u).bY = s.bY := by cases c <;> rfl
@[simp] theorem State.setColorBuf_blk (c : ColorSlot) (u : List (Option Pixel128)) : (s.setColorBuf c u).blk = s.blk := by cases c <;> rfl
@[simp] theorem State.setColorBuf_wd (c : ColorSlot) (u : List (Option Pixel128)) : (s.setColorBuf c u).wd = s.wd := by cases c <;> rfl
@[simp] theorem State.setColorBuf_ca (c : ColorSlot) (u : List (Option Pixel128)) : (s.setColorBuf c u).ca = s.ca := by cases c <;> rfl
@[simp] theorem State.setColorBuf_cb (c : ColorSlot) (u : List (Option Pixel128)) : (s.setColorBuf c u).cb = s.cb := by cases c <;> rfl
@[simp] theorem State.setColorBuf_mv (c : ColorSlot) (u : List (Option Pixel128)) : (s.setColorBuf c u).mv = s.mv := by cases c <;> rfl
@[simp] theorem State.setColorBuf_mm (c : ColorSlot) (u : List (Option Pixel128)) : (s.setColorBuf c u).mm = s.mm := by cases c <;> rfl
@[simp] theorem State.setColorBuf_tile (c : ColorSlot) (u : List (Option Pixel128)) : (s.setColorBuf c u).tile = s.tile := by cases c <;> rfl
@[simp] theorem State.setColorBuf_tmp (c : ColorSlot) (u : List (Option Pixel128)) : (s.setColorBuf c u).tmp = s.tmp := by cases c <;> rfl
@[simp] theorem State.setColorBuf_strat (c : ColorSlot) (u : List (Option Pixel128)) : (s.setColorBuf c u).strat = s.strat := by cases c <;> rfl
@[simp] theorem State.setColorBuf_mem (c : ColorSlot) (u : List (Option Pixel128)) : (s.setColorBuf c u).mem = s.mem := by cases c <;> rfl
@[simp] theorem State.setColorBuf_seq (c : ColorSlot) (u : List (Option Pixel128)) : (s.setColorBuf c u).seq = s.seq := by cases c <;> rfl
@[simp] theorem State.setColorBuf_ix (c : ColorSlot) (u : List (Option Pixel128)) : (s.setColorBuf c u).ix = s.ix := by cases c <;> rfl
@[simp] theorem State.setColorBuf_weight (c : ColorSlot) (u : List (Option Pixel128)) : (s.setColorBuf c u).weight = s.weight := by cases c <;> rfl
@[simp] theorem State.setColorBuf_hostQ (c : ColorSlot) (u : List (Option Pixel128)) : (s.setColorBuf c u).hostQ = s.hostQ := by cases c <;> rfl
@[simp] theorem State.setColorBuf_granularity (c : ColorSlot) (u : List (Option Pixel128)) : (s.setColorBuf c u).granularity = s.granularity := by cases c <;> rfl
@[simp] theorem State.setColorBuf_allocGiven (c : ColorSlot) (u : List (Option Pixel128)) : (s.setColorBuf c u).allocGiven = s.allocGiven := by cases c <;> rfl
@[simp] theorem State.setColorBuf_draws (c : ColorSlot) (u : List (Option Pixel128)) : (s.setColorBuf c u).draws = s.draws := by cases c <;> rfl
@[simp] theorem State.setColorBuf_same (c : ColorSlot) (u : List (Option Pixel128)) : (s.setColorBuf c u).colorBuf c = u := by
  cases c <;> rfl
@[simp] theorem State.setColorBuf_a_ub (u : List (Option Pixel128)) : (s.setColorBuf .a u).ub = s.ub := rfl
@[simp] theorem State.setColorBuf_b_ua (u : List (Option Pixel128)) : (s.setColorBuf .b u).ua = s.ua := rfl
@[simp] theorem State.setColorBuf_a_ua (u : List (Option Pixel128)) : (s.setColorBuf .a u).ua = u := rfl
@[simp] theorem State.setColorBuf_b_ub (u : List (Option Pixel128)) : (s.setColorBuf .b u).ub = u := rfl

/-! ## Blocks -/

@[simp] theorem corners_get_set_same {α : Type} (c : Corners α) (k : Corner) (v : α) : (c.set k v).get k = v := by
  cases k <;> rfl

@[simp] theorem corners_get_set_other {α : Type} (c : Corners α) (k k' : Corner) (v : α) (h : k' ≠ k) :
    (c.set k v).get k' = c.get k' := by
  cases k <;> cases k' <;> first | rfl | exact absurd rfl h

@[simp] theorem corners_get_map {α β : Type} (c : Corners α) (f : α → β) (k : Corner) : (c.map f).get k = f (c.get k) := by
  cases k <;> rfl

end Sys2Proof.Machine
end

