-- ==== Sys2Proof/Laws/Memory.lean ====
section
/-! SUPPORT. The laws of the cell lists: what a read gives after a write, and that every operation of host memory and of
`TMP` keeps the canonical form. -/

namespace Sys2Proof.Machine

/-! ## Cell lists -/

/-- Strictly rising addresses, as a pairwise relation. -/
theorem Cells.sorted_iff (m : List Host.Cell) : Cells.sorted m = true ↔ m.Pairwise fun c d => c.1 < d.1 := by
  induction m with
  | nil => simp [Cells.sorted]
  | cons c m ih =>
    cases m with
    | nil => simp [Cells.sorted]
    | cons d m =>
      obtain ⟨k, w⟩ := c
      obtain ⟨k', w'⟩ := d
      simp only [Cells.sorted, Bool.and_eq_true, decide_eq_true_eq, ih, List.pairwise_cons, List.mem_cons, forall_eq_or_imp]
      constructor
      · rintro ⟨h, h2, h3⟩
        exact ⟨⟨h, fun c hc => Nat.lt_trans h (h2 c hc)⟩, h2, h3⟩
      · rintro ⟨⟨h, -⟩, h2, h3⟩
        exact ⟨h, h2, h3⟩

/-- A lookup after an insertion. -/
theorem Cells.lookup_insert (m : List Host.Cell) (a b : Nat) (v : Byte) :
    Cells.lookup (Cells.insert m a v) b = if b = a then some v else Cells.lookup m b := by
  induction m with
  | nil =>
    by_cases h : b = a
    · simp [Cells.insert, Cells.lookup, h]
    · simp [Cells.insert, Cells.lookup, h, Ne.symm h]
  | cons c m ih =>
    obtain ⟨k, w⟩ := c
    simp only [Cells.insert]
    split
    · by_cases h : b = a
      · simp [Cells.lookup, h]
      · simp [Cells.lookup, h, Ne.symm h]
    · split
      · rename_i h
        by_cases hb : b = a
        · simp [Cells.lookup, hb]
        · simp [Cells.lookup, ← h, hb, Ne.symm hb]
      · by_cases hk : k = b
        · have : b ≠ a := by omega
          simp [Cells.lookup, hk, this]
        · simp [Cells.lookup, hk, ih]

/-- Nothing is listed at an address below every listed one. -/
theorem Cells.lookup_eq_none (m : List Host.Cell) (a : Nat) (h : ∀ c ∈ m, c.1 ≠ a) : Cells.lookup m a = none := by
  induction m with
  | nil => rfl
  | cons c m ih =>
    obtain ⟨k, w⟩ := c
    simp only [List.mem_cons, forall_eq_or_imp] at h
    simp [Cells.lookup, h.1, ih h.2]

/-- A lookup after an erasure, in a list with rising addresses. -/
theorem Cells.lookup_erase (m : List Host.Cell) (a b : Nat) (hm : Cells.sorted m = true) :
    Cells.lookup (Cells.erase m a) b = if b = a then none else Cells.lookup m b := by
  rw [Cells.sorted_iff] at hm
  induction m with
  | nil => simp [Cells.erase, Cells.lookup]
  | cons c m ih =>
    obtain ⟨k, w⟩ := c
    rw [List.pairwise_cons] at hm
    simp only [Cells.erase]
    split
    · rename_i h
      by_cases hb : b = a
      · have : Cells.lookup m b = none :=
          Cells.lookup_eq_none m b fun c hc => by have := hm.1 c hc; omega
        rw [this]
        simp [hb]
      · have : k ≠ b := by omega
        simp [Cells.lookup, hb, this]
    · rename_i h
      by_cases hk : k = b
      · have : b ≠ a := by omega
        simp [Cells.lookup, hk, this]
      · simp [Cells.lookup, hk, ih hm.2]

/-- A lookup away from an erased address, in any list. -/
theorem Cells.lookup_erase_other (m : List Host.Cell) (a b : Nat) (h : b ≠ a) :
    Cells.lookup (Cells.erase m a) b = Cells.lookup m b := by
  induction m with
  | nil => rfl
  | cons c m ih =>
    obtain ⟨k, w⟩ := c
    simp only [Cells.erase]
    split
    · have : k ≠ b := by omega
      simp [Cells.lookup, this]
    · simp [Cells.lookup, ih]

/-- What an insertion lists. -/
theorem Cells.mem_insert (m : List Host.Cell) (a : Nat) (v : Byte) (c : Host.Cell) (h : c ∈ Cells.insert m a v) :
    c = (a, v) ∨ c ∈ m := by
  induction m with
  | nil => simpa [Cells.insert] using h
  | cons d m ih =>
    obtain ⟨k, w⟩ := d
    simp only [Cells.insert] at h
    split at h
    · simpa using h
    · split at h
      · rcases List.mem_cons.mp h with h | h
        · exact .inl h
        · exact .inr (List.mem_cons_of_mem _ h)
      · rcases List.mem_cons.mp h with h | h
        · exact .inr (h ▸ List.mem_cons_self)
        · exact (ih h).imp_right (List.mem_cons_of_mem _)

/-- What is left after an erasure was there before. -/
theorem Cells.mem_erase (m : List Host.Cell) (a : Nat) (c : Host.Cell) (h : c ∈ Cells.erase m a) : c ∈ m := by
  induction m with
  | nil => exact h
  | cons d m ih =>
    obtain ⟨k, w⟩ := d
    simp only [Cells.erase] at h
    split at h
    · exact List.mem_cons_of_mem _ h
    · rcases List.mem_cons.mp h with h | h
      · exact h ▸ List.mem_cons_self
      · exact List.mem_cons_of_mem _ (ih h)

/-- An insertion keeps the addresses rising. -/
theorem Cells.sorted_insert (m : List Host.Cell) (a : Nat) (v : Byte) (hm : Cells.sorted m = true) :
    Cells.sorted (Cells.insert m a v) = true := by
  rw [Cells.sorted_iff] at hm ⊢
  induction m with
  | nil => simp [Cells.insert]
  | cons d m ih =>
    obtain ⟨k, w⟩ := d
    have hm' := List.pairwise_cons.mp hm
    simp only [Cells.insert]
    split
    · rename_i h
      refine List.pairwise_cons.mpr ⟨fun c hc => ?_, hm⟩
      rcases List.mem_cons.mp hc with rfl | hc
      · exact h
      · exact Nat.lt_trans h (hm'.1 c hc)
    · split
      · rename_i h
        subst h
        exact List.pairwise_cons.mpr hm'
      · rename_i h1 h2
        refine List.pairwise_cons.mpr ⟨fun c hc => ?_, ih hm'.2⟩
        rcases Cells.mem_insert m a v c hc with rfl | hc
        · show k < a
          omega
        · exact hm'.1 c hc

/-- An erasure keeps the addresses rising. -/
theorem Cells.sorted_erase (m : List Host.Cell) (a : Nat) (hm : Cells.sorted m = true) :
    Cells.sorted (Cells.erase m a) = true := by
  rw [Cells.sorted_iff] at hm ⊢
  induction m with
  | nil => exact hm
  | cons d m ih =>
    obtain ⟨k, w⟩ := d
    rw [List.pairwise_cons] at hm
    simp only [Cells.erase]
    split
    · exact hm.2
    · exact List.pairwise_cons.mpr ⟨fun c hc => hm.1 c (Cells.mem_erase m a c hc), ih hm.2⟩

/-! ## Host memory -/

/-- The canonical form, spelled out. -/
theorem Memory.wf_iff (m : List Host.Cell) :
    Memory.wf m = true ↔ Cells.sorted m = true ∧ ∀ c ∈ m, c.2 ≠ Memory.unlisted := by
  simp [Memory.wf]

/-- A write keeps the canonical form. -/
theorem Memory.wf_write (m : List Host.Cell) (a : Nat) (v : Byte) (h : Memory.wf m = true) :
    Memory.wf (Memory.write m a v) = true := by
  rw [Memory.wf_iff] at h ⊢
  unfold Memory.write
  split
  · exact ⟨Cells.sorted_erase m a h.1, fun c hc => h.2 c (Cells.mem_erase m a c hc)⟩
  · rename_i hv
    refine ⟨Cells.sorted_insert m a v h.1, fun c hc => ?_⟩
    rcases Cells.mem_insert m a v c hc with rfl | hc
    · exact hv
    · exact h.2 c hc

/-- A read after a write, in canonical memory. -/
theorem Memory.read_write (m : List Host.Cell) (a b : Nat) (v : Byte) (h : Memory.wf m = true) :
    Memory.read (Memory.write m a v) b = if b = a then v else Memory.read m b := by
  unfold Memory.write Memory.read
  split
  · rename_i hv
    rw [Cells.lookup_erase m a b ((Memory.wf_iff m).mp h).1]
    split <;> simp [hv]
  · rw [Cells.lookup_insert]
    split <;> simp

/-- A write leaves every other byte alone, in any memory. -/
theorem Memory.read_write_other (m : List Host.Cell) (a b : Nat) (v : Byte) (h : b ≠ a) :
    Memory.read (Memory.write m a v) b = Memory.read m b := by
  unfold Memory.write Memory.read
  split
  · rw [Cells.lookup_erase_other m a b h]
  · rw [Cells.lookup_insert]
    simp [h]

/-- Lists with strictly rising addresses and the same lookups are the same list. -/
theorem Cells.ext (m m' : List Host.Cell) (hm : Cells.sorted m = true) (hm' : Cells.sorted m' = true)
    (h : ∀ a, Cells.lookup m a = Cells.lookup m' a) : m = m' := by
  rw [Cells.sorted_iff] at hm hm'
  induction m generalizing m' with
  | nil =>
    cases m' with
    | nil => rfl
    | cons c m' =>
      have := h c.1
      simp [Cells.lookup] at this
  | cons c m ih =>
    cases m' with
    | nil =>
      have := h c.1
      simp [Cells.lookup] at this
    | cons d m' =>
      obtain ⟨k, v⟩ := c
      obtain ⟨k', v'⟩ := d
      rw [List.pairwise_cons] at hm hm'
      have low : ∀ (x : Nat) (l : List Host.Cell), (∀ c ∈ l, x < c.1) → ∀ a, a ≤ x → Cells.lookup l a = none :=
        fun x l hl a ha => Cells.lookup_eq_none l a fun c hc => by have := hl c hc; omega
      have hk : k = k' := by
        rcases Nat.lt_trichotomy k k' with hlt | heq | hgt
        · have := h k
          simp only [Cells.lookup, if_true] at this
          rw [if_neg (by omega), low k' m' hm'.1 k (by omega)] at this
          cases this
        · exact heq
        · have := h k'
          simp only [Cells.lookup, if_true] at this
          rw [if_neg (by omega), low k m hm.1 k' (by omega)] at this
          cases this
      subst hk
      have hv : v = v' := by
        have := h k
        simpa only [Cells.lookup, if_true, Option.some.injEq] using this
      subst hv
      rw [ih m' hm.2 hm'.2 fun a => ?_]
      by_cases ha : a ≤ k
      · rw [low k m hm.1 a ha, low k m' hm'.1 a ha]
      · have := h a
        simpa only [Cells.lookup, if_neg (show ¬k = a by omega)] using this

/-- Canonical memories that read alike are equal data. -/
theorem Memory.ext (m m' : List Host.Cell) (hm : Memory.wf m = true) (hm' : Memory.wf m' = true)
    (h : ∀ a, Memory.read m a = Memory.read m' a) : m = m' := by
  rw [Memory.wf_iff] at hm hm'
  refine Cells.ext m m' hm.1 hm'.1 fun a => ?_
  have key : ∀ l : List Host.Cell, (∀ c ∈ l, c.2 ≠ Memory.unlisted) → ∀ v, Cells.lookup l a = some v → v ≠ Memory.unlisted := by
    intro l hl v hv
    induction l with
    | nil => cases hv
    | cons c l ih =>
      obtain ⟨k, w⟩ := c
      simp only [List.mem_cons, forall_eq_or_imp] at hl
      simp only [Cells.lookup] at hv
      split at hv
      · cases hv
        exact hl.1
      · exact ih hl.2 hv
  have hr := h a
  unfold Memory.read at hr
  cases h1 : Cells.lookup m a with
  | none =>
    cases h2 : Cells.lookup m' a with
    | none => rfl
    | some v =>
      rw [h1, h2] at hr
      exact absurd hr.symm (key m' hm'.2 v h2)
  | some v =>
    cases h2 : Cells.lookup m' a with
    | none =>
      rw [h1, h2] at hr
      exact absurd hr (key m hm.2 v h1)
    | some w =>
      rw [h1, h2] at hr
      exact congrArg some hr

/-! ## `TMP` -/

/-- The canonical form, spelled out. -/
theorem TmpRaster.wf_iff (t : TmpRaster) :
    t.wf = true ↔ Cells.sorted t.cells = true ∧ ∀ c ∈ t.cells, c.1 < t.size := by
  simp [TmpRaster.wf]

@[simp] theorem TmpRaster.write_size (t : TmpRaster) (o : Nat) (v : Byte) : (t.write o v).size = t.size := rfl

/-- A write inside the raster keeps the canonical form. -/
theorem TmpRaster.wf_write (t : TmpRaster) (o : Nat) (v : Byte) (h : t.wf = true) (ho : o < t.size) :
    (t.write o v).wf = true := by
  rw [TmpRaster.wf_iff] at h ⊢
  refine ⟨Cells.sorted_insert _ o v h.1, fun c hc => ?_⟩
  rcases Cells.mem_insert _ o v c hc with rfl | hc
  · exact ho
  · exact h.2 c hc

/-- A read after a write. -/
theorem TmpRaster.read_write (t : TmpRaster) (o b : Nat) (v : Byte) :
    (t.write o v).read b = if b = o then v else t.read b := by
  unfold TmpRaster.write TmpRaster.read
  simp only [Cells.lookup_insert]
  split <;> simp

/-- `TMP` as it is created is canonical. -/
theorem TmpRaster.wf_new (n : Nat) : (TmpRaster.mk n []).wf = true := rfl

end Sys2Proof.Machine
end

