-- ==== Sys2Proof/Laws/Ops.lean ====
section
/-! SUPPORT. What the shared operations can do: loops, the pixel store, and the fills of grids and buffers. -/

namespace Sys2Proof.Machine

/-! ## Sequencing -/

@[simp] theorem andThen_next (s : State) (f : State → Result) : andThen (.next s) f = f s := rfl

@[simp] theorem andThen_fault (e : Fault) (f : State → Result) : andThen (.fault e) f = .fault e := rfl

@[simp] theorem andThen_refused (e : Refusal) (f : State → Result) : andThen (.refused e) f = .refused e := rfl

theorem andThen_assoc (r : Result) (f g : State → Result) :
    andThen (andThen r f) g = andThen r fun s => andThen (f s) g := by
  cases r <;> rfl

/-- A sequence answers a next state exactly when both parts do. -/
theorem andThen_eq_next (r : Result) (f : State → Result) (t : State) :
    andThen r f = .next t ↔ ∃ u, r = .next u ∧ f u = .next t := by
  cases r <;> simp

theorem iter_succ {α : Type} (n : Nat) (f : Nat → α → α) (a : α) : iter (n + 1) f a = f n (iter n f a) := rfl

/-- A property of the start that each pass keeps holds at the end. -/
theorem iter_keeps {α : Type} (P : α → Prop) (n : Nat) (f : Nat → α → α) (a : α) (h0 : P a)
    (h : ∀ i x, i < n → P x → P (f i x)) : P (iter n f a) := by
  induction n with
  | zero => exact h0
  | succ n ih => exact h n _ (Nat.lt_succ_self n) (ih fun i x hi => h i x (Nat.lt_succ_of_lt hi))

/-- A property that grows with each pass. -/
theorem iter_builds {α : Type} (P : Nat → α → Prop) (n : Nat) (f : Nat → α → α) (a : α) (h0 : P 0 a)
    (h : ∀ i x, i < n → P i x → P (i + 1) (f i x)) : P n (iter n f a) := by
  induction n with
  | zero => exact h0
  | succ n ih => exact h n _ (Nat.lt_succ_self n) (ih fun i x hi => h i x (Nat.lt_succ_of_lt hi))

/-- A loop whose every pass goes on from the property goes on, and the property grows. -/
theorem iterM_builds (P : Nat → State → Prop) (n : Nat) (f : Nat → State → Result) (a : State) (h0 : P 0 a)
    (h : ∀ i x, i < n → P i x → ∃ y, f i x = .next y ∧ P (i + 1) y) : ∃ b, iterM n f a = .next b ∧ P n b := by
  induction n with
  | zero => exact ⟨a, rfl, h0⟩
  | succ n ih =>
    obtain ⟨b, hb, pb⟩ := ih fun i x hi => h i x (Nat.lt_succ_of_lt hi)
    obtain ⟨c, hc, pc⟩ := h n b (Nat.lt_succ_self n) pb
    exact ⟨c, by simp [iterM, hb, hc], pc⟩

/-! ## Stores -/

/-- Only host memory and `TMP` differ. -/
def State.StoreOnly (s t : State) : Prop := t = { s with mem := t.mem, tmp := t.tmp }

theorem State.StoreOnly.refl (s : State) : s.StoreOnly s := rfl

theorem State.StoreOnly.trans {s t u : State} (h : s.StoreOnly t) (h' : t.StoreOnly u) : s.StoreOnly u := by
  unfold State.StoreOnly at *
  rw [h] at h'
  exact h'

theorem State.storeOnly_putByte (s : State) (sp : Target) (o : Nat) (v : Byte) : s.StoreOnly (s.putByte sp o v) := by
  cases sp <;> rfl

theorem State.storeOnly_putBytes (s : State) (sp : Target) (o : Nat) (bs : List Byte) :
    s.StoreOnly (s.putBytes sp o bs) := by
  induction bs generalizing s o with
  | nil => exact State.StoreOnly.refl s
  | cons b bs ih => exact (s.storeOnly_putByte sp o b).trans (ih _ _)

theorem State.storeOnly_writePixel (s : State) (sp : Target) (w x y : Nat) (p : Pixel32) :
    s.StoreOnly (s.writePixel sp w x y p) := s.storeOnly_putBytes sp _ _

/-- The byte at an offset of a target raster. -/
def State.peek (s : State) (sp : Target) (o : Nat) : Byte :=
  match sp with
  | .out => Memory.read s.mem (s.cfg.outSp.base + o)
  | .tmp => match s.tmp with | some t => t.read o | none => Config.openTmpByte o

/-- What a store needs: canonical host memory, and a `TMP` to store in. -/
structure State.Storable (s : State) (sp : Target) : Prop where
  mem : Memory.wf s.mem = true
  tmp : sp = .tmp → s.tmp.isSome = true

theorem State.storable_putByte (s : State) (sp : Target) (o : Nat) (v : Byte) (h : s.Storable sp) :
    (s.putByte sp o v).Storable sp := by
  cases sp with
  | out => exact ⟨Memory.wf_write _ _ _ h.mem, by simp⟩
  | tmp => exact ⟨h.mem, fun _ => by simpa using h.tmp rfl⟩

/-- A byte of the target after a store of one byte. -/
theorem State.peek_putByte (s : State) (sp : Target) (o b : Nat) (v : Byte) (h : s.Storable sp) :
    (s.putByte sp o v).peek sp b = if b = o then v else s.peek sp b := by
  cases sp with
  | out =>
    simp only [State.peek, State.putByte_out_mem, State.putByte_cfg, Memory.read_write _ _ _ _ h.mem]
    simp
  | tmp =>
    obtain ⟨t, ht⟩ := Option.isSome_iff_exists.mp (h.tmp rfl)
    simp [State.peek, ht, TmpRaster.read_write]

theorem State.storable_putBytes (s : State) (sp : Target) (o : Nat) (bs : List Byte) (h : s.Storable sp) :
    (s.putBytes sp o bs).Storable sp := by
  induction bs generalizing s o with
  | nil => exact h
  | cons b bs ih => exact ih _ _ (s.storable_putByte sp o b h)

/-- A byte of the target after a store of several. -/
theorem State.peek_putBytes (s : State) (sp : Target) (o b : Nat) (bs : List Byte) (h : s.Storable sp) :
    (s.putBytes sp o bs).peek sp b = if o ≤ b ∧ b < o + bs.length then bs.getD (b - o) 0 else s.peek sp b := by
  induction bs generalizing s o with
  | nil =>
    have : ¬(o ≤ b ∧ b < o) := by omega
    simp [State.putBytes, this]
  | cons c bs ih =>
    rw [State.putBytes, ih _ _ (s.storable_putByte sp o c h), s.peek_putByte sp o b c h]
    simp only [List.length_cons]
    by_cases h1 : o + 1 ≤ b ∧ b < o + 1 + bs.length
    · have h2 : o ≤ b ∧ b < o + (bs.length + 1) := by omega
      have h3 : b - o = (b - (o + 1)) + 1 := by omega
      rw [if_pos h1, if_pos h2, h3, List.getD_cons_succ]
    · rw [if_neg h1]
      by_cases h4 : b = o
      · have h2 : o ≤ b ∧ b < o + (bs.length + 1) := by omega
        rw [if_pos h4, if_pos h2, h4, Nat.sub_self, List.getD_cons_zero]
      · have h2 : ¬(o ≤ b ∧ b < o + (bs.length + 1)) := by omega
        rw [if_neg h4, if_neg h2]

@[simp] theorem pixelBytes_length (o : PixelOrder) (p : Pixel32) : (pixelBytes o p).length = 4 := by cases o <;> rfl

theorem State.storable_writePixel (s : State) (sp : Target) (w x y : Nat) (p : Pixel32) (h : s.Storable sp) :
    (s.writePixel sp w x y p).Storable sp := s.storable_putBytes sp _ _ h

/-- A byte of the target after a pixel store (R65). -/
theorem State.peek_writePixel (s : State) (sp : Target) (w x y b : Nat) (p : Pixel32) (h : s.Storable sp) :
    (s.writePixel sp w x y p).peek sp b =
      if pixelOffset w x y ≤ b ∧ b < pixelOffset w x y + 4 then (pixelBytes s.pixelOrder p).getD (b - pixelOffset w x y) 0
      else s.peek sp b := by
  rw [State.writePixel, State.peek_putBytes _ _ _ _ _ h, pixelBytes_length]

/-- Host memory away from the bytes stored to `OUT` is unchanged, in any state. -/
theorem State.read_putBytes_out (s : State) (o : Nat) (bs : List Byte) (a : Nat)
    (h : a < s.cfg.outSp.base + o ∨ s.cfg.outSp.base + o + bs.length ≤ a) :
    Memory.read (s.putBytes .out o bs).mem a = Memory.read s.mem a := by
  induction bs generalizing s o with
  | nil => rfl
  | cons b bs ih =>
    simp only [List.length_cons] at h
    rw [State.putBytes, ih _ _ (by simp only [State.putByte_cfg]; omega), State.putByte_out_mem,
      Memory.read_write_other _ _ _ _ (by omega)]

/-- Stores to `TMP` leave host memory alone. -/
theorem State.mem_putBytes_tmp (s : State) (o : Nat) (bs : List Byte) : (s.putBytes .tmp o bs).mem = s.mem := by
  induction bs generalizing s o with
  | nil => rfl
  | cons b bs ih => rw [State.putBytes, ih, State.putByte_tmp_mem]

/-- Stores to `OUT` leave `TMP` alone. -/
theorem State.tmp_putBytes_out (s : State) (o : Nat) (bs : List Byte) : (s.putBytes .out o bs).tmp = s.tmp := by
  induction bs generalizing s o with
  | nil => rfl
  | cons b bs ih => rw [State.putBytes, ih, State.putByte_out_tmp]

/-! ## Grids and buffers -/

/-- The entries of a list after a fill of a quadrant. -/
theorem fillQuadrant_getElem? {α : Type} (w ox oy : Nat) (f : Nat → Nat → α → α) (g : List α) (i : Nat) :
    (fillQuadrant w ox oy f g)[i]? =
      g[i]?.map fun e =>
        if ox ≤ i / 8 ∧ i / 8 < ox + w ∧ oy ≤ i % 8 ∧ i % 8 < oy + 4 then f (i / 8 - ox) (i % 8 - oy) e else e := by
  simp only [fillQuadrant, List.getElem?_map, List.getElem?_zipIdx, Option.map_map]
  cases g[i]? <;> simp

@[simp] theorem fillQuadrant_length {α : Type} (w ox oy : Nat) (f : Nat → Nat → α → α) (g : List α) :
    (fillQuadrant w ox oy f g).length = g.length := by
  simp [fillQuadrant]

/-- The number of entry `[sx][sy]` gives the column and the row back. -/
theorem gridIndex_col (sx sy : Nat) (h : sy < 8) : gridIndex sx sy / 8 = sx := by
  unfold gridIndex
  omega

theorem gridIndex_row (sx sy : Nat) (h : sy < 8) : gridIndex sx sy % 8 = sy := by
  unfold gridIndex
  omega

/-- Two positions with the same number are the same. -/
theorem gridIndex_inj (sx sy sx' sy' : Nat) (h : sy < 8) (h' : sy' < 8) (e : gridIndex sx sy = gridIndex sx' sy') :
    sx = sx' ∧ sy = sy' := by
  unfold gridIndex at e
  omega

end Sys2Proof.Machine
end

