-- ==== Sys2Proof/Laws/Tile.lean ====
section
/-! SUPPORT. What the phases of one tile leave: the fetched words, the unpacked grids, the colour buffers, and the tile,
entry by entry. -/

namespace Sys2Proof.Machine

/-! ## FETCH -/

/-- The state FETCH leaves when its reads are inside `IN`. -/
def State.fetched (s : State) : State :=
  let s1 := s.beginTile.indexAll
  (s1.setWords (s1.ix.map s1.readWord)).enter .unpack

/-- The four storage indices of a tile lie inside `IN`. -/
def State.tileInside (s : State) : Bool :=
  let s1 := s.beginTile.indexAll
  s1.wordInside s1.ix.p && s1.wordInside s1.ix.q && s1.wordInside s1.ix.r && s1.wordInside s1.ix.s

/-- FETCH says where it goes on and where it stops (R257, R234, R295). -/
theorem fetchPhase_eq (s : State) :
    fetchPhase s =
      if s.orderDefined then if s.tileInside then .next s.fetched else .fault .wordOutsideIn
      else .fault .mortonNotPow2 := rfl

/-- A word read depends on host memory and the latched spaces alone. -/
theorem State.readWord_congr (s t : State) (k : Nat) (hm : t.mem = s.mem) (hc : t.cfg = s.cfg) :
    t.readWord k = s.readWord k := by
  simp only [State.readWord, State.readField, hm, hc]

/-- A storage index depends on the low axis and the latched configuration alone (R237). -/
theorem State.indexOf_congr (s t : State) (b : Nat × Nat) (hm : t.mortonLow = s.mortonLow) (hc : t.cfg = s.cfg) :
    t.indexOf b = s.indexOf b := by
  simp only [State.indexOf, hm, hc]

/-- A block's word depends on host memory, the low axis and the latched configuration alone. -/
theorem State.wordOfBlock_congr (s t : State) (b : Nat × Nat) (hm : t.mem = s.mem) (hl : t.mortonLow = s.mortonLow)
    (hc : t.cfg = s.cfg) : t.wordOfBlock b = s.wordOfBlock b := by
  simp only [State.wordOfBlock, State.indexOf_congr s t b hl hc, State.readWord_congr s t _ hm hc]

/-- The storage indices of a tile are those of its blocks. -/
theorem State.indexAll_ix (s : State) : s.indexAll.ix = s.blk.map s.indexOf := by
  simp only [State.indexAll, State.setIx_ix, Corners.set, Corners.map]

/-- Only the index registers change. -/
theorem State.indexAll_eq (s : State) : s.indexAll = { s with ix := s.indexAll.ix } := by
  simp only [State.indexAll, State.setIx]

/-- The words FETCH reads are those of the tile's blocks (R256, R257). -/
theorem State.fetched_wd (s : State) :
    s.fetched.wd = (neighbours s.bX s.bY s.cfg.gw s.cfg.gh).map s.wordOfBlock := by
  have hi : s.beginTile.indexAll.ix = (neighbours s.bX s.bY s.cfg.gw s.cfg.gh).map s.indexOf := by
    rw [State.indexAll_ix]
    simp only [State.beginTile, State.setBlk_blk, Corners.map]
    simp only [State.clearBuffers_mortonLow, State.clearBuffers_cfg, State.indexOf, State.setBlk_cfg,
      State.setBlk_mortonLow]
  have hr : ∀ k, s.beginTile.indexAll.readWord k = s.readWord k := fun k =>
    State.readWord_congr s _ k (by rw [State.indexAll_eq]; simp [State.beginTile]) (by rw [State.indexAll_eq]; simp [State.beginTile])
  simp only [State.fetched, State.enter_wd, State.setWords_wd, hi]
  simp only [Corners.map, hr, State.wordOfBlock]

/-- The other registers after FETCH. -/
theorem State.fetched_eq (s : State) :
    s.fetched =
      { s with
        ua := List.replicate 32 none, ub := List.replicate 32 none, tile := List.replicate 32 none
        blk := s.fetched.blk, ix := s.fetched.ix, wd := s.fetched.wd, ph := .unpack, seq := 0 } := by
  simp only [State.fetched, State.indexAll, State.beginTile, State.enter, State.setWords, State.setIx, State.setBlk,
    State.clearBuffers]

/-! ## UNPACK and INTERP -/

/-- What UNPACK leaves (R258): both colours of every word, and the grids of the four words alone. -/
theorem unpackPhase_eq (s : State) :
    unpackPhase s =
      { s with
        ca := s.wd.map fun k => extractA k.col
        cb := s.wd.map fun k => extractB s.cfg.variant k.col
        mv := (tileGrids s.cfg.is2bpp s.wd).mv
        mm := (tileGrids s.cfg.is2bpp s.wd).mm
        ph := .interp
        seq := 0 } := by
  simp only [unpackPhase, State.extract, State.unpackBlock, State.setCa, State.setCb, State.clearGrids, State.setGrids,
    State.enter, State.grids, Corners.set, Corners.get, Corners.map, tileGrids]

/-- What INTERP leaves (R197). -/
theorem interpPhase_eq (s : State) :
    interpPhase s =
      { s with
        ua := fillBuffer (blockWidth s.cfg.is2bpp) (interpTexel s.cfg.is2bpp s.ca) s.ua
        ub := fillBuffer (blockWidth s.cfg.is2bpp) (interpTexel s.cfg.is2bpp s.cb) s.ub
        ph := .compose
        seq := 0 } := by
  simp only [interpPhase, State.interpolate, State.setColorBuf, State.cornerColors, State.colorBuf, State.enter]

@[simp] theorem fillBuffer_length (w : Nat) (f : Nat → Nat → Pixel128) (u : List (Option Pixel128)) :
    (fillBuffer w f u).length = u.length := by
  simp [fillBuffer]

/-- An entry of a filled colour buffer. -/
theorem fillBuffer_getElem? (w : Nat) (f : Nat → Nat → Pixel128) (u : List (Option Pixel128)) (i : Nat) :
    (fillBuffer w f u)[i]? = u[i]?.map fun e => if i < w * 4 then some (f (texelCol w i) (texelRow w i)) else e := by
  simp only [fillBuffer, List.getElem?_map, List.getElem?_zipIdx, Option.map_map]
  cases u[i]? <;> simp

/-- A colour read from a filled buffer. -/
theorem colorAt_fillBuffer (c : ColorSlot) (w : Nat) (f : Nat → Nat → Pixel128) (u : List (Option Pixel128)) (i : Nat)
    (hi : i < w * 4) (hu : i < u.length) : colorAt c (fillBuffer w f u) i = f (texelCol w i) (texelRow w i) := by
  unfold colorAt
  rw [fillBuffer_getElem?, List.getElem?_eq_getElem hu]
  simp [hi]

/-! ## COMPOSE -/

/-- The pixel `ComposeTile` gives entry `j` (R210). -/
def State.composed (s : State) (j : Nat) : Pixel32 :=
  composeTexel s.cfg.variant
    (weightOf s.cfg.is2bpp s.grids (texelPos s.cfg.blockW j).1 (texelPos s.cfg.blockW j).2)
    (colorAt .a s.ua j) (colorAt .b s.ub j)

/-- One pass of `ComposeTile` changes the weight and one entry of `TILE`. -/
theorem State.composeEntry_eq (s : State) (j : Nat) :
    s.composeEntry j =
      { s with
        weight := weightOf s.cfg.is2bpp s.grids (texelPos s.cfg.blockW j).1 (texelPos s.cfg.blockW j).2
        tile := s.tile.set j (some (s.composed j)) } := rfl

/-- What COMPOSE leaves: the tile, entry by entry, and nothing else but the weight (R210, R216). -/
theorem composePhase_spec (s : State) :
    let t := composePhase s
    t = { s with tile := t.tile, weight := t.weight, ph := .scatter, seq := 0 } ∧ t.tile.length = s.tile.length ∧
      ∀ j, j < s.cfg.blockW * 4 → j < s.tile.length → t.tile[j]? = some (some (s.composed j)) := by
  have key : ∀ n : Nat,
      let t := iter n (fun j t => State.composeEntry t j) s
      t = { s with tile := t.tile, weight := t.weight } ∧ t.tile.length = s.tile.length ∧
        ∀ j, j < n → j < s.tile.length → t.tile[j]? = some (some (s.composed j)) := by
    intro n
    refine iter_builds
      (fun n t => t = { s with tile := t.tile, weight := t.weight } ∧ t.tile.length = s.tile.length ∧
        ∀ j, j < n → j < s.tile.length → t.tile[j]? = some (some (s.composed j))) n _ s ⟨rfl, rfl, by simp⟩ ?_
    rintro i t - ⟨h1, h2, h3⟩
    refine ⟨?_, ?_, ?_⟩
    · rw [State.composeEntry_eq]
      rw [h1]
    · simp [State.composeEntry_eq, h2]
    · intro j hj hl
      rw [State.composeEntry_eq]
      by_cases hji : j = i
      · subst hji
        have hl' : j < t.tile.length := h2 ▸ hl
        have : t.composed j = s.composed j := by rw [h1]; rfl
        simp [hl', this]
      · have : j < i := by omega
        simp only [List.getElem?_set_ne (Ne.symm hji)]
        exact h3 j this hl
  obtain ⟨h1, h2, h3⟩ := key (s.cfg.blockW * 4)
  refine ⟨?_, h2, h3⟩
  show State.enter _ _ = _
  rw [h1]
  rfl

/-! ## The tile -/

/-- The tile after the phases UNPACK, INTERP and COMPOSE of a tile whose buffers are empty: the pixel of each texel is
the closed form's, and nothing else but working registers changes (R258). -/
theorem tile_spec (s : State) (hw : s.cfg.blockW = blockWidth s.cfg.is2bpp) (hua : s.ua.length = 32)
    (hub : s.ub.length = 32) (ht : s.tile.length = 32) :
    let t := composePhase (interpPhase (unpackPhase s))
    t = { s with
          ca := t.ca, cb := t.cb, mv := t.mv, mm := t.mm, ua := t.ua, ub := t.ub, tile := t.tile, weight := t.weight
          ph := .scatter, seq := 0 } ∧
      t.tile.length = 32 ∧
      ∀ j, j < s.cfg.blockW * 4 →
        t.tile[j]? = some (some (tileTexel s.cfg.variant s.cfg.is2bpp s.wd (texelCol s.cfg.blockW j) (texelRow s.cfg.blockW j))) := by
  intro t
  have e : interpPhase (unpackPhase s) =
      { s with
        ca := (s.wd.map fun k => extractA k.col)
        cb := (s.wd.map fun k => extractB s.cfg.variant k.col)
        mv := (tileGrids s.cfg.is2bpp s.wd).mv, mm := (tileGrids s.cfg.is2bpp s.wd).mm
        ua := fillBuffer (blockWidth s.cfg.is2bpp) (interpTexel s.cfg.is2bpp (s.wd.map fun k => extractA k.col)) s.ua
        ub := fillBuffer (blockWidth s.cfg.is2bpp) (interpTexel s.cfg.is2bpp (s.wd.map fun k => extractB s.cfg.variant k.col)) s.ub
        ph := .compose, seq := 0 } := by
    rw [interpPhase_eq, unpackPhase_eq]
  obtain ⟨h1, h2, h3⟩ := composePhase_spec (interpPhase (unpackPhase s))
  change t = _ at h1
  change t.tile.length = _ at h2
  change ∀ j, _ → _ → t.tile[j]? = _ at h3
  rw [e] at h1 h2 h3
  clear_value t
  refine ⟨?_, h2.trans ht, ?_⟩
  · rw [h1]
  · intro j hj
    have hj32 : j < 32 := by
      rw [hw] at hj
      unfold blockWidth at hj
      split at hj <;> omega
    rw [h3 j hj (ht ▸ hj32)]
    rw [hw] at hj
    simp only [State.composed]
    rw [colorAt_fillBuffer _ _ _ _ _ hj (hua ▸ hj32), colorAt_fillBuffer _ _ _ _ _ hj (hub ▸ hj32), hw]
    rfl

end Sys2Proof.Machine
end

