-- ==== Sys2Proof/Laws/Color.lean ====
section
/-! SUPPORT. The values the extractor, the unpacker and the interpolator produce: the extractor's scale (R126), the codes
(R152), the closed form of the accumulator (R192) and the range of a narrowed channel (R196). -/

namespace Sys2Proof.Machine

/-! ## Colours (R126) -/

theorem widen5_le (v : BitVec 5) : (widen5 v).toNat ≤ 31 := by
  have := v.isLt
  simp only [widen5, BitVec.toNat_setWidth]
  omega

theorem widen4_eq (v : BitVec 4) : (widen4 v).toNat = 2 * v.toNat + v.toNat / 8 := by revert v; decide

theorem widen3_eq (v : BitVec 3) : (widen3 v).toNat = 4 * v.toNat + v.toNat / 2 := by revert v; decide

theorem alpha3_eq (v : BitVec 3) (b : BitVec 1) : (alpha3 v b).toNat = 2 * v.toNat + b.toNat := by revert v b; decide

theorem widen4_le (v : BitVec 4) : (widen4 v).toNat ≤ 31 := by
  have := v.isLt
  rw [widen4_eq]
  omega

theorem widen3_le (v : BitVec 3) : (widen3 v).toNat ≤ 31 := by
  have := v.isLt
  rw [widen3_eq]
  omega

theorem alpha3_le (v : BitVec 3) (b : BitVec 1) : (alpha3 v b).toNat ≤ 15 := by
  have := v.isLt
  have := b.isLt
  rw [alpha3_eq]
  omega

theorem colaOpq_onScale (r g : BitVec 5) (b : BitVec 4) : (colaOpq r g b).onScale :=
  ⟨widen5_le r, widen5_le g, widen4_le b, show (alphaOpaque).toNat ≤ 15 by decide⟩

theorem colaTrn_onScale (a : BitVec 3) (r g : BitVec 4) (b : BitVec 3) : (colaTrn a r g b).onScale :=
  ⟨widen4_le r, widen4_le g, widen3_le b, alpha3_le a 0⟩

theorem colbOpq_onScale (r g b : BitVec 5) : (colbOpq r g b).onScale :=
  ⟨widen5_le r, widen5_le g, widen5_le b, show (alphaOpaque).toNat ≤ 15 by decide⟩

theorem colbTrnI_onScale (a : BitVec 3) (r g b : BitVec 4) : (colbTrnI a r g b).onScale :=
  ⟨widen4_le r, widen4_le g, widen4_le b, alpha3_le a 0⟩

theorem colbTrnII_onScale (a : BitVec 3) (r g b : BitVec 4) : (colbTrnII a r g b).onScale :=
  ⟨widen4_le r, widen4_le g, widen4_le b, alpha3_le a 1⟩

theorem extractA_onScale (col : Word32) : (extractA col).onScale := by
  unfold extractA decodeColA
  cases opaqueA col
  · exact colaTrn_onScale _ _ _ _
  · exact colaOpq_onScale _ _ _

theorem extractB_onScale (v : Variant) (col : Word32) : (extractB v col).onScale := by
  unfold extractB decodeColB
  cases opaqueB col
  · cases v
    · exact colbTrnI_onScale _ _ _ _
    · exact colbTrnII_onScale _ _ _ _
  · exact colbOpq_onScale _ _ _

/-! ## Codes (R142 to R152) -/

/-- The codes of R39. -/
def isCode (c : Nat) : Bool := [0, 1, 2, 3, 4, 5, 8, 14].contains c

theorem code2_lt (m : Word32) (i : Nat) : code2 m i < 4 := (m.extractLsb' (2 * i) 2).isLt

theorem stdWeight_eq (c : Nat) (h : c < 4) : stdWeight c = [0, 3, 5, 8].getD c 0 := by
  revert h
  revert c
  decide

theorem std4_code (m : Word32) (x y c : Nat) (h : std4 m x y = some c) : isCode c = true := by
  cases h
  have : ∀ c, c < 4 → isCode (stdWeight c) = true := by decide
  exact this _ (code2_lt _ _)

theorem pt4_code (m : Word32) (x y c : Nat) (h : pt4 m x y = some c) : isCode c = true := by
  cases h
  have : ∀ c, c < 4 → isCode (ptWeightCode c) = true := by decide
  exact this _ (code2_lt _ _)

theorem direct2_code (m : Word32) (x y c : Nat) (h : direct2 m x y = some c) : isCode c = true := by
  cases h
  split <;> decide

theorem selectable2_code (m : Word32) (x y c : Nat) (h : selectable2 m x y = some c) : isCode c = true := by
  unfold selectable2 at h
  split at h
  · cases h
  · cases h
    have : ∀ c, c < 4 → isCode c = true := by decide
    exact this _ (code2_lt _ _)

/-- A fill with codes of R39 keeps the codes of R39. -/
theorem fillGrids_codes (w : Nat) (k : Corner) (f : Nat → Nat → Option Nat) (tag : ModTag) (g : Grids)
    (hf : ∀ x y c, f x y = some c → isCode c = true) (hg : ∀ c, some c ∈ g.mv → isCode c = true) :
    ∀ c, some c ∈ (fillGrids w k f tag g).mv → isCode c = true := by
  intro c hc
  obtain ⟨i, hi⟩ := List.mem_iff_getElem?.mp hc
  simp only [fillGrids, fillQuadrant_getElem?] at hi
  cases he : g.mv[i]? with
  | none =>
    rw [he] at hi
    cases hi
  | some e =>
    rw [he] at hi
    have hm : e ∈ g.mv := List.mem_iff_getElem?.mpr ⟨i, he⟩
    simp only [Option.map_some, Option.some.injEq] at hi
    split at hi
    · cases hx : f (i / 8 - (quadrant w k).1) (i % 8 - (quadrant w k).2) with
      | none =>
        rw [hx] at hi
        exact hg c (hi ▸ hm)
      | some d =>
        rw [hx] at hi
        cases hi
        exact hf _ _ _ hx
    · exact hg c (hi ▸ hm)

/-- A modulation operation keeps the codes of R39. -/
theorem unpackOp_codes (i : Instr) (g : Grids) (hg : ∀ c, some c ∈ g.mv → isCode c = true) :
    ∀ c, some c ∈ (unpackOp i g).mv → isCode c = true := by
  unfold unpackOp
  split
  · exact fillGrids_codes _ _ _ _ _ (std4_code _) hg
  · exact fillGrids_codes _ _ _ _ _ (pt4_code _) hg
  · exact fillGrids_codes _ _ _ _ _ (direct2_code _) hg
  · exact fillGrids_codes _ _ _ _ _ (selectable2_code _) hg
  · exact fillGrids_codes _ _ _ _ _ (selectable2_code _) hg
  · exact fillGrids_codes _ _ _ _ _ (selectable2_code _) hg
  · exact hg

/-! ## The accumulator (R191 to R193) -/

theorem edgeAt_eq (w : Nat) (v d : Int) (c : Nat) : edgeAt w v d c = w * v + c * d := by
  induction c with
  | zero => simp [edgeAt, iter]
  | succ c ih =>
    have h : edgeAt w v d (c + 1) = edgeAt w v d c + d := rfl
    rw [h, ih]
    push_cast
    ring

/-- The loop of R191 gives the closed form of R192. -/
theorem accAt_eq (w : Nat) (p q r s : Int) (c n : Nat) :
    accAt w p q r s c n = (w - c) * (4 - n) * p + c * (4 - n) * q + (w - c) * n * r + c * n * s := by
  have h : ∀ (a d : Int) (n : Nat), iter n (fun _ acc => acc + d) a = a + n * d := by
    intro a d n
    induction n with
    | zero => simp [iter]
    | succ n ih =>
      rw [iter_succ, ih]
      push_cast
      ring
  simp only [accAt, h, edgeAt_eq]
  ring

/-- The bounds of R193. -/
theorem accAt_range (w : Nat) (p q r s m : Int) (c n : Nat) (hc : c ≤ w) (hn : n ≤ 4) (hp : 0 ≤ p ∧ p ≤ m)
    (hq : 0 ≤ q ∧ q ≤ m) (hr : 0 ≤ r ∧ r ≤ m) (hs : 0 ≤ s ∧ s ≤ m) :
    0 ≤ accAt w p q r s c n ∧ accAt w p q r s c n ≤ 4 * w * m := by
  rw [accAt_eq]
  have h1 : (0 : Int) ≤ (w - c) * (4 - n) := mul_nonneg (by omega) (by omega)
  have h2 : (0 : Int) ≤ c * (4 - n) := mul_nonneg (by omega) (by omega)
  have h3 : (0 : Int) ≤ (w - c) * n := mul_nonneg (by omega) (by omega)
  have h4 : (0 : Int) ≤ c * n := mul_nonneg (by omega) (by omega)
  constructor
  · have := mul_nonneg h1 hp.1
    have := mul_nonneg h2 hq.1
    have := mul_nonneg h3 hr.1
    have := mul_nonneg h4 hs.1
    omega
  · have a1 := mul_le_mul_of_nonneg_left hp.2 h1
    have a2 := mul_le_mul_of_nonneg_left hq.2 h2
    have a3 := mul_le_mul_of_nonneg_left hr.2 h3
    have a4 := mul_le_mul_of_nonneg_left hs.2 h4
    have e : (4 : Int) * w * m = (w - c) * (4 - n) * m + c * (4 - n) * m + (w - c) * n * m + c * n * m := by ring
    omega

/-! ## Narrowing (R194 to R196) -/

theorem narrowRgb4_range (a : Int) (h0 : 0 ≤ a) (h1 : a ≤ 496) : 0 ≤ narrowRgb4 a ∧ narrowRgb4 a ≤ 255 := by
  simp only [narrowRgb4, Int.shiftRight_eq_div_pow]
  omega

theorem narrowA4_range (a : Int) (h0 : 0 ≤ a) (h1 : a ≤ 240) : 0 ≤ narrowA4 a ∧ narrowA4 a ≤ 255 := by
  simp only [narrowA4, Int.shiftRight_eq_div_pow]
  omega

theorem narrowRgb2_range (a : Int) (h0 : 0 ≤ a) (h1 : a ≤ 992) : 0 ≤ narrowRgb2 a ∧ narrowRgb2 a ≤ 255 := by
  simp only [narrowRgb2, Int.shiftRight_eq_div_pow]
  omega

theorem narrowA2_range (a : Int) (h0 : 0 ≤ a) (h1 : a ≤ 480) : 0 ≤ narrowA2 a ∧ narrowA2 a ≤ 255 := by
  simp only [narrowA2, Int.shiftRight_eq_div_pow]
  omega

theorem channel_toNat (v : Int) (h0 : 0 ≤ v) (h1 : v ≤ 255) : ((channel v).toNat : Int) = v := by
  simp only [channel, BitVec.toNat_ofInt]
  omega

/-- A channel of four colours on the scale. -/
theorem chan_range (v : Byte) (m : Nat) (h : v.toNat ≤ m) : 0 ≤ chan v ∧ chan v ≤ m := by
  unfold chan
  omega

/-- Every interpolated channel of colours on the extractor's scale is in `[0, 255]` (R196). -/
theorem interpTexel_inByte (b : Bool) (k : Corners Pixel32) (c n : Nat) (hc : c ≤ blockWidth b) (hn : n ≤ 4)
    (hk : ∀ i, (k.get i).onScale) : (interpTexel b k c n).inByte := by
  obtain ⟨p1, p2, p3, p4⟩ := hk .p
  obtain ⟨q1, q2, q3, q4⟩ := hk .q
  obtain ⟨r1, r2, r3, r4⟩ := hk .r
  obtain ⟨s1, s2, s3, s4⟩ := hk .s
  simp only [Corners.get] at p1 p2 p3 p4 q1 q2 q3 q4 r1 r2 r3 r4 s1 s2 s3 s4
  have key : ∀ (w m : Nat) (f : Pixel32 → Byte), c ≤ w → (f k.p).toNat ≤ m → (f k.q).toNat ≤ m → (f k.r).toNat ≤ m →
      (f k.s).toNat ≤ m →
      0 ≤ accAt w (chan (f k.p)) (chan (f k.q)) (chan (f k.r)) (chan (f k.s)) c n ∧
        accAt w (chan (f k.p)) (chan (f k.q)) (chan (f k.r)) (chan (f k.s)) c n ≤ 4 * w * m := by
    intro w m f hw h1 h2 h3 h4
    exact accAt_range w _ _ _ _ m c n hw hn (chan_range _ _ h1) (chan_range _ _ h2) (chan_range _ _ h3) (chan_range _ _ h4)
  have fin : ∀ v : Int, 0 ≤ v ∧ v ≤ 255 → (channel v).toNat ≤ 255 := by
    intro v ⟨h0, h1⟩
    have := channel_toNat v h0 h1
    omega
  cases b with
  | false =>
    have a1 := key 4 31 (·.r) hc p1 q1 r1 s1
    have a2 := key 4 31 (·.g) hc p2 q2 r2 s2
    have a3 := key 4 31 (·.b) hc p3 q3 r3 s3
    have a4 := key 4 15 (·.a) hc p4 q4 r4 s4
    exact ⟨fin _ (narrowRgb4_range _ a1.1 a1.2), fin _ (narrowRgb4_range _ a2.1 a2.2), fin _ (narrowRgb4_range _ a3.1 a3.2),
      fin _ (narrowA4_range _ a4.1 a4.2)⟩
  | true =>
    have a1 := key 8 31 (·.r) hc p1 q1 r1 s1
    have a2 := key 8 31 (·.g) hc p2 q2 r2 s2
    have a3 := key 8 31 (·.b) hc p3 q3 r3 s3
    have a4 := key 8 15 (·.a) hc p4 q4 r4 s4
    exact ⟨fin _ (narrowRgb2_range _ a1.1 a1.2), fin _ (narrowRgb2_range _ a2.1 a2.2), fin _ (narrowRgb2_range _ a3.1 a3.2),
      fin _ (narrowA2_range _ a4.1 a4.2)⟩

end Sys2Proof.Machine
end

