-- ==== Sys2Proof/Laws/Geometry.lean ====
section
/-! SUPPORT. The geometry of an admitted command: what CHECK guarantees about the grid, and how tiles, texels and pixels
correspond. -/

namespace Sys2Proof.Machine

/-! ## What CHECK guarantees (R251 to R253, R291) -/

/-- The grid of an admitted command. -/
structure Latched.Grid (c : Latched) : Prop where
  blockW : c.blockW = blockWidth c.is2bpp
  wt     : c.wt = c.gw * c.blockW
  ht     : c.ht = c.gh * 4
  gw     : 2 ≤ c.gw
  gh     : 2 ≤ c.gh

theorem blockWidth_cases (b : Bool) : blockWidth b = 8 ∧ b = true ∨ blockWidth b = 4 ∧ b = false := by
  cases b <;> simp [blockWidth]

/-- The block width is 4 or 8. -/
theorem Latched.Grid.width_cases {c : Latched} (h : c.Grid) : c.blockW = 4 ∨ c.blockW = 8 := by
  rw [h.blockW]
  cases c.is2bpp <;> simp [blockWidth]

/-- CHECK's latched fields are those of START. -/
theorem checkedCfg_latched (c : Latched) :
    (checkedCfg c).variant = c.variant ∧ (checkedCfg c).is2bpp = c.is2bpp ∧ (checkedCfg c).width = c.width ∧
      (checkedCfg c).height = c.height ∧ (checkedCfg c).inSp = c.inSp ∧ (checkedCfg c).outSp = c.outSp := by
  unfold checkedCfg
  split <;> simp [configure, withGrid]

/-- `Wt`, `Ht` and `PAD` after CHECK (R252). -/
theorem checkedCfg_size (c : Latched) :
    (checkedCfg c).wt = max c.width.toNat (minWidth c.is2bpp) ∧ (checkedCfg c).ht = max c.height.toNat 8 ∧
      (checkedCfg c).pad = decide ((checkedCfg c).wt ≠ c.width.toNat ∨ (checkedCfg c).ht ≠ c.height.toNat) ∧
      (checkedCfg c).bpp = bitsPerPixel c.is2bpp := by
  unfold checkedCfg
  split <;> simp [configure, withGrid, minHeight]

/-- An admitted command passes every test of R291. -/
theorem checkCommand_none (c : Latched) (h : checkCommand c = .none) :
    dimMult c = false ∧ notPow2 (withGrid c) = false ∧ tooLarge (withGrid c) = false ∧ inShort (withGrid c) = false ∧
      outShort (withGrid c) = false ∧ overlaps (withGrid c) = false := by
  unfold checkCommand gridFault at h
  repeat' split at h
  all_goals first
    | contradiction
    | simp_all

/-- An admitted command has a grid. -/
theorem checkedCfg_grid (c : Latched) (h : checkCommand (configure c) = .none) : (checkedCfg c).Grid := by
  have hd := (checkCommand_none _ h).1
  have he : checkedCfg c = withGrid (configure c) := by simp [checkedCfg, hd]
  simp only [dimMult, decide_eq_false_iff_not, not_or, not_not] at hd
  rw [he]
  have hw : (configure c).blockW = blockWidth c.is2bpp := rfl
  have hwt : (configure c).wt = max c.width.toNat (minWidth c.is2bpp) := rfl
  have hht : (configure c).ht = max c.height.toNat 8 := rfl
  have h1 : (withGrid (configure c)).gw = (configure c).wt / (configure c).blockW := rfl
  have h2 : (withGrid (configure c)).gh = (configure c).ht / 4 := rfl
  have h3 : (withGrid (configure c)).wt = (configure c).wt := rfl
  have h4 : (withGrid (configure c)).ht = (configure c).ht := rfl
  have h5 : (withGrid (configure c)).blockW = (configure c).blockW := rfl
  have h6 : (withGrid (configure c)).is2bpp = c.is2bpp := rfl
  obtain ⟨hd1, hd2⟩ := hd
  rw [hw] at hd1 h1 h5
  have hm : minWidth c.is2bpp = 2 * blockWidth c.is2bpp := by cases c.is2bpp <;> rfl
  have hb : blockWidth c.is2bpp = 4 ∨ blockWidth c.is2bpp = 8 := by cases c.is2bpp <;> simp [blockWidth]
  refine ⟨by rw [h5, h6], ?_, ?_, ?_, ?_⟩
  · rw [h1, h3, h5]
    exact (Nat.div_mul_cancel (Nat.dvd_of_mod_eq_zero hd1)).symm
  · omega
  · rw [h1, hwt]
    rcases hb with hb | hb <;> rw [hb] at hm ⊢ <;> omega
  · omega

/-! ## Remainders -/

theorem emod_in (a n : Int) (h0 : 0 ≤ a) (h1 : a < n) : a % n = a := Int.emod_eq_of_lt h0 h1

theorem emod_below (a n : Int) (h0 : -n ≤ a) (h1 : a < 0) : a % n = a + n := by
  rw [← Int.add_emod_right]
  exact Int.emod_eq_of_lt (by omega) (by omega)

/-- The remainder of a number at most one turn below the range. -/
theorem emod_turn (a n : Int) (h0 : -n ≤ a) (h1 : a < n) : a % n = if 0 ≤ a then a else a + n := by
  split
  · exact emod_in a n ‹_› h1
  · exact emod_below a n h0 (by omega)

/-- The remainder of a number at most one turn above the range. -/
theorem mod_turn (a n : Nat) (h : a < 2 * n) : a % n = if a < n then a else a - n := by
  split
  · exact Nat.mod_eq_of_lt ‹_›
  · rw [Nat.mod_eq_sub_mod (by omega)]
    exact Nat.mod_eq_of_lt (by omega)

/-! ## Tiles, texels and pixels (R259, R266) -/

/-- The block `P` of the tile walked at position `i` of an axis with `n` blocks: `(i - 1) mod n` (R254, R256). -/
def walkedBlock (n i : Nat) : Nat := (((i : Int) - 1) % n).toNat

theorem walkedBlock_eq (n i : Nat) (hn : 1 ≤ n) (hi : i < n) : walkedBlock n i = if i = 0 then n - 1 else i - 1 := by
  unfold walkedBlock
  rw [emod_turn _ _ (by omega) (by omega)]
  split <;> split <;> omega

/-- The position at which a block is walked: `(b + 1) mod n`. -/
theorem walkedBlock_inv (n b : Nat) (hn : 1 ≤ n) (hb : b < n) : (b + 1) % n < n ∧ walkedBlock n ((b + 1) % n) = b := by
  have h := Nat.mod_lt (b + 1) (show 0 < n by omega)
  refine ⟨h, ?_⟩
  rw [walkedBlock_eq n _ hn h, mod_turn _ _ (by omega)]
  split <;> split <;> omega

/-- The position of a walked block. -/
theorem walkedBlock_pos (n i : Nat) (hn : 1 ≤ n) (hi : i < n) : (walkedBlock n i + 1) % n = i := by
  rw [walkedBlock_eq n i hn hi]
  split
  · rw [show n - 1 + 1 = n by omega, Nat.mod_self]
    omega
  · rw [show i - 1 + 1 = i by omega]
    exact Nat.mod_eq_of_lt hi

theorem walkedBlock_lt (n i : Nat) (hn : 1 ≤ n) (hi : i < n) : walkedBlock n i < n := by
  rw [walkedBlock_eq n i hn hi]
  split <;> omega

/-- The blocks of the tile walked at `(i - 1, j - 1)` are those of the closed form (R256, R266). -/
theorem neighbours_walked (c : Latched) (h : c.Grid) (i j : Nat) (hi : i < c.gw) (hj : j < c.gh) :
    neighbours ((i : Int) - 1) ((j : Int) - 1) c.gw c.gh = tileBlocks c (walkedBlock c.gw i, walkedBlock c.gh j) := by
  have hgw := h.gw
  have hgh := h.gh
  have hx : (((i : Int) - 1 + 1) % c.gw).toNat = i := by
    rw [show (i : Int) - 1 + 1 = i by omega, emod_in _ _ (by omega) (by omega)]
    omega
  have hy : (((j : Int) - 1 + 1) % c.gh).toNat = j := by
    rw [show (j : Int) - 1 + 1 = j by omega, emod_in _ _ (by omega) (by omega)]
    omega
  simp only [neighbours, tileBlocks, hx, hy, walkedBlock_pos c.gw i (by omega) hi, walkedBlock_pos c.gh j (by omega) hj]
  rfl

/-- An entry of a tile is a texel of it. -/
theorem texel_lt (w e : Nat) (hw : w = 4 ∨ w = 8) (he : e < w * 4) : texelCol w e < w ∧ texelRow w e < 4 := by
  unfold texelCol texelRow
  rcases hw with rfl | rfl <;> omega

/-- One axis: the coordinate of texel `c` of the tile walked at position `i` lies in the raster, and its block and texel
are found back (R259, R266). `d` is half the block size `w`. -/
theorem axis_tile (n w d i c N : Nat) (hw : w = 4 ∧ d = 2 ∨ w = 8 ∧ d = 4) (hN : N = n * w) (hn : 2 ≤ n) (hi : i < n)
    (hc : c < w) :
    let p := ((((i : Int) - 1) * w + d + c) % N).toNat
    p < N ∧ (((p : Int) - d) % N).toNat / w = walkedBlock n i ∧ (((p : Int) - d) % N).toNat % w = c := by
  intro p
  rw [walkedBlock_eq n i (by omega) hi]
  have hp : (p : Int) = if 0 ≤ ((i : Int) - 1) * w + d + c then ((i : Int) - 1) * w + d + c
      else ((i : Int) - 1) * w + d + c + N := by
    have h0 : -(N : Int) ≤ ((i : Int) - 1) * w + d + c := by rcases hw with ⟨rfl, rfl⟩ | ⟨rfl, rfl⟩ <;> omega
    have h1 : ((i : Int) - 1) * w + d + c < N := by rcases hw with ⟨rfl, rfl⟩ | ⟨rfl, rfl⟩ <;> omega
    have := emod_turn _ _ h0 h1
    have hnn := Int.emod_nonneg (((i : Int) - 1) * w + d + c) (show (N : Int) ≠ 0 by omega)
    rw [show (p : Int) = (((i : Int) - 1) * w + d + c) % N from Int.toNat_of_nonneg hnn, this]
  clear_value p
  have hu : ((p : Int) - d) % N = if 0 ≤ (p : Int) - d then (p : Int) - d else (p : Int) - d + N := by
    apply emod_turn <;> rcases hw with ⟨rfl, rfl⟩ | ⟨rfl, rfl⟩ <;> split at hp <;> omega
  rw [hu]
  rcases hw with ⟨rfl, rfl⟩ | ⟨rfl, rfl⟩ <;> split at hp <;> split <;> split <;> refine ⟨?_, ?_, ?_⟩ <;> omega

/-- One axis, the other way: the block and the texel of a coordinate, and where the walk writes them. -/
theorem axis_pixel (n w d x N : Nat) (hw : w = 4 ∧ d = 2 ∨ w = 8 ∧ d = 4) (hN : N = n * w) (hn : 2 ≤ n) (hx : x < N) :
    let u := (((x : Int) - d) % N).toNat
    u / w < n ∧ u % w < w ∧ (((((u / w + 1) % n : Nat) : Int) - 1) * w + d + (u % w : Nat)) % N = x := by
  intro u
  have hu : (u : Int) = if 0 ≤ (x : Int) - d then (x : Int) - d else (x : Int) - d + N := by
    have h0 : -(N : Int) ≤ (x : Int) - d := by rcases hw with ⟨rfl, rfl⟩ | ⟨rfl, rfl⟩ <;> omega
    have h1 : (x : Int) - d < N := by omega
    have := emod_turn _ _ h0 h1
    have hnn := Int.emod_nonneg ((x : Int) - d) (show (N : Int) ≠ 0 by omega)
    rw [show (u : Int) = ((x : Int) - d) % N from Int.toNat_of_nonneg hnn, this]
  clear_value u
  have hb : u / w < n := by
    rcases hw with ⟨rfl, rfl⟩ | ⟨rfl, rfl⟩ <;> split at hu <;> omega
  refine ⟨hb, by rcases hw with ⟨rfl, rfl⟩ | ⟨rfl, rfl⟩ <;> omega, ?_⟩
  rw [mod_turn (u / w + 1) n (by omega)]
  have key : ∀ k : Nat, (k = if u / w + 1 < n then u / w + 1 else u / w + 1 - n) →
      ((((k : Nat) : Int) - 1) * w + d + (u % w : Nat)) % N = x := by
    intro k hk
    have h0 : -(N : Int) ≤ ((k : Int) - 1) * w + d + (u % w : Nat) := by
      rcases hw with ⟨rfl, rfl⟩ | ⟨rfl, rfl⟩ <;> split at hk <;> omega
    have h1 : ((k : Int) - 1) * w + d + (u % w : Nat) < N := by
      rcases hw with ⟨rfl, rfl⟩ | ⟨rfl, rfl⟩ <;> split at hk <;> omega
    rw [emod_turn _ _ h0 h1]
    rcases hw with ⟨rfl, rfl⟩ | ⟨rfl, rfl⟩ <;> split at hu <;> split at hk <;> split <;> omega
  exact key _ rfl

/-- Half a block. -/
theorem Latched.Grid.half {c : Latched} (h : c.Grid) :
    c.blockW = 4 ∧ c.blockW / 2 = 2 ∨ c.blockW = 8 ∧ c.blockW / 2 = 4 := by
  rcases h.width_cases with h | h <;> simp [h]

/-- The pixel of a tile entry lies in the raster, and the closed form finds the tile and the texel back (R259, R266). -/
theorem scatterPos_tile (c : Latched) (h : c.Grid) (i j e : Nat) (hi : i < c.gw) (hj : j < c.gh) (he : e < c.blockW * 4) :
    let p := scatterPos c ((i : Int) - 1) ((j : Int) - 1) e
    p.1 < c.wt ∧ p.2 < c.ht ∧
      tileOfPixel c p.1 p.2 =
        ((walkedBlock c.gw i, walkedBlock c.gh j), (texelCol c.blockW e, texelRow c.blockW e)) := by
  obtain ⟨hc, hr⟩ := texel_lt _ _ h.width_cases he
  obtain ⟨x1, x2, x3⟩ := axis_tile c.gw c.blockW (c.blockW / 2) i _ c.wt h.half h.wt h.gw hi hc
  obtain ⟨y1, y2, y3⟩ := axis_tile c.gh 4 2 j _ c.ht (.inl ⟨rfl, rfl⟩) h.ht h.gh hj hr
  refine ⟨x1, y1, ?_⟩
  simp only [tileOfPixel, scatterPos]
  rw [x2, x3]
  exact Prod.ext (Prod.ext rfl y2) (Prod.ext rfl y3)

/-- Every pixel of the raster is an entry of one of the walked tiles (R260, R266). -/
theorem pixel_scatterPos (c : Latched) (h : c.Grid) (x y : Nat) (hx : x < c.wt) (hy : y < c.ht) :
    let t := tileOfPixel c x y
    t.1.1 < c.gw ∧ t.1.2 < c.gh ∧ t.2.1 < c.blockW ∧ t.2.2 < 4 ∧
      scatterPos c ((((t.1.1 + 1) % c.gw : Nat) : Int) - 1) ((((t.1.2 + 1) % c.gh : Nat) : Int) - 1)
        (t.2.2 * c.blockW + t.2.1) = (x, y) := by
  obtain ⟨x1, x2, x3⟩ := axis_pixel c.gw c.blockW (c.blockW / 2) x c.wt h.half h.wt h.gw hx
  obtain ⟨y1, y2, y3⟩ := axis_pixel c.gh 4 2 y c.ht (.inl ⟨rfl, rfl⟩) h.ht h.gh hy
  intro t
  refine ⟨x1, y1, x2, y2, ?_⟩
  have hw : 0 < c.blockW := by rcases h.width_cases with h | h <;> omega
  have hcol : texelCol c.blockW (t.2.2 * c.blockW + t.2.1) = t.2.1 := by
    unfold texelCol
    rw [Nat.mul_add_mod_self_right]
    exact Nat.mod_eq_of_lt x2
  have hrow : texelRow c.blockW (t.2.2 * c.blockW + t.2.1) = t.2.2 := by
    unfold texelRow
    rw [Nat.mul_comm, Nat.mul_add_div hw, show t.2.1 / c.blockW = 0 from Nat.div_eq_of_lt x2, Nat.add_zero]
  simp only [scatterPos, hcol, hrow]
  exact Prod.ext ((congrArg Int.toNat x3).trans (Int.toNat_natCast x)) ((congrArg Int.toNat y3).trans (Int.toNat_natCast y))

end Sys2Proof.Machine
end

