-- ==== Sys2Proof/Laws/Twiddler.lean ====
section
/-! SUPPORT. The index mapping: powers of two, the bits of the interleave, and the range of a storage index. -/

namespace Sys2Proof.Machine

/-- `Pow2(n)` (R291) says that `n` is a power of two. -/
theorem pow2_iff (n : Nat) : pow2 n = true ↔ ∃ k, n = 2 ^ k := by
  rw [pow2, decide_eq_true_eq]
  rw [show (0 < n ∧ n &&& (n - 1) = 0) ↔ (n ≠ 0 ∧ n &&& (n - 1) = 0) by rw [Nat.pos_iff_ne_zero]]
  exact Nat.ne_zero_and_sub_one_eq_zero_iff_isPowerOfTwo

/-- A placed bit is a single bit. -/
theorem placeBit_lt (v i j n : Nat) (h : j < n) : placeBit v i j < 2 ^ n := by
  have h1 : v >>> i &&& 1 < 2 := by
    rw [Nat.and_one_is_mod]
    omega
  have h2 : (v >>> i &&& 1) <<< j ≤ 1 <<< j := by
    rw [Nat.shiftLeft_eq, Nat.shiftLeft_eq]
    exact Nat.mul_le_mul_right _ (by omega)
  have h3 : 1 <<< j < 2 ^ n := by
    rw [Nat.shiftLeft_eq, Nat.one_mul]
    exact Nat.pow_lt_pow_right (by omega) h
  unfold placeBit
  omega

/-- The bits of a placed bit. -/
theorem placeBit_testBit (v i j m : Nat) : (placeBit v i j).testBit m = (decide (m = j) && v.testBit i) := by
  unfold placeBit
  rw [Nat.testBit_shiftLeft, Nat.testBit_and, Nat.testBit_shiftRight]
  by_cases h : m = j
  · subst h
    simp
  · by_cases h2 : j ≤ m
    · have h3 : Nat.testBit 1 (m - j) = false :=
        Nat.testBit_lt_two_pow (Nat.one_lt_two_pow (by omega))
      simp [h, h3]
    · simp [h, h2]

/-- The interleave of `n` bits has `2n` bits (R232). -/
theorem interleave_lt (n lo hi : Nat) : interleave n lo hi < 2 ^ (2 * n) := by
  induction n with
  | zero => simp [interleave, iter]
  | succ n ih =>
    have h : interleave n lo hi < 2 ^ (2 * (n + 1)) :=
      Nat.lt_of_lt_of_le ih (Nat.pow_le_pow_right (by omega) (by omega))
    exact Nat.or_lt_two_pow (Nat.or_lt_two_pow h (placeBit_lt _ _ _ _ (by omega))) (placeBit_lt _ _ _ _ (by omega))

/-- The bits of the interleave: the low axis at even positions, the other at odd ones (R232). -/
theorem interleave_testBit (n lo hi m : Nat) :
    (interleave n lo hi).testBit m =
      (decide (m < 2 * n) && if m % 2 = 0 then lo.testBit (m / 2) else hi.testBit (m / 2)) := by
  induction n with
  | zero => simp [interleave, iter]
  | succ n ih =>
    have e : interleave (n + 1) lo hi = (interleave n lo hi ||| placeBit lo n (2 * n)) ||| placeBit hi n (2 * n + 1) := rfl
    rw [e, Nat.testBit_or, Nat.testBit_or, ih, placeBit_testBit, placeBit_testBit]
    by_cases h1 : m < 2 * n
    · have h2 : m ≠ 2 * n := by omega
      have h3 : m ≠ 2 * n + 1 := by omega
      have h4 : m < 2 * (n + 1) := by omega
      simp [h1, h2, h3, h4]
    · by_cases h2 : m = 2 * n
      · subst h2
        simp
      · by_cases h3 : m = 2 * n + 1
        · subst h3
          have : (2 * n + 1) / 2 = n := by omega
          simp [this, show (2 * n + 1) % 2 = 1 by omega, show 2 * n + 1 < 2 * (n + 1) by omega]
        · have h4 : ¬ m < 2 * (n + 1) := by omega
          simp [h1, h2, h3, h4]

/-- `min` of two powers of two, and its logarithm. -/
theorem log2_min (a b : Nat) : Nat.log2 (min (2 ^ a) (2 ^ b)) = min a b := by
  rcases Nat.le_total a b with h | h
  · rw [Nat.min_eq_left (Nat.pow_le_pow_right (by omega) h), Nat.log2_two_pow, Nat.min_eq_left h]
  · rw [Nat.min_eq_right (Nat.pow_le_pow_right (by omega) h), Nat.log2_two_pow, Nat.min_eq_right h]

/-- The Morton index on a grid of powers of two, without the logarithm (R232). -/
theorem mortonIndex_pow2 (ax : Axis) (a b x y : Nat) :
    mortonIndex ax (2 ^ a) (2 ^ b) x y =
      (if b < a then (match ax with | .y => interleave b y x | .x => interleave b x y) ||| (x >>> b) <<< (2 * b)
       else if a < b then (match ax with | .y => interleave a y x | .x => interleave a x y) ||| (y >>> a) <<< (2 * a)
       else match ax with | .y => interleave a y x | .x => interleave a x y) := by
  unfold mortonIndex
  rw [log2_min]
  have hlt : ∀ m n : Nat, (2 : Nat) ^ m < 2 ^ n ↔ m < n := fun m n => Nat.pow_lt_pow_iff_right (by omega)
  simp only [hlt]
  by_cases h1 : b < a
  · cases ax <;> simp only [if_pos h1, if_neg (show ¬a < b by omega), Nat.min_eq_right (show b ≤ a by omega)]
  · by_cases h2 : a < b
    · cases ax <;> simp only [if_neg h1, if_pos h2, Nat.min_eq_left (show a ≤ b by omega)]
    · cases ax <;> simp only [if_neg h1, if_neg h2, Nat.min_eq_left (show a ≤ b by omega)]

/-- The remaining high bits, placed above the interleave, stay below the number of blocks. -/
theorem tail_lt (x a b : Nat) (hx : x < 2 ^ a) (h : b ≤ a) : (x >>> b) <<< (2 * b) < 2 ^ (a + b) := by
  rw [Nat.shiftLeft_eq, Nat.shiftRight_eq_div_pow]
  have h1 : x / 2 ^ b < 2 ^ (a - b) := by
    rw [Nat.div_lt_iff_lt_mul (Nat.two_pow_pos b), ← Nat.pow_add, Nat.sub_add_cancel h]
    exact hx
  calc x / 2 ^ b * 2 ^ (2 * b) < 2 ^ (a - b) * 2 ^ (2 * b) := Nat.mul_lt_mul_of_pos_right h1 (Nat.two_pow_pos _)
    _ = 2 ^ (a + b) := by rw [← Nat.pow_add]; congr 1; omega

/-- A Morton index is below the number of blocks (R230, R235). -/
theorem mortonIndex_lt (ax : Axis) (gw gh x y : Nat) (hw : pow2 gw = true) (hh : pow2 gh = true) (hx : x < gw) (hy : y < gh) :
    mortonIndex ax gw gh x y < gw * gh := by
  obtain ⟨a, rfl⟩ := (pow2_iff _).mp hw
  obtain ⟨b, rfl⟩ := (pow2_iff _).mp hh
  have hl : ∀ n : Nat, (match ax with | .y => interleave n y x | .x => interleave n x y) < 2 ^ (2 * n) := by
    intro n
    cases ax <;> exact interleave_lt _ _ _
  have hle : ∀ n m : Nat, n ≤ m → (2 : Nat) ^ n ≤ 2 ^ m := fun n m h => Nat.pow_le_pow_right (by omega) h
  rw [mortonIndex_pow2, ← Nat.pow_add]
  split
  · exact Nat.or_lt_two_pow (Nat.lt_of_lt_of_le (hl b) (hle _ _ (by omega))) (tail_lt x a b hx (by omega))
  · split
    · exact Nat.or_lt_two_pow (Nat.lt_of_lt_of_le (hl a) (hle _ _ (by omega)))
        (Nat.add_comm b a ▸ tail_lt y b a hy (by omega))
    · exact Nat.lt_of_lt_of_le (hl a) (hle _ _ (by omega))

/-- A linear index is below the number of blocks (R230). -/
theorem linearIndex_lt (gw gh x y : Nat) (hx : x < gw) (hy : y < gh) : linearIndex gw x y < gw * gh := by
  unfold linearIndex
  calc y * gw + x < y * gw + gw := by omega
    _ = (y + 1) * gw := by rw [Nat.succ_mul]
    _ ≤ gh * gw := Nat.mul_le_mul_right _ hy
    _ = gw * gh := Nat.mul_comm _ _

end Sys2Proof.Machine
end

