-- ==== Sys2Proof/Laws/Walk.lean ====
section
/-! SUPPORT. The scatter and the walk: what one pixel, one tile and the whole walk leave in the target raster and in host
memory, under the conditions CHECK guarantees. -/

namespace Sys2Proof.Machine

/-! ## What the walk may change -/

/-- Only the registers of the walk, host memory and `TMP` differ. -/
def State.WalkOnly (s t : State) : Prop :=
  t = { s with
    ph := t.ph, seq := t.seq, bX := t.bX, bY := t.bY, blk := t.blk, wd := t.wd, ca := t.ca, cb := t.cb, mv := t.mv
    mm := t.mm, ua := t.ua, ub := t.ub, tile := t.tile, ix := t.ix, weight := t.weight, mem := t.mem, tmp := t.tmp }

theorem State.WalkOnly.refl (s : State) : s.WalkOnly s := rfl

theorem State.WalkOnly.trans {s t u : State} (h : s.WalkOnly t) (h' : t.WalkOnly u) : s.WalkOnly u := by
  unfold State.WalkOnly at *
  rw [h] at h'
  exact h'

theorem State.WalkOnly.cfg {s t : State} (h : s.WalkOnly t) : t.cfg = s.cfg := by rw [h]
theorem State.WalkOnly.pixelOrder {s t : State} (h : s.WalkOnly t) : t.pixelOrder = s.pixelOrder := by rw [h]
theorem State.WalkOnly.mortonLow {s t : State} (h : s.WalkOnly t) : t.mortonLow = s.mortonLow := by rw [h]
theorem State.WalkOnly.target {s t : State} (h : s.WalkOnly t) : t.target = s.target := by
  simp only [State.target, h.cfg]

theorem State.StoreOnly.walkOnly {s t : State} (h : s.StoreOnly t) : s.WalkOnly t := by
  unfold State.WalkOnly
  rw [h]

/-! ## The pixels of the target -/

/-- Pixel `(x, y)` of the target raster holds the pixel `p` (R65). -/
def State.Stored (s : State) (x y : Nat) (p : Pixel32) : Prop :=
  ∀ i, i < 4 → s.peek s.target (pixelOffset s.cfg.wt x y + i) = (pixelBytes s.pixelOrder p).getD i 0

/-- Two pixels of a raster share no byte. -/
theorem pixelOffset_apart (w x y x' y' i i' : Nat) (hx : x < w) (hx' : x' < w) (hi : i < 4) (hi' : i' < 4)
    (h : pixelOffset w x y + i = pixelOffset w x' y' + i') : x = x' ∧ y = y' := by
  unfold pixelOffset at h
  have h1 : y * w + x = y' * w + x' := by omega
  have h2 : y = y' := by
    have e := congrArg (· / w) h1
    simp only [Nat.add_comm (_ * w), Nat.add_mul_div_right _ _ (show 0 < w by omega), Nat.div_eq_of_lt hx,
      Nat.div_eq_of_lt hx', Nat.zero_add] at e
    exact e
  subst h2
  omega

/-- A pixel lies inside its raster. -/
theorem pixelOffset_lt (w h x y i : Nat) (hx : x < w) (hy : y < h) (hi : i < 4) : pixelOffset w x y + i < w * h * 4 := by
  unfold pixelOffset
  have : (y + 1) * w ≤ h * w := Nat.mul_le_mul_right _ hy
  rw [Nat.succ_mul] at this
  rw [Nat.mul_comm w h]
  omega

/-- The pixel just stored (R65). -/
theorem State.stored_writePixel_same (s : State) (x y : Nat) (p : Pixel32) (h : s.Storable s.target) :
    (s.writePixel s.target s.cfg.wt x y p).Stored x y p := by
  intro i hi
  have hs := (s.storeOnly_writePixel s.target s.cfg.wt x y p).walkOnly
  rw [hs.target, hs.cfg, hs.pixelOrder, State.peek_writePixel _ _ _ _ _ _ _ h, if_pos ⟨by omega, by omega⟩]
  congr 1
  omega

/-- Another pixel of the raster. -/
theorem State.stored_writePixel_other (s : State) (x y x' y' : Nat) (p p' : Pixel32) (h : s.Storable s.target)
    (hx : x < s.cfg.wt) (hx' : x' < s.cfg.wt) (hne : ¬(x' = x ∧ y' = y)) (hs' : s.Stored x' y' p') :
    (s.writePixel s.target s.cfg.wt x y p).Stored x' y' p' := by
  intro i hi
  have hs := (s.storeOnly_writePixel s.target s.cfg.wt x y p).walkOnly
  rw [hs.target, hs.cfg, hs.pixelOrder, State.peek_writePixel _ _ _ _ _ _ _ h, if_neg]
  · exact hs' i hi
  · rintro ⟨h1, h2⟩
    refine hne (pixelOffset_apart s.cfg.wt x' y' x y i (pixelOffset s.cfg.wt x' y' + i - pixelOffset s.cfg.wt x y) hx' hx hi
      (by omega) (by omega))

/-! ## The walk, relative to the state it began in -/

/-- What CHECK and ALLOC guarantee when the walk begins. -/
structure State.Walkable (s : State) : Prop where
  grid   : s.cfg.Grid
  order  : s.orderDefined = true
  inLen  : 8 * s.cfg.gw * s.cfg.gh ≤ s.cfg.inSp.len
  store  : s.Storable s.target
  room   : s.cfg.wt * s.cfg.ht * 4 ≤ s.targetSize s.target
  apart  : s.target = .out → ∀ a, s.cfg.inSp.base ≤ a → a < s.cfg.inSp.base + 8 * s.cfg.gw * s.cfg.gh →
             a < s.cfg.outSp.base ∨ s.cfg.outSp.base + s.cfg.wt * s.cfg.ht * 4 ≤ a

/-- The walk so far: the pixels for which `pixDone` holds are those of the closed form. -/
structure State.Walked (s t : State) (pixDone : Nat → Nat → Prop) : Prop where
  only    : s.WalkOnly t
  store   : t.Storable s.target
  size    : t.targetSize s.target = s.targetSize s.target
  outside : ∀ a, (s.target = .out → a < s.cfg.outSp.base ∨ s.cfg.outSp.base + s.cfg.wt * s.cfg.ht * 4 ≤ a) →
              Memory.read t.mem a = Memory.read s.mem a
  tmpWf   : s.target = .tmp → ∀ r, t.tmp = some r → r.wf = true
  tmpSame : s.target = .out → t.tmp = s.tmp
  pixels  : ∀ x y, x < s.cfg.wt → y < s.cfg.ht → pixDone x y → t.Stored x y (s.closedPixel x y)

/-- The words of the blocks are read as they were when the walk began: no store reaches `IN`. -/
theorem State.Walked.word {s t : State} {d : Nat → Nat → Prop} (h : s.Walked t d) (hs : s.Walkable) (b : Nat × Nat)
    (hk : s.indexOf b < s.cfg.gw * s.cfg.gh) :
    t.wordOfBlock b = s.wordOfBlock b := by
  have hc := h.only.cfg
  have e : ∀ o, o < 8 → Memory.read t.mem (s.cfg.inSp.base + (8 * s.indexOf b + o)) =
      Memory.read s.mem (s.cfg.inSp.base + (8 * s.indexOf b + o)) := by
    intro o ho
    refine h.outside _ fun htgt => hs.apart htgt _ (by omega) ?_
    rw [Nat.mul_assoc]
    omega
  simp only [State.wordOfBlock, State.indexOf_congr s t b h.only.mortonLow hc, State.readWord, State.readField, hc]
  have f : ∀ o i, o + i < 8 → Memory.read t.mem (s.cfg.inSp.base + (8 * s.indexOf b + o) + i) =
      Memory.read s.mem (s.cfg.inSp.base + (8 * s.indexOf b + o) + i) := by
    intro o i ho
    rw [Nat.add_assoc _ _ i, Nat.add_assoc _ o i]
    exact e (o + i) ho
  have f0 := fun i hi => f 0 i hi
  simp only [Nat.add_zero] at f0
  rw [f0 0 (by omega), f0 1 (by omega), f0 2 (by omega), f0 3 (by omega), f 4 0 (by omega), f 4 1 (by omega),
    f 4 2 (by omega), f 4 3 (by omega)]

/-- A pixel stored during the walk, whatever its value: every other pixel keeps its own, and the bounds are kept. -/
theorem State.Walked.pixel {s t : State} {d : Nat → Nat → Prop} (h : s.Walked t d) (hs : s.Walkable) (pos : Nat × Nat)
    (p : Pixel32) (hx : pos.1 < s.cfg.wt) (hy : pos.2 < s.cfg.ht) :
    s.Walked (t.writePixel t.target t.cfg.wt pos.1 pos.2 p) (fun x y => d x y ∧ ¬(x = pos.1 ∧ y = pos.2)) := by
  have hc := h.only.cfg
  have htg := h.only.target
  have hsto : t.Storable t.target := htg ▸ h.store
  have hoff : ∀ i, i < 4 → pixelOffset s.cfg.wt pos.1 pos.2 + i < s.cfg.wt * s.cfg.ht * 4 := fun i hi =>
    pixelOffset_lt _ _ _ _ _ hx hy hi
  have ho := hoff 3 (by omega)
  refine ⟨h.only.trans (t.storeOnly_writePixel _ _ _ _ _).walkOnly, ?_, ?_, ?_, ?_, ?_, ?_⟩
  · rw [← htg]
    exact t.storable_writePixel _ _ _ _ _ hsto
  · rw [← h.size]
    cases htgt : s.target with
    | out => simp only [State.targetSize, (t.storeOnly_writePixel _ _ _ _ _).walkOnly.cfg]
    | tmp =>
      rw [htg, htgt]
      simp only [State.targetSize, State.writePixel]
      generalize pixelOffset _ _ _ = o
      generalize pixelBytes _ _ = bs
      clear * -
      induction bs generalizing t o with
      | nil => rfl
      | cons b bs ih =>
        rw [State.putBytes, ih]
        rw [State.putByte_tmp_tmp]
        cases t.tmp <;> rfl
  · intro a ha
    rw [← h.outside a ha, htg, State.writePixel]
    cases htgt : s.target with
    | out =>
      apply State.read_putBytes_out
      rw [pixelBytes_length, hc]
      have := ha htgt
      omega
    | tmp => rw [State.mem_putBytes_tmp]
  · intro htgt r hr
    rw [htg, htgt] at hr
    obtain ⟨r0, hr0⟩ := Option.isSome_iff_exists.mp (h.store.tmp htgt)
    have hw0 := h.tmpWf htgt r0 hr0
    have hsz : s.cfg.wt * s.cfg.ht * 4 ≤ r0.size := by
      have := hs.room
      rw [← h.size, htgt] at this
      simpa only [State.targetSize, hr0] using this
    rw [hc, State.writePixel] at hr
    have hl : (pixelBytes t.pixelOrder (p)).length = 4 := pixelBytes_length _ _
    have hb : pixelOffset s.cfg.wt pos.1 pos.2 + (pixelBytes t.pixelOrder (p)).length ≤ r0.size := by
      omega
    generalize pixelOffset _ _ _ = o at hr hb
    generalize pixelBytes _ _ = bs at hr hb
    clear * - hr hb hr0 hw0
    induction bs generalizing t o r0 with
    | nil =>
      rw [State.putBytes, hr0] at hr
      cases hr
      exact hw0
    | cons b bs ih =>
      rw [State.putBytes] at hr
      simp only [List.length_cons] at hb
      exact ih (t := t.putByte .tmp o b) (r0 := r0.write o b) (by simp [hr0]) (TmpRaster.wf_write _ _ _ hw0 (by omega)) (o + 1) hr
        (by simp; omega)
  · intro htgt
    rw [← h.tmpSame htgt, htg, htgt, State.writePixel, State.tmp_putBytes_out]
  · rintro x y hx' hy' ⟨hd, hne⟩
    exact t.stored_writePixel_other _ _ _ _ _ _ hsto (hc ▸ hx) (hc ▸ hx') hne (h.pixels x y hx' hy' hd)

/-- One pixel of the scatter: it takes the closed form's pixel, and every pixel stored before keeps its own (R259). -/
theorem State.Walked.entry {s t : State} {d : Nat → Nat → Prop} (h : s.Walked t d) (hs : s.Walkable) (e : Nat)
    (hx : (scatterPos s.cfg t.bX t.bY e).1 < s.cfg.wt) (hy : (scatterPos s.cfg t.bX t.bY e).2 < s.cfg.ht)
    (hp : texelAt t.tile e = s.closedPixel (scatterPos s.cfg t.bX t.bY e).1 (scatterPos s.cfg t.bX t.bY e).2) :
    s.Walked (t.scatterEntry e) (fun x y => d x y ∨ (x, y) = scatterPos s.cfg t.bX t.bY e) ∧
      t.StoreOnly (t.scatterEntry e) := by
  have hc := h.only.cfg
  refine ⟨?_, t.storeOnly_writePixel _ _ _ _ _⟩
  have ew : t.scatterEntry e =
      t.writePixel t.target t.cfg.wt (scatterPos s.cfg t.bX t.bY e).1 (scatterPos s.cfg t.bX t.bY e).2 (texelAt t.tile e) := by
    simp only [State.scatterEntry, hc]
  generalize scatterPos s.cfg t.bX t.bY e = pos at *
  rw [hp] at ew
  have k := h.pixel hs pos (s.closedPixel pos.1 pos.2) hx hy
  rw [ew]
  refine { k with pixels := fun x y hx' hy' hd => ?_ }
  by_cases hpos : x = pos.1 ∧ y = pos.2
  · obtain ⟨rfl, rfl⟩ := hpos
    exact t.stored_writePixel_same _ _ _ (h.only.target ▸ h.store)
  · rcases hd with hd | hd
    · exact k.pixels x y hx' hy' ⟨hd, hpos⟩
    · exact absurd ⟨congrArg Prod.fst hd, congrArg Prod.snd hd⟩ hpos

/-- The blocks of an admitted grid have storage indices below the number of blocks (R230, R235). -/
theorem State.Walkable.index_lt {s : State} (hs : s.Walkable) (b : Nat × Nat) (hx : b.1 < s.cfg.gw) (hy : b.2 < s.cfg.gh) :
    s.indexOf b < s.cfg.gw * s.cfg.gh := by
  have ho := hs.order
  unfold State.orderDefined gridPow2 at ho
  unfold State.indexOf
  split
  · rename_i hv
    rw [hv] at ho
    simp only [Bool.and_eq_true] at ho
    exact mortonIndex_lt _ _ _ _ _ ho.1 ho.2 hx hy
  · exact linearIndex_lt _ _ _ _ hx hy

/-- The blocks of a tile are blocks of the grid (R36). -/
theorem tileBlocks_lt (c : Latched) (b : Nat × Nat) (hx : b.1 < c.gw) (hy : b.2 < c.gh) (k : Corner) :
    ((tileBlocks c b).get k).1 < c.gw ∧ ((tileBlocks c b).get k).2 < c.gh := by
  have h1 := Nat.mod_lt (b.1 + 1) (show 0 < c.gw by omega)
  have h2 := Nat.mod_lt (b.2 + 1) (show 0 < c.gh by omega)
  cases k <;> exact ⟨by assumption, by assumption⟩

/-- The target raster is inside its space all along the walk. -/
theorem State.Walked.rasterInside {s t : State} {d : Nat → Nat → Prop} (h : s.Walked t d) (hs : s.Walkable) :
    t.rasterInside = true := by
  have hc := h.only.cfg
  have hg := hs.grid
  have h1 := hg.gw
  have h2 := hg.gh
  have h3 := hg.wt
  have h4 := hg.ht
  have hw := hg.width_cases
  simp only [State.rasterInside, hc, h.only.target, h.size, decide_eq_true_eq]
  refine ⟨?_, by omega, hs.room⟩
  rw [h3]
  exact Nat.mul_pos (by omega) (by omega)

/-- The scatter of a whole tile whose entries are the closed form's (R259). -/
theorem State.Walked.scatter {s t : State} {d : Nat → Nat → Prop} (h : s.Walked t d) (hs : s.Walkable)
    (hp : ∀ e, e < s.cfg.blockW * 4 →
      (scatterPos s.cfg t.bX t.bY e).1 < s.cfg.wt ∧ (scatterPos s.cfg t.bX t.bY e).2 < s.cfg.ht ∧
        texelAt t.tile e = s.closedPixel (scatterPos s.cfg t.bX t.bY e).1 (scatterPos s.cfg t.bX t.bY e).2) :
    ∃ u, scatterTile t = .next u ∧ t.StoreOnly u ∧
      s.Walked u (fun x y => d x y ∨ ∃ e, e < s.cfg.blockW * 4 ∧ (x, y) = scatterPos s.cfg t.bX t.bY e) := by
  rw [scatterTile, if_pos (h.rasterInside hs)]
  refine ⟨_, rfl, ?_⟩
  rw [h.only.cfg]
  have key := iter_builds
    (fun n u => t.StoreOnly u ∧
      s.Walked u (fun x y => d x y ∨ ∃ e, e < n ∧ (x, y) = scatterPos s.cfg t.bX t.bY e))
    (s.cfg.blockW * 4) (fun j u => State.scatterEntry u j) t
    ⟨State.StoreOnly.refl t, { h with pixels := fun x y hx hy hd => h.pixels x y hx hy (by simpa using hd) }⟩
    (by
      rintro i u hi ⟨h1, h2⟩
      have hbX : u.bX = t.bX := by rw [h1]
      have hbY : u.bY = t.bY := by rw [h1]
      have htl : u.tile = t.tile := by rw [h1]
      obtain ⟨a, b, c⟩ := hp i hi
      obtain ⟨h3, h4⟩ := h2.entry hs i (by rw [hbX, hbY]; exact a) (by rw [hbX, hbY]; exact b) (by rw [hbX, hbY, htl]; exact c)
      refine ⟨h1.trans h4, { h3 with pixels := fun x y hx hy hd => h3.pixels x y hx hy ?_ }⟩
      rw [hbX, hbY]
      rcases hd with hd | ⟨e, he, hxy⟩
      · exact .inl (.inl hd)
      · by_cases hei : e = i
        · exact .inr (hei ▸ hxy)
        · exact .inl (.inr ⟨e, by omega, hxy⟩))
  exact key

/-- One tile of the walk (R258): it goes on, and afterwards the pixels of its block-corner tile are the closed form's. -/
theorem State.Walked.tile {s t : State} {d : Nat → Nat → Prop} (h : s.Walked t d) (hs : s.Walkable) (i j : Nat)
    (hi : i < s.cfg.gw) (hj : j < s.cfg.gh) :
    ∃ u, doTile ((i : Int) - 1) ((j : Int) - 1) t = .next u ∧ u.ph = .scatter ∧ u.seq = 0 ∧
      u.bX = (i : Int) - 1 ∧ u.bY = (j : Int) - 1 ∧
      s.Walked u (fun x y => d x y ∨ (tileOfPixel s.cfg x y).1 = (walkedBlock s.cfg.gw i, walkedBlock s.cfg.gh j)) := by
  have hg := hs.grid
  have hgw := hg.gw
  have hgh := hg.gh
  -- FETCH
  obtain ⟨t1, ht1⟩ : ∃ t1, t1 = t.enterTile ((i : Int) - 1) ((j : Int) - 1) := ⟨_, rfl⟩
  have ht1o : t.WalkOnly t1 := by rw [ht1]; rfl
  have ho1 := h.only.trans ht1o
  have hc1 : t1.cfg = s.cfg := ho1.cfg
  have hl1 : t1.mortonLow = s.mortonLow := ho1.mortonLow
  have hbx : t1.bX = (i : Int) - 1 := by rw [ht1]; rfl
  have hby : t1.bY = (j : Int) - 1 := by rw [ht1]; rfl
  have hm1 : t1.mem = t.mem := by rw [ht1]; rfl
  have htmp1 : t1.tmp = t.tmp := by rw [ht1]; rfl
  have hbx' := walkedBlock_lt s.cfg.gw i (by omega) hi
  have hby' := walkedBlock_lt s.cfg.gh j (by omega) hj
  have hnb : neighbours t1.bX t1.bY t1.cfg.gw t1.cfg.gh =
      tileBlocks s.cfg (walkedBlock s.cfg.gw i, walkedBlock s.cfg.gh j) := by
    rw [hbx, hby, hc1]
    exact neighbours_walked s.cfg hg i j hi hj
  have hord : t1.orderDefined = true := by
    have := hs.order
    simp only [State.orderDefined, hc1] at this ⊢
    exact this
  have hin : t1.tileInside = true := by
    have hix : t1.beginTile.indexAll.ix =
        (tileBlocks s.cfg (walkedBlock s.cfg.gw i, walkedBlock s.cfg.gh j)).map s.indexOf := by
      rw [State.indexAll_ix, show t1.beginTile.blk = neighbours t1.bX t1.bY t1.cfg.gw t1.cfg.gh from rfl, hnb]
      have : ∀ b, t1.beginTile.indexOf b = s.indexOf b := fun b => State.indexOf_congr s _ b hl1 hc1
      simp only [Corners.map, this]
    have hcb : t1.beginTile.indexAll.cfg = s.cfg := by rw [State.indexAll_eq]; exact hc1
    have hk : ∀ k, ((tileBlocks s.cfg (walkedBlock s.cfg.gw i, walkedBlock s.cfg.gh j)).map s.indexOf).get k <
        s.cfg.gw * s.cfg.gh := by
      intro k
      rw [corners_get_map]
      obtain ⟨a, b⟩ := tileBlocks_lt s.cfg (walkedBlock s.cfg.gw i, walkedBlock s.cfg.gh j) hbx' hby' k
      exact hs.index_lt _ a b
    have hlen := hs.inLen
    rw [Nat.mul_assoc] at hlen
    have hp := hk .p
    have hq := hk .q
    have hr := hk .r
    have hss := hk .s
    simp only [State.tileInside, State.wordInside, hix, hcb, Bool.and_eq_true, decide_eq_true_eq]
    simp only [Corners.get] at hp hq hr hss
    refine ⟨⟨⟨?_, ?_⟩, ?_⟩, ?_⟩ <;> omega
  have hf : fetchPhase t1 = .next t1.fetched := by rw [fetchPhase_eq, if_pos hord, if_pos hin]
  -- UNPACK, INTERP, COMPOSE
  have hwd : t1.fetched.wd =
      (tileBlocks s.cfg (walkedBlock s.cfg.gw i, walkedBlock s.cfg.gh j)).map s.wordOfBlock := by
    rw [State.fetched_wd, hnb]
    have hw : ∀ k, t1.wordOfBlock ((tileBlocks s.cfg (walkedBlock s.cfg.gw i, walkedBlock s.cfg.gh j)).get k) =
        s.wordOfBlock ((tileBlocks s.cfg (walkedBlock s.cfg.gw i, walkedBlock s.cfg.gh j)).get k) := by
      intro k
      obtain ⟨a, b⟩ := tileBlocks_lt s.cfg (walkedBlock s.cfg.gw i, walkedBlock s.cfg.gh j) hbx' hby' k
      rw [State.wordOfBlock_congr t t1 _ hm1 (hl1.trans h.only.mortonLow.symm) (hc1.trans h.only.cfg.symm)]
      exact h.word hs _ (hs.index_lt _ a b)
    have hp := hw .p
    have hq := hw .q
    have hr := hw .r
    have hss := hw .s
    simp only [Corners.get] at hp hq hr hss
    simp only [Corners.map, hp, hq, hr, hss]
  have hfc : t1.fetched.cfg = s.cfg := by rw [State.fetched_eq]; exact hc1
  obtain ⟨u, hu⟩ : ∃ u, u = composePhase (interpPhase (unpackPhase t1.fetched)) := ⟨_, rfl⟩
  obtain ⟨k1, k2, k3⟩ := tile_spec t1.fetched (by rw [hfc]; exact hg.blockW) (by rw [State.fetched_eq]; rfl)
    (by rw [State.fetched_eq]; rfl) (by rw [State.fetched_eq]; rfl)
  rw [← hu] at k1 k2 k3
  rw [hfc, hwd] at k3
  have hf1 : t1.WalkOnly t1.fetched := by
    unfold State.WalkOnly
    rw [State.fetched_eq]
  have huo : t1.fetched.WalkOnly u := by
    unfold State.WalkOnly
    rw [k1]
  have huo : t1.WalkOnly u := hf1.trans huo
  have hum : u.mem = t1.mem := by
    have a : u.mem = t1.fetched.mem := by rw [k1]
    rw [a, State.fetched_eq]
  have hut : u.tmp = t1.tmp := by
    have a : u.tmp = t1.fetched.tmp := by rw [k1]
    rw [a, State.fetched_eq]
  have hux : u.bX = (i : Int) - 1 := by
    have a : u.bX = t1.fetched.bX := by rw [k1]
    rw [a, State.fetched_eq]
    exact hbx
  have huy : u.bY = (j : Int) - 1 := by
    have a : u.bY = t1.fetched.bY := by rw [k1]
    rw [a, State.fetched_eq]
    exact hby
  have huph : u.ph = .scatter := by rw [k1]
  have huseq : u.seq = 0 := by rw [k1]
  have huall := ho1.trans huo
  -- SCATTER
  have hW : s.Walked u d := by
    have hmem : u.mem = t.mem := hum.trans hm1
    have htm : u.tmp = t.tmp := hut.trans htmp1
    refine ⟨huall, ⟨hmem ▸ h.store.mem, htm ▸ h.store.tmp⟩, ?_, fun a ha => hmem ▸ h.outside a ha, ?_, ?_, ?_⟩
    · rw [← h.size]
      cases s.target <;> simp only [State.targetSize, huall.cfg, h.only.cfg, htm]
    · rw [htm]
      exact h.tmpWf
    · rw [htm]
      exact h.tmpSame
    · intro x y hx hy hd i' hi'
      have := h.pixels x y hx hy hd i' hi'
      rw [← huall.pixelOrder.trans h.only.pixelOrder.symm] at this
      rw [← this, huall.target, huall.cfg, h.only.target, h.only.cfg]
      cases s.target <;> simp only [State.peek, huall.cfg, h.only.cfg, hmem, htm]
  obtain ⟨v, hv, hvo, hvw⟩ := hW.scatter hs (by
    intro e he
    rw [hux, huy]
    obtain ⟨p1, p2, p3⟩ := scatterPos_tile s.cfg hg i j e hi hj he
    refine ⟨p1, p2, ?_⟩
    unfold texelAt
    rw [k3 e he]
    simp only [State.closedPixel, p3])
  refine ⟨v, ?_, ?_, ?_, ?_, ?_, ?_⟩
  · simp only [doTile, ← ht1, hf, andThen_next, ← hu]
    exact hv
  · rw [hvo]; exact huph
  · rw [hvo]; exact huseq
  · rw [hvo]; exact hux
  · rw [hvo]; exact huy
  · refine { hvw with pixels := fun x y hx hy hd => hvw.pixels x y hx hy ?_ }
    rcases hd with hd | hd
    · exact .inl hd
    · right
      obtain ⟨q1, q2, q3, q4, q5⟩ := pixel_scatterPos s.cfg hg x y hx hy
      refine ⟨(tileOfPixel s.cfg x y).2.2 * s.cfg.blockW + (tileOfPixel s.cfg x y).2.1, ?_, ?_⟩
      · rcases hg.width_cases with hw | hw <;> rw [hw] at q3 ⊢ <;> omega
      · rw [hux, huy, ← q5, hd]
        simp only [walkedBlock_pos _ _ (show 1 ≤ s.cfg.gw by omega) hi, walkedBlock_pos _ _ (show 1 ≤ s.cfg.gh by omega) hj]

/-- The whole walk (R254): it goes on, and every pixel of the raster is the closed form's (R260, R266). -/
theorem walk_spec (s : State) (hs : s.Walkable) (htmp : s.target = .tmp → ∀ r, s.tmp = some r → r.wf = true) :
    ∃ u, walk s = .next u ∧ u.ph = .scatter ∧ u.seq = 0 ∧ u.bX = (s.cfg.gw : Int) - 2 ∧ u.bY = (s.cfg.gh : Int) - 2 ∧
      s.Walked u (fun _ _ => True) := by
  have hg := hs.grid
  have hgw := hg.gw
  have hgh := hg.gh
  have h0 : s.Walked s (fun _ _ => False) :=
    ⟨State.WalkOnly.refl s, hs.store, rfl, fun _ _ => rfl, htmp, fun _ => rfl, fun _ _ _ _ h => h.elim⟩
  obtain ⟨u, hu, hp⟩ := iterM_builds
    (fun j t => s.Walked t (fun x y => ((tileOfPixel s.cfg x y).1.2 + 1) % s.cfg.gh < j) ∧
      (0 < j → t.ph = .scatter ∧ t.seq = 0 ∧ t.bX = (s.cfg.gw : Int) - 2 ∧ t.bY = (j : Int) - 2))
    s.cfg.gh (fun j => iterM s.cfg.gw (fun i => doTile ((i : Int) - 1) ((j : Int) - 1))) s
    ⟨{ h0 with pixels := fun x y _ _ h => absurd h (Nat.not_lt_zero _) }, by omega⟩
    (by
      rintro j t hj ⟨ht, -⟩
      obtain ⟨v, hv, hv1, hv2⟩ := iterM_builds
        (fun i t => s.Walked t (fun x y => ((tileOfPixel s.cfg x y).1.2 + 1) % s.cfg.gh < j ∨
            (((tileOfPixel s.cfg x y).1.2 + 1) % s.cfg.gh = j ∧ ((tileOfPixel s.cfg x y).1.1 + 1) % s.cfg.gw < i)) ∧
          (0 < i → t.ph = .scatter ∧ t.seq = 0 ∧ t.bX = (i : Int) - 2 ∧ t.bY = (j : Int) - 1))
        s.cfg.gw (fun i => doTile ((i : Int) - 1) ((j : Int) - 1)) t
        ⟨{ ht with pixels := fun x y hx hy h => ht.pixels x y hx hy (by
            rcases h with h | h
            · exact h
            · exact absurd h.2 (Nat.not_lt_zero _)) }, by omega⟩
        (by
          rintro i t' hi ⟨ht', -⟩
          obtain ⟨w, hw, w1, w2, w3, w4, w5⟩ := ht'.tile hs i j hi hj
          refine ⟨w, hw, { w5 with pixels := fun x y hx hy h => w5.pixels x y hx hy ?_ }, fun _ => ⟨w1, w2, by omega, w4⟩⟩
          obtain ⟨q1, q2, -⟩ := pixel_scatterPos s.cfg hg x y hx hy
          obtain ⟨-, b1⟩ := walkedBlock_inv s.cfg.gw _ (by omega) q1
          obtain ⟨-, b2⟩ := walkedBlock_inv s.cfg.gh _ (by omega) q2
          by_cases hlt : ((tileOfPixel s.cfg x y).1.2 + 1) % s.cfg.gh < j
          · exact .inl (.inl hlt)
          · obtain ⟨h1, h2⟩ := h.resolve_left hlt
            by_cases hlt2 : ((tileOfPixel s.cfg x y).1.1 + 1) % s.cfg.gw < i
            · exact .inl (.inr ⟨h1, hlt2⟩)
            · right
              have h3 : ((tileOfPixel s.cfg x y).1.1 + 1) % s.cfg.gw = i := by omega
              rw [h3] at b1
              rw [h1] at b2
              rw [b1, b2])
      obtain ⟨a1, a2, a3, a4⟩ := hv2 (by omega)
      refine ⟨v, hv, { hv1 with pixels := fun x y hx hy h => hv1.pixels x y hx hy ?_ }, fun _ => ⟨a1, a2, a3, by omega⟩⟩
      obtain ⟨q1, -⟩ := pixel_scatterPos s.cfg hg x y hx hy
      have := Nat.mod_lt ((tileOfPixel s.cfg x y).1.1 + 1) (show 0 < s.cfg.gw by omega)
      by_cases hlt : ((tileOfPixel s.cfg x y).1.2 + 1) % s.cfg.gh < j
      · exact .inl hlt
      · exact .inr ⟨by omega, this⟩)
  obtain ⟨hp1, hp2⟩ := hp
  obtain ⟨a1, a2, a3, a4⟩ := hp2 (by omega)
  refine ⟨u, hu, a1, a2, a3, a4, { hp1 with pixels := fun x y hx hy _ => hp1.pixels x y hx hy ?_ }⟩
  exact Nat.mod_lt _ (by omega)

end Sys2Proof.Machine
end

