-- ==== Sys2Proof/Laws/CopyBack.lean ====
section
/-! SUPPORT. The copy-back (R262): what it leaves in the bytes of `OUT`, and that it changes nothing else. -/

namespace Sys2Proof.Machine

/-- The copied bytes so far: those of the raster positions for which `d` holds. -/
structure State.Copied (s t : State) (r : TmpRaster) (d : Nat → Nat → Nat → Prop) : Prop where
  only   : t = { s with mem := t.mem }
  wf     : Memory.wf t.mem = true
  bytes  : ∀ x y i, x < s.cfg.width.toNat → y < s.cfg.height.toNat → i < 4 → d x y i →
             Memory.read t.mem (s.cfg.outSp.base + (pixelOffset s.cfg.width.toNat x y + i)) =
               r.read (pixelOffset s.cfg.wt x y + i)
  others : ∀ a, (a < s.cfg.outSp.base ∨ s.cfg.outSp.base + outBytes s.cfg ≤ a) →
             Memory.read t.mem a = Memory.read s.mem a

/-- One byte of the copy. -/
theorem State.Copied.byte {s t : State} {r : TmpRaster} {d : Nat → Nat → Nat → Prop} (h : s.Copied t r d)
    (hr : s.tmp = some r) (x y i : Nat) (hx : x < s.cfg.width.toNat) (hy : y < s.cfg.height.toNat) (hi : i < 4) :
    s.Copied (t.copyByte y x i) r (fun x' y' i' => d x' y' i' ∨ (x' = x ∧ y' = y ∧ i' = i)) := by
  have hc : t.cfg = s.cfg := by rw [h.only]
  have htmp : t.tmp = some r := by rw [h.only]; exact hr
  have e : t.copyByte y x i =
      { t with mem := Memory.write t.mem (s.cfg.outSp.base + (pixelOffset s.cfg.width.toNat x y + i))
                        (r.read (pixelOffset s.cfg.wt x y + i)) } := by
    simp only [State.copyByte, htmp, State.putByte, hc]
  have hlt := pixelOffset_lt s.cfg.width.toNat s.cfg.height.toNat x y i hx hy hi
  rw [e]
  refine ⟨?_, Memory.wf_write _ _ _ h.wf, ?_, ?_⟩
  · rw [h.only]
  · intro x' y' i' hx' hy' hi' hd
    show Memory.read (Memory.write _ _ _) _ = _
    rw [Memory.read_write _ _ _ _ h.wf]
    split
    · rename_i heq
      obtain ⟨rfl, rfl⟩ := pixelOffset_apart s.cfg.width.toNat x' y' x y i' i hx' hx hi' hi (by omega)
      have : i' = i := by omega
      rw [this]
    · rename_i hne
      rcases hd with hd | ⟨rfl, rfl, rfl⟩
      · exact h.bytes x' y' i' hx' hy' hi' hd
      · exact absurd rfl hne
  · intro a ha
    show Memory.read (Memory.write _ _ _) _ = _
    unfold outBytes at ha
    rw [Memory.read_write_other _ _ _ _ (by omega)]
    exact h.others a (by unfold outBytes; exact ha)

/-- The copy-back of a command whose rasters are in place: it goes on, every byte of the top-left corner of `TMP` is in
`OUT`, every other byte of host memory is unchanged, `TMP` is released, and nothing else changes (R262). -/
theorem copyBack_spec (s : State) (r : TmpRaster) (hr : s.tmp = some r) (hin : s.rasterInside = true)
    (hout : outBytes s.cfg ≤ s.cfg.outSp.len) (hm : Memory.wf s.mem = true) :
    ∃ m, copyBack s = .next { s with mem := m, tmp := none } ∧ Memory.wf m = true ∧
      (∀ x y i, x < s.cfg.width.toNat → y < s.cfg.height.toNat → i < 4 →
        Memory.read m (s.cfg.outSp.base + (pixelOffset s.cfg.width.toNat x y + i)) = r.read (pixelOffset s.cfg.wt x y + i)) ∧
      ∀ a, (a < s.cfg.outSp.base ∨ s.cfg.outSp.base + outBytes s.cfg ≤ a) → Memory.read m a = Memory.read s.mem a := by
  have h0 : s.Copied s r (fun _ _ _ => False) := ⟨rfl, hm, fun _ _ _ _ _ _ h => h.elim, fun _ _ => rfl⟩
  have key := iter_builds (fun y t => s.Copied t r (fun _ y' _ => y' < y)) s.cfg.height.toNat
    (fun y => iter s.cfg.width.toNat (fun x => iter 4 (fun i t => State.copyByte t y x i))) s
    { h0 with bytes := fun x y i hx hy hi h => absurd h (Nat.not_lt_zero _) }
    (by
      intro y t hy ht
      have k2 := iter_builds (fun x t => s.Copied t r (fun x' y' _ => y' < y ∨ (y' = y ∧ x' < x))) s.cfg.width.toNat
        (fun x => iter 4 (fun i t => State.copyByte t y x i)) t
        { ht with bytes := fun x' y' i' hx' hy' hi' h => ht.bytes x' y' i' hx' hy' hi' (by omega) }
        (by
          intro x t hx ht
          have k3 := iter_builds
            (fun i t => s.Copied t r (fun x' y' i' => (y' < y ∨ (y' = y ∧ x' < x)) ∨ (y' = y ∧ x' = x ∧ i' < i))) 4
            (fun i t => State.copyByte t y x i) t
            { ht with bytes := fun x' y' i' hx' hy' hi' h => ht.bytes x' y' i' hx' hy' hi' (by omega) }
            (by
              intro i t hi ht
              have k := ht.byte hr x y i hx hy hi
              exact { k with bytes := fun x' y' i' hx' hy' hi' h => k.bytes x' y' i' hx' hy' hi' (by omega) })
          exact { k3 with bytes := fun x' y' i' hx' hy' hi' h => k3.bytes x' y' i' hx' hy' hi' (by omega) })
      exact { k2 with bytes := fun x' y' i' hx' hy' hi' h => k2.bytes x' y' i' hx' hy' hi' (by omega) })
  rw [copyBack, hin, if_pos (by simpa using hout)]
  generalize iter s.cfg.height.toNat _ s = u at key ⊢
  refine ⟨u.mem, ?_, key.wf, fun x y i hx hy hi => key.bytes x y i hx hy hi hy, key.others⟩
  show Host.Outcome.next (u.setTmp none) = _
  rw [key.only]
  rfl

/-- The copy-back does not look at the phase it runs in. -/
theorem copyBack_enter (s : State) (ph : Phase) :
    copyBack (s.enter ph) = andThen (copyBack s) fun t => .next (t.enter ph) := by
  have one : ∀ (y x i : Nat) (t : State), (t.enter ph).copyByte y x i = (t.copyByte y x i).enter ph := by
    intro y x i t
    unfold State.copyByte
    show (match t.tmp with | some r => _ | none => _) = _
    cases t.tmp <;> rfl
  have loop : ∀ (n : Nat) (f : Nat → State → State), (∀ i t, f i (t.enter ph) = (f i t).enter ph) →
      ∀ t : State, iter n f (t.enter ph) = (iter n f t).enter ph := by
    intro n f h t
    induction n with
    | zero => rfl
    | succ n ih => rw [iter, iter, ih, h]
  have all := loop s.cfg.height.toNat
    (fun y => iter s.cfg.width.toNat (fun x => iter 4 (fun i t => State.copyByte t y x i)))
    (fun y => loop _ _ fun x => loop _ _ fun i => one y x i) s
  unfold copyBack
  show (if s.rasterInside && decide (outBytes s.cfg ≤ s.cfg.outSp.len) then _ else _) = _
  cases s.rasterInside && decide (outBytes s.cfg ≤ s.cfg.outSp.len)
  · rfl
  · simp only [if_true, andThen_next]
    congr 1
    exact congrArg (·.setTmp none) all

end Sys2Proof.Machine
end

