-- ==== Sys2Proof/Laws/Command.lean ====
section
/-! SUPPORT. The commands as a whole: where a command ends (R291 to R295, R263, R264) and what it leaves. -/

namespace Sys2Proof.Machine

/-! ## CHECK -/

@[simp] theorem State.configured_cfg (s : State) (v : Variant) (b : Bool) :
    (s.configured v b).cfg = checkedCfg (s.start v b).cfg := rfl

@[simp] theorem State.configured_mem (s : State) (v : Variant) (b : Bool) : (s.configured v b).mem = s.mem := rfl

@[simp] theorem State.configured_tmp (s : State) (v : Variant) (b : Bool) : (s.configured v b).tmp = s.tmp := rfl

/-- A pixel of the closed form depends on host memory, the low axis and the latched configuration alone. -/
theorem State.closedPixel_congr (s t : State) (x y : Nat) (hm : t.mem = s.mem) (hl : t.mortonLow = s.mortonLow)
    (hc : t.cfg = s.cfg) : t.closedPixel x y = s.closedPixel x y := by
  have : ∀ b, t.wordOfBlock b = s.wordOfBlock b := fun b => State.wordOfBlock_congr s t b hm hl hc
  simp only [State.closedPixel, hc, Corners.map, this]

/-- An admitted grid is in a defined order (R234, R293). -/
theorem orderDefined_admitted (s : State) (c : Latched) (hc : s.cfg = checkedCfg c)
    (h : checkCommand (configure c) = .none) : s.orderDefined = true := by
  obtain ⟨hd, hn, -⟩ := checkCommand_none _ h
  have he : checkedCfg c = withGrid (configure c) := by simp [checkedCfg, hd]
  unfold notPow2 at hn
  unfold State.orderDefined gridPow2
  rw [hc, he]
  split
  · rename_i hv
    rw [hv] at hn
    simpa using hn
  · rfl

/-- The input and output bounds, and the disjointness, that an admitted command has (R69, R70, R76). -/
theorem bounds_admitted (c : Latched) (h : checkCommand (configure c) = .none) :
    inBytes (checkedCfg c) ≤ (checkedCfg c).inSp.len ∧ outBytes (checkedCfg c) ≤ (checkedCfg c).outSp.len ∧
      rangesMeet (checkedCfg c).inSp.base (inBytes (checkedCfg c)) (checkedCfg c).outSp.base (outBytes (checkedCfg c)) = false := by
  obtain ⟨hd, -, -, hi, ho, hv⟩ := checkCommand_none _ h
  have he : checkedCfg c = withGrid (configure c) := by simp [checkedCfg, hd]
  rw [he]
  unfold inShort at hi
  unfold outShort at ho
  unfold overlaps at hv
  simp only [decide_eq_false_iff_not, Nat.not_lt] at hi ho
  exact ⟨hi, ho, hv⟩

/-- Without padding the raster is the requested size (R261). -/
theorem unpadded_admitted (c : Latched) (h : (checkedCfg c).pad = false) :
    (checkedCfg c).wt = (checkedCfg c).width.toNat ∧ (checkedCfg c).ht = (checkedCfg c).height.toNat := by
  obtain ⟨-, -, hp, -⟩ := checkedCfg_size c
  obtain ⟨-, -, hw, hh, -⟩ := checkedCfg_latched c
  rw [h] at hp
  simp only [Eq.comm (a := false), decide_eq_false_iff_not, not_or, not_not] at hp
  rw [hw, hh]
  exact hp

/-- A padded raster is at least the requested size (R252). -/
theorem padded_ge (c : Latched) :
    (checkedCfg c).width.toNat ≤ (checkedCfg c).wt ∧ (checkedCfg c).height.toNat ≤ (checkedCfg c).ht := by
  obtain ⟨a, b, -⟩ := checkedCfg_size c
  obtain ⟨-, -, hw, hh, -⟩ := checkedCfg_latched c
  rw [a, b, hw, hh]
  omega

/-- The walk of an admitted command may begin (R321, R295). -/
theorem walkable_admitted (s : State) (c : Latched) (hc : s.cfg = checkedCfg c) (h : checkCommand (configure c) = .none)
    (hm : Memory.wf s.mem = true)
    (ht : s.cfg.pad = true → ∃ r, s.tmp = some r ∧ r.size = s.cfg.wt * s.cfg.ht * 4) : s.Walkable := by
  obtain ⟨hi, ho, hv⟩ := bounds_admitted c h
  rw [← hc] at hi ho hv
  unfold inBytes at hi hv
  unfold outBytes at ho hv
  refine ⟨hc ▸ checkedCfg_grid c h, orderDefined_admitted s c hc h, hi, ⟨hm, ?_⟩, ?_, ?_⟩
  · intro h'
    unfold State.target at h'
    split at h'
    · obtain ⟨r, hr, -⟩ := ht ‹_›
      rw [hr]
      rfl
    · cases h'
  · unfold State.target
    split
    · obtain ⟨r, hr, hs⟩ := ht ‹_›
      simp only [State.targetSize, hr, hs, Nat.le_refl]
    · rename_i hp
      obtain ⟨h1, h2⟩ := unpadded_admitted c (by rw [← hc]; simpa using hp)
      rw [← hc] at h1 h2
      simpa only [State.targetSize, h1, h2] using ho
  · intro h' a ha1 ha2
    unfold State.target at h'
    split at h'
    · cases h'
    · rename_i hp
      obtain ⟨h1, h2⟩ := unpadded_admitted c (by rw [← hc]; simpa using hp)
      rw [← hc] at h1 h2
      unfold rangesMeet at hv
      simp only [decide_eq_false_iff_not] at hv
      rw [h1, h2]
      omega

/-! ## Where a command ends -/

/-- A refused command (R291, R292): it fails with the code, in one step. -/
theorem decomp_refused (s : State) (h : checkCommand (configure s.cfg) ≠ .none) :
    decomp s = .next ((s.setCfg (checkedCfg s.cfg)).takeFault (checkCommand (configure s.cfg))) := by
  have e : checkPhase s = (s.setCfg (checkedCfg s.cfg)).takeFault (checkCommand (configure s.cfg)) := by
    unfold checkPhase
    generalize checkCommand (configure s.cfg) = code at h
    cases code <;> first | rfl | exact absurd rfl h
  simp only [decomp, e, State.takeFault_ph, if_true]

/-- An admitted command enters the walk, or ALLOC when it is padded (R258). -/
theorem checkPhase_admitted (s : State) (h : checkCommand (configure s.cfg) = .none) :
    checkPhase s =
      if (checkedCfg s.cfg).pad then (s.setCfg (checkedCfg s.cfg)).enter .alloc
      else (s.setCfg (checkedCfg s.cfg)).enterTile (-1) (-1) := by
  unfold checkPhase
  rw [h]
  rfl

/-- The state in which the walk of a command begins: the draw has been taken and `TMP` created when it is padded. -/
def State.walkStart (s : State) : State :=
  if s.cfg.pad then (s.drawAlloc.2.setTmp (some ⟨s.cfg.wt * s.cfg.ht * 4, []⟩)).enterTile (-1) (-1)
  else s.enterTile (-1) (-1)

@[simp] theorem State.drawAlloc_cfg (s : State) : s.drawAlloc.2.cfg = s.cfg := by
  unfold State.drawAlloc
  split <;> rfl
@[simp] theorem State.drawAlloc_mem (s : State) : s.drawAlloc.2.mem = s.mem := by
  unfold State.drawAlloc
  split <;> rfl
@[simp] theorem State.drawAlloc_tmp (s : State) : s.drawAlloc.2.tmp = s.tmp := by
  unfold State.drawAlloc
  split <;> rfl
@[simp] theorem State.drawAlloc_mortonLow (s : State) : s.drawAlloc.2.mortonLow = s.mortonLow := by
  unfold State.drawAlloc
  split <;> rfl
@[simp] theorem State.drawAlloc_pixelOrder (s : State) : s.drawAlloc.2.pixelOrder = s.pixelOrder := by
  unfold State.drawAlloc
  split <;> rfl

/-- The draw changes the draws alone, and depends on them alone. -/
theorem State.drawAlloc_eq (s : State) :
    s.drawAlloc.2 = { s with allocGiven := s.drawAlloc.2.allocGiven, draws := s.drawAlloc.2.draws } := by
  unfold State.drawAlloc
  split <;> rfl

theorem State.drawAlloc_congr (s t : State) (h1 : t.allocGiven = s.allocGiven) (h2 : t.draws = s.draws) :
    t.drawAlloc.1 = s.drawAlloc.1 ∧ t.drawAlloc.2.allocGiven = s.drawAlloc.2.allocGiven ∧
      t.drawAlloc.2.draws = s.drawAlloc.2.draws := by
  unfold State.drawAlloc
  rw [h1, h2]
  split <;> exact ⟨rfl, rfl, rfl⟩

theorem State.walkStart_cfg (s : State) : s.walkStart.cfg = s.cfg := by
  unfold State.walkStart
  split <;> simp
theorem State.walkStart_mem (s : State) : s.walkStart.mem = s.mem := by
  unfold State.walkStart
  split <;> simp
theorem State.walkStart_mortonLow (s : State) : s.walkStart.mortonLow = s.mortonLow := by
  unfold State.walkStart
  split <;> simp
theorem State.walkStart_pixelOrder (s : State) : s.walkStart.pixelOrder = s.pixelOrder := by
  unfold State.walkStart
  split <;> simp

/-- The draw of a padded command in the ALLOC phase is the draw of the configured state. -/
theorem allocPhase_entered (s : State) :
    allocPhase (s.enter .alloc) =
      if s.drawAlloc.1 then (s.drawAlloc.2.setTmp (some ⟨s.cfg.wt * s.cfg.ht * 4, []⟩)).enterTile (-1) (-1)
      else s.drawAlloc.2.takeFault .alloc := by
  unfold allocPhase State.drawAlloc
  cases h : s.allocGiven with
  | nil =>
    simp only [State.enter, h]
    split <;> rfl
  | cons b rest =>
    simp only [State.enter, h]
    split <;> rfl

/-- A padded command whose allocation fails (R294): it fails with `F_ALLOC`. -/
theorem decomp_allocFailed (s : State) (h : checkCommand (configure s.cfg) = .none) (hp : (checkedCfg s.cfg).pad = true)
    (ha : (s.setCfg (checkedCfg s.cfg)).drawAlloc.1 = false) :
    decomp s = .next ((s.setCfg (checkedCfg s.cfg)).drawAlloc.2.takeFault .alloc) := by
  have e := checkPhase_admitted s h
  rw [hp, if_pos rfl] at e
  have hal := allocPhase_entered (s.setCfg (checkedCfg s.cfg))
  rw [ha, if_neg (by decide)] at hal
  have hne : ((s.setCfg (checkedCfg s.cfg)).enter .alloc).ph ≠ .failed := by
    rw [State.enter_ph]
    decide
  simp only [decomp, e, hal, State.enter_cfg, State.setCfg_cfg, hp, State.takeFault_ph, if_true]
  rw [if_neg hne]

/-- An admitted command whose allocation, if it needs one, succeeds runs the walk and then ends (R250). -/
theorem decomp_admitted (s : State) (h : checkCommand (configure s.cfg) = .none)
    (ha : (checkedCfg s.cfg).pad = true → (s.setCfg (checkedCfg s.cfg)).drawAlloc.1 = true) :
    decomp s = andThen (walk (s.setCfg (checkedCfg s.cfg)).walkStart) endCommand := by
  have e := checkPhase_admitted s h
  cases hp : (checkedCfg s.cfg).pad with
  | false =>
    rw [hp, if_neg (by decide)] at e
    have hw : (s.setCfg (checkedCfg s.cfg)).walkStart = (s.setCfg (checkedCfg s.cfg)).enterTile (-1) (-1) := by
      simp only [State.walkStart, State.setCfg_cfg, hp]
      rfl
    rw [hw]
    simp only [decomp, e, State.enterTile_cfg, State.setCfg_cfg, hp, State.enterTile_ph]
    rfl
  | true =>
    rw [hp, if_pos rfl] at e
    have hal := allocPhase_entered (s.setCfg (checkedCfg s.cfg))
    rw [ha hp, if_pos rfl] at hal
    have hw : (s.setCfg (checkedCfg s.cfg)).walkStart = allocPhase ((s.setCfg (checkedCfg s.cfg)).enter .alloc) := by
      rw [hal]
      simp only [State.walkStart, State.setCfg_cfg, hp]
      rfl
    rw [hw]
    have hph : (allocPhase ((s.setCfg (checkedCfg s.cfg)).enter .alloc)).ph ≠ .failed := by
      rw [hal, State.enterTile_ph]
      decide
    have hph1 : ((s.setCfg (checkedCfg s.cfg)).enter .alloc).ph ≠ .failed := by
      rw [State.enter_ph]
      decide
    simp only [decomp, e, State.enter_cfg, State.setCfg_cfg, hp, if_true, if_neg hph, if_neg hph1]

/-- What a command that runs to its end leaves (R263, R264, R266, R70): every pixel of the requested raster holds the
closed form's bytes, every other byte of host memory is unchanged, and outside the working registers only `RESULT`,
`FAULT`, `PH`, `TMP` and the draws differ from the configured state. -/
theorem decomp_done (s : State) (h : checkCommand (configure s.cfg) = .none) (hm : Memory.wf s.mem = true)
    (ha : (checkedCfg s.cfg).pad = true → (s.setCfg (checkedCfg s.cfg)).drawAlloc.1 = true) :
    ∃ t, decomp s = .next t ∧
      t = { s with
            cfg := checkedCfg s.cfg
            bX := (((checkedCfg s.cfg).gw : Int) - 2), bY := (((checkedCfg s.cfg).gh : Int) - 2)
            blk := t.blk, wd := t.wd, ca := t.ca, cb := t.cb, mv := t.mv, mm := t.mm
            ua := t.ua, ub := t.ub, tile := t.tile, ix := t.ix, weight := t.weight
            mem := t.mem
            tmp := if (checkedCfg s.cfg).pad then none else s.tmp
            allocGiven := if (checkedCfg s.cfg).pad then (s.setCfg (checkedCfg s.cfg)).drawAlloc.2.allocGiven else s.allocGiven
            draws := if (checkedCfg s.cfg).pad then (s.setCfg (checkedCfg s.cfg)).drawAlloc.2.draws else s.draws
            result := BitVec.ofNat 32 ((checkedCfg s.cfg).wt * (checkedCfg s.cfg).ht * (checkedCfg s.cfg).bpp / 8)
            fault := .none, ph := .done, seq := 0 } ∧
      Memory.wf t.mem = true ∧
      (∀ x y i, x < s.cfg.width.toNat → y < s.cfg.height.toNat → i < 4 →
        Memory.read t.mem (s.cfg.outSp.base + (pixelOffset s.cfg.width.toNat x y + i)) =
          (pixelBytes s.pixelOrder ((s.setCfg (checkedCfg s.cfg)).closedPixel x y)).getD i 0) ∧
      ∀ a, (a < s.cfg.outSp.base ∨ s.cfg.outSp.base + s.cfg.width.toNat * s.cfg.height.toNat * 4 ≤ a) →
        Memory.read t.mem a = Memory.read s.mem a := by
  rw [decomp_admitted s h ha]
  obtain ⟨c, hc⟩ : ∃ c, c = s.setCfg (checkedCfg s.cfg) := ⟨_, rfl⟩
  rw [← hc] at ha ⊢
  have hcc : c.cfg = checkedCfg s.cfg := by rw [hc]; rfl
  rw [← hcc] at ha ⊢
  have hwc : c.walkStart.cfg = checkedCfg s.cfg := c.walkStart_cfg.trans hcc
  have hwm : c.walkStart.mem = s.mem := c.walkStart_mem.trans (by rw [hc]; rfl)
  have hpad : c.walkStart.cfg.pad = true → ∃ r, c.walkStart.tmp = some r ∧
      r.size = c.walkStart.cfg.wt * c.walkStart.cfg.ht * 4 ∧ r.wf = true := by
    rw [c.walkStart_cfg]
    intro hp
    refine ⟨⟨c.cfg.wt * c.cfg.ht * 4, []⟩, ?_, rfl, rfl⟩
    simp only [State.walkStart, hp, if_true, State.enterTile_tmp, State.setTmp_tmp]
  have hwk : c.walkStart.Walkable := walkable_admitted _ _ hwc h (by rw [hwm]; exact hm)
    (fun hp => by obtain ⟨r, a, b, -⟩ := hpad hp; exact ⟨r, a, b⟩)
  have htw : c.walkStart.target = .tmp → ∀ r, c.walkStart.tmp = some r → r.wf = true := by
    intro ht r hr
    unfold State.target at ht
    split at ht
    · obtain ⟨r', a, -, b⟩ := hpad ‹_›
      rw [a] at hr
      cases hr
      exact b
    · cases ht
  obtain ⟨u, hu, u1, u2, u3, u4, u5⟩ := walk_spec _ hwk htw
  rw [hu, andThen_next]
  have huo := u5.only
  have huc : u.cfg = c.cfg := huo.cfg.trans c.walkStart_cfg
  obtain ⟨l1, l2, l3, l4, l5, l6⟩ := checkedCfg_latched s.cfg
  rw [← hcc] at l1 l2 l3 l4 l5 l6
  obtain ⟨w1, w2⟩ := padded_ge s.cfg
  rw [← hcc, l3] at w1
  rw [← hcc, l4] at w2
  have hcp : ∀ x y, c.walkStart.closedPixel x y = c.closedPixel x y := fun x y =>
    State.closedPixel_congr c _ x y c.walkStart_mem c.walkStart_mortonLow c.walkStart_cfg
  have hpo : u.pixelOrder = s.pixelOrder := huo.pixelOrder.trans (c.walkStart_pixelOrder.trans (by rw [hc]; rfl))
  have hout : ∀ a, Memory.read c.walkStart.mem a = Memory.read s.mem a := fun a => by rw [hwm]
  cases hp : c.cfg.pad with
  | false =>
    have htg : c.walkStart.target = .out := by
      unfold State.target
      rw [c.walkStart_cfg, hp]
      rfl
    have hts : c.walkStart = c.enterTile (-1) (-1) := by simp only [State.walkStart, hp]; rfl
    obtain ⟨p1, p2⟩ := unpadded_admitted s.cfg (by rw [← hcc]; exact hp)
    rw [← hcc, l3] at p1
    rw [← hcc, l4] at p2
    refine ⟨u.finish, ?_, ?_, u5.store.mem, ?_, ?_⟩
    · unfold endCommand
      rw [huc, hp]
      rfl
    · have htm : u.tmp = s.tmp := by
        rw [u5.tmpSame htg, hts, hc]
        rfl
      have e : u.finish = { u with result := BitVec.ofNat 32 (c.cfg.wt * c.cfg.ht * c.cfg.bpp / 8), fault := .none, ph := .done, seq := 0 } := by
        unfold State.finish
        rw [huc]
      rw [e]
      rw [c.walkStart_cfg] at u3 u4
      simp only [Bool.false_eq_true, if_false]
      have e2 : u = { s with cfg := c.cfg, ph := u.ph, seq := u.seq, bX := u.bX, bY := u.bY, blk := u.blk, wd := u.wd, ca := u.ca, cb := u.cb, mv := u.mv, mm := u.mm, ua := u.ua, ub := u.ub, tile := u.tile, ix := u.ix, weight := u.weight, mem := u.mem, tmp := u.tmp } := by
        have := huo
        unfold State.WalkOnly at this
        rw [this, hts, hc]
        rfl
      rw [u3, u4, htm] at e2
      rw [e2]
    · intro x y i hx hy hi
      have := u5.pixels x y (by rw [c.walkStart_cfg]; omega) (by rw [c.walkStart_cfg]; omega) trivial i hi
      rw [hcp, hpo, huo.target, htg, huc] at this
      simp only [State.peek, huc, l6, p1] at this
      exact this
    · intro a ha'
      show Memory.read u.mem a = _
      rw [← hout a]
      refine u5.outside a fun _ => ?_
      rw [c.walkStart_cfg, l6, p1, p2]
      exact ha'
  | true =>
    have htg : c.walkStart.target = .tmp := by
      unfold State.target
      rw [c.walkStart_cfg, hp]
      rfl
    have hts : c.walkStart = (c.drawAlloc.2.setTmp (some ⟨c.cfg.wt * c.cfg.ht * 4, []⟩)).enterTile (-1) (-1) := by
      simp only [State.walkStart, hp, if_true]
    obtain ⟨r, hr⟩ := Option.isSome_iff_exists.mp (u5.store.tmp htg)
    obtain ⟨-, ho, -⟩ := bounds_admitted s.cfg h
    rw [← hcc] at ho
    obtain ⟨m, hm1, hm2, hm3, hm4⟩ := copyBack_spec u r hr (u5.rasterInside hwk) (by rw [huc]; exact ho) u5.store.mem
    refine ⟨({ u with mem := m, tmp := none } : State).finish, ?_, ?_, hm2, ?_, ?_⟩
    · unfold endCommand
      rw [if_pos (by rw [huc]; exact hp), hm1, andThen_next]
    · have e : ({ u with mem := m, tmp := none } : State).finish =
          { u with mem := m, tmp := none, result := BitVec.ofNat 32 (c.cfg.wt * c.cfg.ht * c.cfg.bpp / 8), fault := .none, ph := .done, seq := 0 } := by
        unfold State.finish
        simp only [huc]
      rw [e]
      rw [c.walkStart_cfg] at u3 u4
      simp only [if_true]
      have e2 : u = { s with cfg := c.cfg, ph := u.ph, seq := u.seq, bX := u.bX, bY := u.bY, blk := u.blk, wd := u.wd, ca := u.ca, cb := u.cb, mv := u.mv, mm := u.mm, ua := u.ua, ub := u.ub, tile := u.tile, ix := u.ix, weight := u.weight, mem := u.mem, tmp := u.tmp, allocGiven := c.drawAlloc.2.allocGiven, draws := c.drawAlloc.2.draws } := by
        have := huo
        unfold State.WalkOnly at this
        rw [this, hts]
        have hd := c.drawAlloc_eq
        rw [hd, hc]
        rfl
      rw [u3, u4] at e2
      rw [e2]
    · intro x y i hx hy hi
      have hq := u5.pixels x y (by rw [c.walkStart_cfg]; omega) (by rw [c.walkStart_cfg]; omega) trivial i hi
      rw [hcp, hpo, huo.target, htg, huc] at hq
      simp only [State.peek, hr] at hq
      have := hm3 x y i (by rw [huc, l3]; exact hx) (by rw [huc, l4]; exact hy) hi
      rw [huc, hq, l3, l6] at this
      exact this
    · intro a ha'
      show Memory.read m a = _
      have : Memory.read m a = Memory.read u.mem a := hm4 a (by
        rw [huc]
        unfold outBytes
        rw [l3, l4, l6]
        exact ha')
      rw [this, ← hout a]
      exact u5.outside a fun h' => by rw [htg] at h'; cases h'

end Sys2Proof.Machine
end

