-- ==== Sys2Proof/Laws/Invariant.lean ====
section
/-! SUPPORT. The pieces of the core's work, one lemma each, and the invariant of Safety.lean: what each piece needs of it
and what it gives back. -/

namespace Sys2Proof.Machine

/-! ## Sizes -/

theorem fillGrids_length (w : Nat) (k : Corner) (code : Nat → Nat → Option Nat) (tag : ModTag) (g : Grids) :
    (fillGrids w k code tag g).mv.length = g.mv.length ∧ (fillGrids w k code tag g).mm.length = g.mm.length := by
  simp [fillGrids]

theorem unpackOp_length (i : Instr) (g : Grids) :
    (unpackOp i g).mv.length = g.mv.length ∧ (unpackOp i g).mm.length = g.mm.length := by
  unfold unpackOp
  split <;> first | exact fillGrids_length .. | exact ⟨rfl, rfl⟩

theorem unpack_length (b : Bool) (k : Corner) (w : CWord) (g : Grids) :
    (unpack b k w g).mv.length = g.mv.length ∧ (unpack b k w g).mm.length = g.mm.length := unpackOp_length _ _

theorem tileGrids_length (b : Bool) (w : Corners CWord) :
    (tileGrids b w).mv.length = 128 ∧ (tileGrids b w).mm.length = 128 := by
  have h : ∀ (g : Grids), (unpack b .s w.s (unpack b .r w.r (unpack b .q w.q (unpack b .p w.p g)))).mv.length = g.mv.length ∧
      (unpack b .s w.s (unpack b .r w.r (unpack b .q w.q (unpack b .p w.p g)))).mm.length = g.mm.length := by
    intro g
    simp only [(unpack_length _ _ _ _).1, (unpack_length _ _ _ _).2, and_self]
  exact h ⟨List.replicate 128 none, List.replicate 128 none⟩

/-- The sizes are kept by whatever leaves the grids and buffers alone. -/
theorem State.Sized.congr {s t : State} (h : s.Sized) (h1 : t.mv = s.mv) (h2 : t.mm = s.mm) (h3 : t.ua = s.ua)
    (h4 : t.ub = s.ub) (h5 : t.tile = s.tile) : t.Sized :=
  ⟨h1 ▸ h.mv, h2 ▸ h.mm, h3 ▸ h.ua, h4 ▸ h.ub, h5 ▸ h.tile⟩

theorem State.Sized.fetched {s : State} (h : s.Sized) : s.fetched.Sized := by
  rw [State.fetched_eq]
  exact ⟨h.mv, h.mm, List.length_replicate, List.length_replicate, List.length_replicate⟩

theorem State.Sized.unpackPhase {s : State} (h : s.Sized) : (unpackPhase s).Sized := by
  rw [unpackPhase_eq]
  obtain ⟨a, b⟩ := tileGrids_length s.cfg.is2bpp s.wd
  exact ⟨a, b, h.ua, h.ub, h.tile⟩

theorem State.Sized.interpPhase {s : State} (h : s.Sized) : (interpPhase s).Sized := by
  rw [interpPhase_eq]
  exact ⟨h.mv, h.mm, by simpa using h.ua, by simpa using h.ub, h.tile⟩

theorem State.Sized.composePhase {s : State} (h : s.Sized) : (composePhase s).Sized := by
  obtain ⟨h1, h2, -⟩ := composePhase_spec s
  rw [h1]
  exact ⟨h.mv, h.mm, h.ua, h.ub, h2.trans h.tile⟩

theorem State.StoreOnly.sized {s t : State} (h : s.StoreOnly t) (hz : s.Sized) : t.Sized := by
  rw [h]
  exact ⟨hz.mv, hz.mm, hz.ua, hz.ub, hz.tile⟩

/-- A scatter that goes on stores, and does nothing else. -/
theorem scatterTile_store {s t : State} (h : scatterTile s = .next t) : s.StoreOnly t := by
  unfold scatterTile at h
  split at h
  · cases h
    exact iter_keeps (fun u => s.StoreOnly u) _ _ _ (State.StoreOnly.refl s)
      fun i u _ hu => hu.trans (u.storeOnly_writePixel _ _ _ _ _)
  · cases h

/-- What a scatter leaves (R259, R261): each byte of the target raster that belongs to no pixel of the tile, and the other
of `OUT` and `TMP`. -/
theorem scatterTile_frame {s t : State} (h : scatterTile s = .next t) (hs : s.Storable s.target) :
    (∀ o, (∀ e n, e < s.cfg.blockW * 4 → n < 4 →
        o ≠ pixelOffset s.cfg.wt (scatterPos s.cfg s.bX s.bY e).1 (scatterPos s.cfg s.bX s.bY e).2 + n) →
      t.peek s.target o = s.peek s.target o) ∧
    (s.target = .tmp → t.mem = s.mem) ∧
    (s.target = .out → t.tmp = s.tmp ∧ ∀ a, a < s.cfg.outSp.base → Memory.read t.mem a = Memory.read s.mem a) := by
  unfold scatterTile at h
  split at h
  · cases h
    refine (iter_keeps (fun u => (s.StoreOnly u ∧ u.Storable s.target) ∧
      (∀ o, (∀ e n, e < s.cfg.blockW * 4 → n < 4 →
          o ≠ pixelOffset s.cfg.wt (scatterPos s.cfg s.bX s.bY e).1 (scatterPos s.cfg s.bX s.bY e).2 + n) →
        u.peek s.target o = s.peek s.target o) ∧
      (s.target = .tmp → u.mem = s.mem) ∧
      (s.target = .out → u.tmp = s.tmp ∧ ∀ a, a < s.cfg.outSp.base → Memory.read u.mem a = Memory.read s.mem a)) _ _ _
      ⟨⟨State.StoreOnly.refl s, hs⟩, fun _ _ => rfl, fun _ => rfl, fun _ => ⟨rfl, fun _ _ => rfl⟩⟩ ?_).2
    rintro i u hi ⟨⟨ho, hu⟩, hp, hm, ht⟩
    have hc := ho.walkOnly.cfg
    have htg := ho.walkOnly.target
    have hx : u.bX = s.bX := by rw [ho]
    have hy : u.bY = s.bY := by rw [ho]
    simp only [State.scatterEntry, hc, hx, hy, htg]
    refine ⟨⟨ho.trans (u.storeOnly_writePixel _ _ _ _ _), u.storable_writePixel _ _ _ _ _ hu⟩, fun o hne => ?_, ?_, ?_⟩
    · rw [State.peek_writePixel _ _ _ _ _ _ _ hu, if_neg, hp o hne]
      rintro ⟨h1, h2⟩
      exact hne i (o - pixelOffset s.cfg.wt (scatterPos s.cfg s.bX s.bY i).1 (scatterPos s.cfg s.bX s.bY i).2) hi (by omega)
        (by omega)
    · intro htgt
      rw [htgt, State.writePixel, State.mem_putBytes_tmp]
      exact hm htgt
    · intro htgt
      rw [htgt, State.writePixel, State.tmp_putBytes_out]
      refine ⟨(ht htgt).1, fun a ha => ?_⟩
      rw [State.read_putBytes_out _ _ _ _ (.inl (by rw [hc]; omega))]
      exact (ht htgt).2 a ha
  · cases h

/-- A tile that goes on keeps the sizes. -/
theorem doTile_sized {s t : State} {bx bY : Int} (h : doTile bx bY s = .next t) (hz : s.Sized) : t.Sized := by
  unfold doTile at h
  obtain ⟨u, hu, ht⟩ := (andThen_eq_next _ _ _).mp h
  rw [fetchPhase_eq] at hu
  repeat' split at hu
  · cases hu
    have hz1 : (s.enterTile bx bY).Sized := ⟨hz.mv, hz.mm, hz.ua, hz.ub, hz.tile⟩
    exact (scatterTile_store ht).sized (hz1.fetched.unpackPhase.interpPhase.composePhase)
  · cases hu
  · cases hu

/-- A property that every body of a loop keeps is kept by a loop that goes on. -/
theorem iterM_keeps (P : State → Prop) (n : Nat) (f : Nat → State → Result)
    (h : ∀ i x y, f i x = .next y → P x → P y) {a b : State} (hab : iterM n f a = .next b) (h0 : P a) : P b := by
  induction n generalizing b with
  | zero =>
    cases hab
    exact h0
  | succ n ih =>
    obtain ⟨u, hu, hb⟩ := (andThen_eq_next _ _ _).mp hab
    exact h n u b hb (ih hu)

/-- A property that every tile keeps is kept by the walk. -/
theorem walk_keeps (P : State → Prop) (h : ∀ bx bY x y, doTile bx bY x = .next y → P x → P y) {s t : State}
    (hst : walk s = .next t) (h0 : P s) : P t :=
  iterM_keeps P _ _ (fun _ _ _ hj => iterM_keeps P _ _ (fun _ _ _ hi => h _ _ _ _ hi) hj) hst h0

/-- The end of a command changes host memory, `TMP`, `RESULT`, `FAULT`, `PH` and the position in the phase alone. -/
theorem endCommand_only {s t : State} (h : endCommand s = .next t) :
    t = { s with mem := t.mem, tmp := t.tmp, result := t.result, fault := t.fault, ph := t.ph, seq := t.seq } := by
  have hcb : ∀ u, copyBack s = .next u → u = { s with mem := u.mem, tmp := u.tmp } := by
    intro u hu
    unfold copyBack at hu
    split at hu
    · cases hu
      have hb : ∀ (t : State) y x i, t.StoreOnly (t.copyByte y x i) := by
        intro t y x i
        unfold State.copyByte
        split
        · exact t.storeOnly_putByte _ _ _
        · exact State.StoreOnly.refl t
      have k : ∀ (n m : Nat) (s : State),
          s.StoreOnly (iter n (fun y => iter m (fun x => iter 4 (fun i t => State.copyByte t y x i))) s) := by
        intro n m s
        refine iter_keeps (fun u => s.StoreOnly u) _ _ _ (State.StoreOnly.refl s) fun y t _ ht => ?_
        refine iter_keeps (fun u => s.StoreOnly u) _ _ _ ht fun x t _ ht => ?_
        exact iter_keeps (fun u => s.StoreOnly u) _ _ _ ht fun i t _ ht => ht.trans (hb t y x i)
      have e := k s.cfg.height.toNat s.cfg.width.toNat s
      generalize iter s.cfg.height.toNat _ s = u at e ⊢
      rw [e]
      rfl
    · cases hu
  unfold endCommand at h
  split at h
  · obtain ⟨u, hu, ht⟩ := (andThen_eq_next _ _ _).mp h
    have e := hcb u hu
    cases ht
    rw [e]
    rfl
  · cases h
    rfl

/-- A command that goes on keeps the sizes. -/
theorem decomp_sized {s t : State} (h : decomp s = .next t) (hz : s.Sized) : t.Sized := by
  have hcf : ∀ u : State, (checkPhase u).mv = u.mv ∧ (checkPhase u).mm = u.mm ∧ (checkPhase u).ua = u.ua ∧
      (checkPhase u).ub = u.ub ∧ (checkPhase u).tile = u.tile := by
    intro u
    unfold checkPhase
    simp only
    split
    · split <;> simp
    · simp
  have haf : ∀ u : State, (allocPhase u).mv = u.mv ∧ (allocPhase u).mm = u.mm ∧ (allocPhase u).ua = u.ua ∧
      (allocPhase u).ub = u.ub ∧ (allocPhase u).tile = u.tile := by
    intro u
    have := u.drawAlloc_eq
    unfold allocPhase
    simp only
    split <;> rw [this] <;> simp
  have hz1 : (checkPhase s).Sized := by
    obtain ⟨a, b, c, d, e⟩ := hcf s
    exact hz.congr a b c d e
  unfold decomp at h
  simp only at h
  split at h
  · cases h
    exact hz1
  · have hz2 : (if (checkPhase s).cfg.pad then allocPhase (checkPhase s) else checkPhase s).Sized := by
      split
      · obtain ⟨a, b, c, d, e⟩ := haf (checkPhase s)
        exact hz1.congr a b c d e
      · exact hz1
    generalize (if (checkPhase s).cfg.pad then allocPhase (checkPhase s) else checkPhase s) = v at h hz2
    split at h
    · cases h
      exact hz2
    · obtain ⟨u, hu, ht⟩ := (andThen_eq_next _ _ _).mp h
      have hz3 := walk_keeps State.Sized (fun _ _ _ _ hd hx => doTile_sized hd hx) hu hz2
      have e := endCommand_only ht
      rw [e]
      exact ⟨hz3.mv, hz3.mm, hz3.ua, hz3.ub, hz3.tile⟩

/-! ## The checked configuration -/

/-- CHECK derives the same configuration from its own result. -/
theorem checkedCfg_idem (c : Latched) : checkedCfg (checkedCfg c) = checkedCfg c := by
  have h1 : ∀ c, configure (configure c) = configure c := fun c => rfl
  have h2 : ∀ c, configure (withGrid (configure c)) = { configure c with gw := (withGrid (configure c)).gw, gh := (withGrid (configure c)).gh } := fun c => rfl
  have h3 : ∀ c, dimMult (configure (withGrid (configure c))) = dimMult (configure c) := fun c => rfl
  have h4 : ∀ c, withGrid (configure (withGrid (configure c))) = withGrid (configure c) := fun c => rfl
  cases h : dimMult (configure c) with
  | true => simp only [checkedCfg, h, if_true, h1]
  | false => simp only [checkedCfg, h, Bool.false_eq_true, if_false, h3, h4]

/-- CHECK judges its own result as it judged the latched record. -/
theorem checkCommand_idem (c : Latched) (h : checkCommand (configure c) = .none) :
    checkCommand (configure (checkedCfg c)) = .none := by
  have hd := (checkCommand_none _ h).1
  have he : checkedCfg c = withGrid (configure c) := by simp [checkedCfg, hd]
  have h5 : checkCommand (configure (withGrid (configure c))) = checkCommand (configure c) := rfl
  rw [he, h5, h]

/-! ## The invariant, piece by piece -/

/-- A core that is not busy, with nothing allocated, needs no more than canonical memory and its sizes. -/
theorem State.Inv.rest {s : State} (hm : Memory.wf s.mem = true) (ht : s.tmp = none) (hz : s.Sized)
    (hp : s.ph.admittedWork = false) : s.Inv := by
  have h1 : s.ph.tileWork = false := by revert hp; cases s.ph <;> decide
  have h2 : s.ph.afterAlloc = false := by revert hp; cases s.ph <;> decide
  refine ⟨hm, by simp [ht], hz, by simp [hp], ?_, by simp [h2], fun _ => ht, by simp [h1], by simp [h1], ?_⟩
  · rintro (h | h) <;> rw [h] at hp <;> cases hp
  · intro h
    rw [h] at hp
    cases hp

/-- The walk of an invariant state may go on: its geometry, its bounds and its stores are those of an admitted command. -/
theorem State.Inv.walkable {s : State} (h : s.Inv) (hp : s.ph.afterAlloc = true) : s.Walkable := by
  have h1 : s.ph.admittedWork = true := by revert hp; cases s.ph <;> decide
  obtain ⟨c1, c2⟩ := h.config h1
  exact walkable_admitted s s.cfg c2 c1 h.mem fun hpad => h.tmpSize hp hpad

/-- The target raster of an invariant state lies inside its space (R70, R80). -/
theorem State.Inv.rasterInside {s : State} (h : s.Inv) (hp : s.ph.afterAlloc = true) : s.rasterInside = true := by
  have hw := h.walkable hp
  have hg := hw.grid
  have := hg.width_cases
  have h1 := hg.gw
  have h2 := hg.gh
  simp only [State.rasterInside, decide_eq_true_eq]
  refine ⟨?_, by rw [hg.ht]; omega, hw.room⟩
  rw [hg.wt]
  exact Nat.mul_pos (by omega) (by omega)

/-- Work inside a tile that leaves the walker, the blocks, the configuration and the stores alone. -/
theorem State.Inv.tileStep {s t : State} (h : s.Inv) (hs : s.ph.tileWork = true)
    (hb : ∀ k, (s.blk.get k).1 < s.cfg.gw ∧ (s.blk.get k).2 < s.cfg.gh)
    (ht : t = { s with
      wd := t.wd, ca := t.ca, cb := t.cb, mv := t.mv, mm := t.mm, ua := t.ua, ub := t.ub, tile := t.tile, ix := t.ix
      weight := t.weight, ph := t.ph, seq := t.seq })
    (hz : t.Sized) (hp : t.ph.tileWork = true) (hx : t.ph = .fetch → ∀ n, n < 4 → n + 2 ≤ t.seq → t.ix.get (cornerAt n) < s.cfg.gw * s.cfg.gh) :
    t.Inv := by
  have a1 : ∀ p : Phase, p.tileWork = true → p.admittedWork = true ∧ p.afterAlloc = true ∧ p ≠ .alloc ∧ p ≠ .copyback := by
    intro p
    cases p <;> decide
  obtain ⟨s1, s2, s3, s4⟩ := a1 _ hs
  obtain ⟨t1, t2, t3, t4⟩ := a1 _ hp
  have hc : t.cfg = s.cfg := by rw [ht]
  have hm : t.mem = s.mem := by rw [ht]
  have htm : t.tmp = s.tmp := by rw [ht]
  have hbl : t.blk = s.blk := by rw [ht]
  have hbx : t.bX = s.bX := by rw [ht]
  have hby : t.bY = s.bY := by rw [ht]
  refine ⟨hm ▸ h.mem, htm ▸ h.tmpWf, hz, ?_, ?_, ?_, ?_, ?_, ?_, ?_⟩
  · rw [hc]
    exact fun _ => h.config s1
  · rintro (h | h)
    · exact absurd h t3
    · exact absurd h t4
  · rw [hc, htm]
    exact fun _ => h.tmpSize s2
  · rw [hc, htm]
    intro hn
    exact h.tmpGone fun ⟨_, b⟩ => hn ⟨t2, b⟩
  · rw [hc, hbx, hby]
    exact fun _ => h.walker hs
  · rw [hc, hbl]
    exact fun _ _ => hb
  · rw [hc]
    exact hx

/-- CHECK (R258, R291). -/
theorem State.Inv.checkPhase {s : State} (h : s.Inv) (hp : s.ph = .check) : (checkPhase s).Inv := by
  have ht : s.tmp = none := h.tmpGone (by rw [hp]; simp [Phase.afterAlloc])
  unfold Machine.checkPhase
  simp only
  split
  · rename_i hc
    have hi := checkCommand_idem _ hc
    have he := (checkedCfg_idem s.cfg).symm
    have hg := checkedCfg_grid _ hc
    have g1 := hg.gw
    have g2 := hg.gh
    split
    · rename_i hpad
      refine ⟨h.mem, by simp [ht], h.sized.congr rfl rfl rfl rfl rfl, fun _ => ⟨hi, he⟩, fun _ => hpad, ?_, ?_, ?_, ?_, ?_⟩ <;>
        simp [Phase.afterAlloc, Phase.tileWork, ht]
    · rename_i hpad
      have hpad : (checkedCfg s.cfg).pad = false := by simpa using hpad
      refine ⟨h.mem, by simp [ht], h.sized.congr rfl rfl rfl rfl rfl, fun _ => ⟨hi, he⟩, ?_, ?_, ?_, ?_, ?_, ?_⟩
      · simp
      · simp [hpad]
      · simp [ht]
      · intro _
        simp only [State.enterTile_bX, State.enterTile_bY, State.enterTile_cfg, State.setCfg_cfg]
        omega
      · simp
      · simp
  · exact State.Inv.rest h.mem rfl (h.sized.congr rfl rfl rfl rfl rfl) rfl

/-- ALLOC (R258, R294). -/
theorem State.Inv.allocPhase {s : State} (h : s.Inv) (hp : s.ph = .alloc) : (allocPhase s).Inv := by
  have hpad := h.padded (.inl hp)
  obtain ⟨hc, he⟩ := h.config (by rw [hp]; rfl)
  have hg := checkedCfg_grid _ hc
  rw [← he] at hg
  have g1 := hg.gw
  have g2 := hg.gh
  have ed := s.drawAlloc_eq
  unfold Machine.allocPhase
  simp only
  split
  · rw [ed]
    refine ⟨h.mem, ?_, h.sized.congr rfl rfl rfl rfl rfl, fun _ => ⟨hc, he⟩, by simp, fun _ _ => ⟨_, rfl, rfl⟩, ?_, ?_, ?_, ?_⟩
    · intro r hr
      cases hr
      rfl
    · simp [Phase.afterAlloc, hpad]
    · intro _
      simp only [State.enterTile_bX, State.enterTile_bY, State.enterTile_cfg, State.setTmp_cfg]
      omega
    · simp
    · simp
  · rw [ed]
    exact State.Inv.rest h.mem rfl (h.sized.congr rfl rfl rfl rfl rfl) rfl

/-- The block indices of a tile lie in the grid (R36, R255). -/
theorem neighbours_lt (bx bY : Int) (gw gh : Nat) (hw : 0 < gw) (hh : 0 < gh) (k : Corner) :
    ((neighbours bx bY gw gh).get k).1 < gw ∧ ((neighbours bx bY gw gh).get k).2 < gh := by
  have m : ∀ (a : Int) (n : Nat), 0 < n → (a % n).toNat < n := by
    intro a n hn
    have := Int.emod_nonneg a (b := n) (by omega)
    have := Int.emod_lt_of_pos a (b := n) (by omega)
    omega
  cases k <;> exact ⟨m _ _ hw, m _ _ hh⟩

/-- The storage index of a block of an admitted grid (R230). -/
theorem State.Inv.index_lt {s : State} (h : s.Inv) (hp : s.ph.afterAlloc = true) (b : Nat × Nat) (hx : b.1 < s.cfg.gw)
    (hy : b.2 < s.cfg.gh) : s.indexOf b < s.cfg.gw * s.cfg.gh := (h.walkable hp).index_lt b hx hy

/-- FETCH as one step (R258): it goes on. -/
theorem State.Inv.fetchPhase {s : State} (h : s.Inv) (hp : s.ph = .fetch) : ∃ t, fetchPhase s = .next t ∧ t.Inv := by
  have hw := h.walkable (by rw [hp]; rfl)
  have hg := hw.grid
  have g1 := hg.gw
  have g2 := hg.gh
  have hnb := neighbours_lt s.bX s.bY s.cfg.gw s.cfg.gh (by omega) (by omega)
  have hblk : s.fetched.blk = neighbours s.bX s.bY s.cfg.gw s.cfg.gh := by
    unfold State.fetched
    simp only [State.enter_blk, State.setWords_blk]
    rw [State.indexAll_eq]
    rfl
  have hin : s.tileInside = true := by
    have hc1 : s.beginTile.cfg = s.cfg := rfl
    have hc2 : s.beginTile.indexAll.cfg = s.cfg := by rw [State.indexAll_eq]; rfl
    have hi : ∀ k, s.beginTile.indexAll.ix.get k < s.cfg.gw * s.cfg.gh := by
      intro k
      rw [State.indexAll_ix, corners_get_map]
      have : s.beginTile.indexOf (s.beginTile.blk.get k) = s.indexOf (s.beginTile.blk.get k) :=
        State.indexOf_congr s _ _ rfl rfl
      rw [this]
      exact hw.index_lt _ (hnb k).1 (hnb k).2
    have hl := hw.inLen
    rw [Nat.mul_assoc] at hl
    have p := hi .p
    have q := hi .q
    have r := hi .r
    have ss := hi .s
    simp only [Corners.get] at p q r ss
    simp only [State.tileInside, State.wordInside, hc2, Bool.and_eq_true, decide_eq_true_eq]
    refine ⟨⟨⟨?_, ?_⟩, ?_⟩, ?_⟩ <;> omega
  refine ⟨s.fetched, by rw [fetchPhase_eq, if_pos hw.order, if_pos hin], ?_⟩
  have hz := h.sized.fetched
  have e := s.fetched_eq
  rw [hblk] at e
  generalize s.fetched = t at e hz ⊢
  have hi1 : ({ s with blk := neighbours s.bX s.bY s.cfg.gw s.cfg.gh } : State).Inv :=
    ⟨h.mem, h.tmpWf, h.sized.congr rfl rfl rfl rfl rfl, h.config, h.padded, h.tmpSize, h.tmpGone, h.walker, fun _ _ => hnb, h.indices⟩
  refine hi1.tileStep (by show s.ph.tileWork = true; rw [hp]; rfl) hnb ?_ hz ?_ ?_
  · rw [e]
  · rw [e]
    rfl
  · rw [e]
    intro h
    cases h

/-- UNPACK as one step. -/
theorem State.Inv.unpackPhase {s : State} (h : s.Inv) (hp : s.ph = .unpack) : (unpackPhase s).Inv := by
  refine h.tileStep (by rw [hp]; rfl) (h.blocks (by rw [hp]; rfl) (.inl (by rw [hp]; simp))) ?_ h.sized.unpackPhase ?_ ?_
  · rw [unpackPhase_eq]
  · rw [unpackPhase_eq]
    rfl
  · rw [unpackPhase_eq]
    intro h
    cases h

/-- INTERP as one step. -/
theorem State.Inv.interpPhase {s : State} (h : s.Inv) (hp : s.ph = .interp) : (interpPhase s).Inv := by
  refine h.tileStep (by rw [hp]; rfl) (h.blocks (by rw [hp]; rfl) (.inl (by rw [hp]; simp))) ?_ h.sized.interpPhase ?_ ?_
  · rw [interpPhase_eq]
  · rw [interpPhase_eq]
    rfl
  · rw [interpPhase_eq]
    intro h
    cases h

/-- COMPOSE as one step. -/
theorem State.Inv.composePhase {s : State} (h : s.Inv) (hp : s.ph = .compose) : (composePhase s).Inv := by
  obtain ⟨e, -, -⟩ := composePhase_spec s
  refine h.tileStep (by rw [hp]; rfl) (h.blocks (by rw [hp]; rfl) (.inl (by rw [hp]; simp))) ?_ h.sized.composePhase ?_ ?_
  · rw [e]
  · rw [e]
    rfl
  · rw [e]
    intro h
    cases h

/-- Stores to the target keep memory and `TMP` canonical, and the size of `TMP`. -/
theorem State.Walkable.scatter {s : State} (hw : s.Walkable) (hin : s.rasterInside = true)
    (htw : s.target = .tmp → ∀ r, s.tmp = some r → r.wf = true) :
    ∃ t, scatterTile s = .next t ∧ s.StoreOnly t ∧ Memory.wf t.mem = true ∧ (∀ r, s.target = .tmp → t.tmp = some r → r.wf = true) ∧
      (s.target = .out → t.tmp = s.tmp) ∧ t.targetSize s.target = s.targetSize s.target ∧ t.Storable s.target := by
  obtain ⟨t, ht⟩ : ∃ t, scatterTile s = .next t := by
    unfold scatterTile
    rw [if_pos hin]
    exact ⟨_, rfl⟩
  refine ⟨t, ht, scatterTile_store ht, ?_⟩
  have hg := hw.grid
  have g1 := hg.gw
  have g2 := hg.gh
  have hwc := hg.width_cases
  have hwt : 0 < s.cfg.wt := by
    rw [hg.wt]
    exact Nat.mul_pos (by omega) (by omega)
  have hht : 0 < s.cfg.ht := by
    rw [hg.ht]
    omega
  have m : ∀ (a : Int) (n : Nat), 0 < n → (a % n).toNat < n := by
    intro a n hn
    have := Int.emod_nonneg a (b := n) (by omega)
    have := Int.emod_lt_of_pos a (b := n) (by omega)
    omega
  unfold scatterTile at ht
  rw [if_pos hin] at ht
  cases ht
  have key := iter_keeps
    (fun u => s.Walked u (fun _ _ => False)) (s.cfg.blockW * 4) (fun j t => State.scatterEntry t j) s
    ⟨State.WalkOnly.refl s, hw.store, rfl, fun _ _ => rfl, htw, fun _ => rfl, fun _ _ _ _ h => h.elim⟩
    (by
      intro j u _ hu
      have hc := hu.only.cfg
      have htg := hu.only.target
      have hst : u.StoreOnly (u.scatterEntry j) := u.storeOnly_writePixel _ _ _ _ _
      generalize hpos : scatterPos u.cfg u.bX u.bY j = pos at *
      have ew : u.scatterEntry j = u.writePixel u.target u.cfg.wt pos.1 pos.2 (texelAt u.tile j) := by
        simp only [State.scatterEntry, hpos]
      have hx : pos.1 < s.cfg.wt := by
        rw [← hpos, hc]
        exact m _ _ hwt
      have hy : pos.2 < s.cfg.ht := by
        rw [← hpos, hc]
        exact m _ _ hht
      have k := hu.pixel hw pos (texelAt u.tile j) hx hy
      rw [ew]
      exact { k with pixels := fun _ _ _ _ h => h.elim })
  generalize iter (s.cfg.blockW * 4) _ s = u at key ⊢
  exact ⟨key.store.mem, fun r h1 h2 => key.tmpWf h1 r h2, key.tmpSame, key.size, key.store⟩

end Sys2Proof.Machine
end

