-- ==== Sys2Proof/Laws/Steps.lean ====
section
/-! SUPPORT. One row of R258's table, one operation, and one host move: from a state that meets the invariant each goes on
to one that meets it. -/

namespace Sys2Proof.Machine

/-! ## SCATTER and COPYBACK -/

/-- SCATTER with what follows it (R258, R259). -/
theorem State.Inv.scatterStep {s : State} (h : s.Inv) (hp : s.ph = .scatter) :
    ∃ t, (andThen (scatterTile s) fun t => .next t.afterScatter) = .next t ∧ t.Inv := by
  have haa : s.ph.afterAlloc = true := by rw [hp]; rfl
  have htw : s.ph.tileWork = true := by rw [hp]; rfl
  have hw := h.walkable haa
  obtain ⟨u, hu, ho, um, ut, us, uz, -⟩ := hw.scatter (h.rasterInside haa) fun _ r hr => h.tmpWf r hr
  refine ⟨u.afterScatter, by rw [hu]; rfl, ?_⟩
  have hc : u.cfg = s.cfg := by rw [ho]
  have hbx : u.bX = s.bX := by rw [ho]
  have hby : u.bY = s.bY := by rw [ho]
  have hz := ho.sized h.sized
  have hcfg := h.config (by rw [hp]; rfl)
  obtain ⟨w1, w2, w3, w4⟩ := h.walker htw
  have hg := hw.grid
  have g1 := hg.gw
  have g2 := hg.gh
  have twf : ∀ r, u.tmp = some r → r.wf = true := by
    intro r hr
    cases htg : s.target with
    | out => exact h.tmpWf r (us htg ▸ hr)
    | tmp => exact ut r htg hr
  have tsz : s.cfg.pad = true → ∃ r, u.tmp = some r ∧ r.size = s.cfg.wt * s.cfg.ht * 4 := by
    intro hpad
    have htg : s.target = .tmp := by unfold State.target; rw [hpad]; rfl
    obtain ⟨r0, hr0, hs0⟩ := h.tmpSize haa hpad
    rw [htg] at uz
    simp only [State.targetSize, hr0] at uz
    cases hut : u.tmp with
    | none =>
      rw [hut] at uz
      simp only at uz
      have := hw.room
      rw [htg] at this
      simp only [State.targetSize, hr0] at this
      have hwc := hg.width_cases
      have : 0 < s.cfg.wt * s.cfg.ht := by
        rw [hg.wt, hg.ht]
        exact Nat.mul_pos (Nat.mul_pos (by omega) (by omega)) (by omega)
      omega
    | some r =>
      rw [hut] at uz
      simp only at uz
      exact ⟨r, rfl, by omega⟩
  have tgn : s.cfg.pad = false → u.tmp = none := by
    intro hpad
    have htg : s.target = .out := by unfold State.target; rw [hpad]; rfl
    rw [us htg]
    exact h.tmpGone (by simp [hpad])
  unfold State.afterScatter
  split
  · split
    · rename_i hpad
      rw [hc] at hpad
      refine ⟨um, twf, hz.congr rfl rfl rfl rfl rfl, ?_, ?_, ?_, ?_, ?_, ?_, ?_⟩
      · intro _
        rw [State.enter_cfg, hc]
        exact hcfg
      · intro _
        rw [State.enter_cfg, hc]
        exact hpad
      · intro _ _
        rw [State.enter_cfg, hc]
        exact tsz hpad
      · simp [Phase.afterAlloc, hc, hpad]
      · simp [Phase.tileWork]
      · simp [Phase.tileWork]
      · simp
    · rename_i hpad
      rw [hc] at hpad
      exact State.Inv.rest um (tgn (by simpa using hpad)) (hz.congr rfl rfl rfl rfl rfl) rfl
  · rename_i hlast
    simp only [State.lastTile, hbx, hby, hc, decide_eq_true_eq] at hlast
    have base : ∀ bx bY : Int, -1 ≤ bx → bx ≤ (s.cfg.gw : Int) - 2 → -1 ≤ bY → bY ≤ (s.cfg.gh : Int) - 2 →
        (u.enterTile bx bY).Inv := by
      intro bx bY b1 b2 b3 b4
      refine ⟨um, twf, hz.congr rfl rfl rfl rfl rfl, ?_, by simp, ?_, ?_, ?_, by simp, by simp⟩
      · intro _
        rw [State.enterTile_cfg, hc]
        exact hcfg
      · intro _
        rw [State.enterTile_cfg, hc]
        exact tsz
      · rw [State.enterTile_cfg, hc]
        simp only [State.enterTile_ph, Phase.afterAlloc, true_and, Bool.not_eq_true]
        exact tgn
      · intro _
        rw [State.enterTile_cfg, hc]
        exact ⟨b1, b2, b3, b4⟩
    unfold State.nextTile
    rw [hc, hbx, hby]
    split
    · exact base _ _ (by omega) (by omega) (by omega) (by omega)
    · exact base _ _ (by omega) (by omega) (by omega) (by omega)

/-- COPYBACK with the end of the command (R258, R262 to R264). -/
theorem State.Inv.copybackStep {s : State} (h : s.Inv) (hp : s.ph = .copyback) :
    ∃ t, (andThen (copyBack s) fun t => .next t.finish) = .next t ∧ t.Inv := by
  have haa : s.ph.afterAlloc = true := by rw [hp]; rfl
  have hpad := h.padded (.inr hp)
  obtain ⟨r, hr, -⟩ := h.tmpSize haa hpad
  obtain ⟨c1, c2⟩ := h.config (by rw [hp]; rfl)
  obtain ⟨-, ho, -⟩ := bounds_admitted _ c1
  rw [← c2] at ho
  obtain ⟨m, hm, hwf, -⟩ := copyBack_spec s r hr (h.rasterInside haa) ho h.mem
  rw [hm]
  exact ⟨_, rfl, State.Inv.rest hwf rfl (h.sized.congr rfl rfl rfl rfl rfl) rfl⟩

/-! ## One row of R258's table -/

/-- A core that meets the invariant takes its row of R258's table and meets the invariant again. -/
theorem State.Inv.phaseStep {s : State} (h : s.Inv) : ∃ t, phaseStep s = .next t ∧ t.Inv := by
  cases hp : s.ph <;> simp only [Machine.phaseStep, hp]
  case idle | done | failed => exact ⟨s, rfl, h⟩
  case check => exact ⟨_, rfl, h.checkPhase hp⟩
  case alloc => exact ⟨_, rfl, h.allocPhase hp⟩
  case fetch => exact h.fetchPhase hp
  case unpack => exact ⟨_, rfl, h.unpackPhase hp⟩
  case interp => exact ⟨_, rfl, h.interpPhase hp⟩
  case compose => exact ⟨_, rfl, h.composePhase hp⟩
  case scatter => exact h.scatterStep hp
  case copyback => exact h.copybackStep hp

/-! ## One operation -/

/-- Going past an operation inside FETCH moves to the next piece. -/
theorem State.Inv.setIx {s : State} (h : s.Inv) (hp : s.ph = .fetch) (n v : Nat) (h1 : s.seq = n + 1) (hn : n < 4)
    (hv : v < s.cfg.gw * s.cfg.gh) : (s.setIx (cornerAt n) v).advance.Inv := by
  have hb := h.blocks (by rw [hp]; rfl) (.inr (by omega))
  have e : (s.setIx (cornerAt n) v).advance = { s with ix := s.ix.set (cornerAt n) v, seq := s.seq + 1 } := by
    simp only [State.advance, State.setIx_ph, hp]
    simp only [State.setIx, hp]
  rw [e]
  refine h.tileStep (by rw [hp]; rfl) hb rfl (h.sized.congr rfl rfl rfl rfl rfl) (by show s.ph.tileWork = true; rw [hp]; rfl) ?_
  intro _ m hm hle
  simp only at hle
  show (s.ix.set (cornerAt n) v).get (cornerAt m) < _
  by_cases hmn : m = n
  · subst hmn
    rw [corners_get_set_same]
    exact hv
  · rw [corners_get_set_other _ _ _ _ (by
      have : m < n := by omega
      have : ∀ a b : Fin 4, a ≠ b → cornerAt a ≠ cornerAt b := by decide
      exact this ⟨m, hm⟩ ⟨n, hn⟩ (by simpa using hmn))]
    exact h.indices hp m hm (by omega)

/-- The piece that begins a tile (R256). -/
theorem State.Inv.beginTile {s : State} (h : s.Inv) (hp : s.ph = .fetch) (h0 : s.seq = 0) : s.beginTile.advance.Inv := by
  have hg := (h.walkable (by rw [hp]; rfl)).grid
  have g1 := hg.gw
  have g2 := hg.gh
  have hnb := neighbours_lt s.bX s.bY s.cfg.gw s.cfg.gh (by omega) (by omega)
  have e : s.beginTile.advance =
      { s with
        blk := neighbours s.bX s.bY s.cfg.gw s.cfg.gh, ua := List.replicate 32 none, ub := List.replicate 32 none
        tile := List.replicate 32 none, seq := 1 } := by
    simp only [State.advance, State.beginTile, State.setBlk, State.clearBuffers, hp, h0]
  rw [e]
  refine ⟨h.mem, h.tmpWf, ⟨h.sized.mv, h.sized.mm, List.length_replicate, List.length_replicate, List.length_replicate⟩,
    h.config, h.padded, h.tmpSize, h.tmpGone, h.walker, fun _ _ => hnb, ?_⟩
  intro _ n _ hn
  simp only at hn
  omega

/-- The piece that reads the words (R257). -/
theorem State.Inv.loadWords {s : State} (h : s.Inv) (hp : s.ph = .fetch) (h5 : 5 ≤ s.seq) :
    ∃ t, loadWords s = .next t ∧ t.Inv := by
  have hb := h.blocks (by rw [hp]; rfl) (.inr (by omega))
  have hw := h.walkable (by rw [hp]; rfl)
  have hl := hw.inLen
  rw [Nat.mul_assoc] at hl
  have i0 := h.indices hp 0 (by omega) (by omega)
  have i1 := h.indices hp 1 (by omega) (by omega)
  have i2 := h.indices hp 2 (by omega) (by omega)
  have i3 := h.indices hp 3 (by omega) (by omega)
  simp only [cornerAt, Corners.get] at i0 i1 i2 i3
  unfold Machine.loadWords
  rw [if_pos (by
    simp only [State.wordInside, Bool.and_eq_true, decide_eq_true_eq]
    refine ⟨⟨⟨?_, ?_⟩, ?_⟩, ?_⟩ <;> omega)]
  refine ⟨_, rfl, h.tileStep (by rw [hp]; rfl) hb rfl (h.sized.congr rfl rfl rfl rfl rfl) rfl ?_⟩
  intro h
  cases h

/-- Working registers written inside UNPACK, INTERP or COMPOSE, and the step to the next piece or phase. -/
theorem State.Inv.work {s t : State} (h : s.Inv) (hp : s.ph = .unpack ∨ s.ph = .interp ∨ s.ph = .compose)
    (ht : t = { s with
      ca := t.ca, cb := t.cb, mv := t.mv, mm := t.mm, ua := t.ua, ub := t.ub, tile := t.tile, weight := t.weight })
    (hz : t.Sized) : t.advance.Inv := by
  have htw : s.ph.tileWork = true := by rcases hp with h | h | h <;> rw [h] <;> rfl
  have hnf : s.ph ≠ .fetch := by rcases hp with h | h | h <;> rw [h] <;> simp
  have hb := h.blocks htw (.inl hnf)
  have htp : t.ph = s.ph := by rw [ht]
  have hq : t.advance = { t with ph := t.advance.ph, seq := t.advance.seq } := by
    unfold State.advance
    split
    · split <;> rfl
    · split <;> rfl
    · split <;> rfl
    · rfl
  have hph : t.advance.ph = .unpack ∨ t.advance.ph = .interp ∨ t.advance.ph = .compose ∨ t.advance.ph = .scatter := by
    unfold State.advance
    rcases hp with h | h | h <;> rw [h] at htp <;> rw [htp] <;> simp only <;> split <;> simp
  refine h.tileStep htw hb ?_ ?_ (by rcases hph with h | h | h | h <;> rw [h] <;> rfl)
    (fun hf => by rcases hph with h | h | h | h <;> rw [h] at hf <;> cases hf)
  · generalize t.advance = u at *
    rw [hq, ht]
  · rw [hq]
    exact ⟨hz.mv, hz.mm, hz.ua, hz.ub, hz.tile⟩

/-- An operation of the opcode table that is no command and no index mapping writes working registers alone. -/
theorem exec_work (i : Instr) (s : State) (hz : s.Sized)
    (hi : i.inTile = true) :
    ∃ t, exec i s = .next t ∧
      t = { s with
        ca := t.ca, cb := t.cb, mv := t.mv, mm := t.mm, ua := t.ua, ub := t.ub, tile := t.tile, weight := t.weight } ∧
      t.Sized := by
  have hset : ∀ j p, (s.setTexel j p).Sized := fun j p =>
    ⟨hz.mv, hz.mm, hz.ua, hz.ub, by simp [State.setTexel, hz.tile]⟩
  have hmod : ∀ i, (s.unpackInto i).Sized := fun i => by
    obtain ⟨a, b⟩ := unpackOp_length i s.grids
    exact ⟨a.trans hz.mv, b.trans hz.mm, hz.ua, hz.ub, hz.tile⟩
  have hint : ∀ b c, (s.interpolate b c).Sized := fun b c => by
    cases c <;> exact ⟨hz.mv, hz.mm, by simp [State.interpolate, State.setColorBuf, State.colorBuf, hz.ua],
      by simp [State.interpolate, State.setColorBuf, State.colorBuf, hz.ub], hz.tile⟩
  have hint2 : ∀ b c, s.interpolate b c = { s with ua := (s.interpolate b c).ua, ub := (s.interpolate b c).ub } := by
    intro b c
    cases c <;> rfl
  cases i <;> try cases hi
  case interp4bpp c => exact ⟨_, rfl, by rw [hint2], hint false c⟩
  case interp2bpp c => exact ⟨_, rfl, by rw [hint2], hint true c⟩
  case mod4Std k m => exact ⟨_, rfl, rfl, hmod _⟩
  case mod4Pt k m => exact ⟨_, rfl, rfl, hmod _⟩
  case mod2Direct k m => exact ⟨_, rfl, rfl, hmod _⟩
  case mod2Hv k m => exact ⟨_, rfl, rfl, hmod _⟩
  case mod2H k m => exact ⟨_, rfl, rfl, hmod _⟩
  case mod2V k m => exact ⟨_, rfl, rfl, hmod _⟩
  case compose j => exact ⟨_, rfl, rfl, hset _ _⟩
  case composePtI j => exact ⟨_, rfl, rfl, hset _ _⟩
  case composePtII j => exact ⟨_, rfl, rfl, hset _ _⟩
  all_goals exact ⟨_, rfl, rfl, ⟨hz.mv, hz.mm, hz.ua, hz.ub, hz.tile⟩⟩

end Sys2Proof.Machine
end

