-- ==== Sys2Proof/Laws/Phases.lean ====
section
/-! SUPPORT. The walk of a command, tile after tile, against the rows of R258's table: five rows make a tile, and the rows
of a whole walk make the nested loops of R254. -/

namespace Sys2Proof.Machine

/-- `n` rows of R258's table. -/
def phaseRun : Nat → State → Result
  | 0, s => .next s
  | n + 1, s => andThen (phaseStep s) (phaseRun n)

theorem phaseRun_add (m n : Nat) (s : State) : phaseRun (m + n) s = andThen (phaseRun m s) (phaseRun n) := by
  induction m generalizing s with
  | zero => simp [phaseRun]
  | succ m ih =>
    rw [Nat.succ_add, phaseRun, phaseRun, andThen_assoc]
    congr 1
    funext u
    exact ih u

/-- The machine takes the rows of R258's table while it is busy, at phase granularity, with no move of the host waiting. -/
theorem step_phase (s : State) (hg : s.granularity = .phase) (hq : s.hostQ = []) : step s = phaseStep s := by
  show machineStep s = _
  unfold machineStep
  rw [hq]
  simp only
  split
  · simp only [busyStep, hg]
  · rename_i hb
    unfold State.busy State.status at hb
    cases hp : s.ph <;> rw [hp] at hb <;> first
      | exact absurd (by decide) hb
      | simp only [phaseStep, hp]

/-! ## Nested loops as one -/

theorem iterM_add (m n : Nat) (f : Nat → State → Result) (s : State) :
    iterM (m + n) f s = andThen (iterM m f s) (iterM n (fun i => f (m + i))) := by
  induction n with
  | zero => cases h : iterM m f s <;> simp [iterM]
  | succ n ih =>
    rw [← Nat.add_assoc, iterM, ih, andThen_assoc]
    rfl

theorem iterM_mul (m n : Nat) (f : Nat → State → Result) (s : State) :
    iterM (m * n) f s = iterM m (fun j => iterM n (fun i => f (j * n + i))) s := by
  induction m with
  | zero => simp [iterM]
  | succ m ih =>
    rw [Nat.succ_mul, iterM_add, ih]
    rfl

theorem iterM_congr (n : Nat) (f g : Nat → State → Result) (s : State) (h : ∀ i, i < n → f i = g i) :
    iterM n f s = iterM n g s := by
  induction n with
  | zero => rfl
  | succ n ih => rw [iterM, iterM, ih fun i hi => h i (by omega), h n (Nat.lt_succ_self n)]

/-- Tile number `n` of the walk (R254). -/
def nthTile (gw n : Nat) : State → Result := doTile (((n % gw : Nat) : Int) - 1) (((n / gw : Nat) : Int) - 1)

/-- The walk visits its tiles in the order of R254: `BY` outer, `BX` inner. -/
theorem walk_eq (s : State) (h : 0 < s.cfg.gw) : walk s = iterM (s.cfg.gh * s.cfg.gw) (nthTile s.cfg.gw) s := by
  rw [iterM_mul]
  unfold walk
  refine iterM_congr _ _ _ _ fun j _ => ?_
  funext t
  refine iterM_congr _ _ _ _ fun i hi => ?_
  unfold nthTile
  have h1 : (j * s.cfg.gw + i) % s.cfg.gw = i := by
    rw [Nat.add_comm, Nat.add_mul_mod_self_right, Nat.mod_eq_of_lt hi]
  have h2 : (j * s.cfg.gw + i) / s.cfg.gw = j := by
    rw [Nat.add_comm, Nat.add_mul_div_right _ _ h, Nat.div_eq_of_lt hi, Nat.zero_add]
  rw [h1, h2]

/-! ## Five rows a tile -/

@[simp] theorem doTile_enterTile (bx bY bx' bY' : Int) (s : State) : doTile bx bY (s.enterTile bx' bY') = doTile bx bY s := rfl

/-- Five rows from the beginning of a tile do the tile and go on (R258). -/
theorem phaseRun_tile (s : State) (bx bY : Int) :
    phaseRun 5 (s.enterTile bx bY) = andThen (doTile bx bY s) fun t => .next t.afterScatter := by
  have hf : ∀ t, fetchPhase (s.enterTile bx bY) = .next t → t.ph = .unpack := by
    intro t ht
    rw [fetchPhase_eq] at ht
    repeat' split at ht
    · cases ht
      rw [State.fetched_eq]
    · cases ht
    · cases ht
  rw [doTile, andThen_assoc, phaseRun]
  have e : phaseStep (s.enterTile bx bY) = fetchPhase (s.enterTile bx bY) := rfl
  rw [e]
  cases h : fetchPhase (s.enterTile bx bY) with
  | fault => rfl
  | refused => rfl
  | next t =>
    have h1 := hf t h
    have e1 : phaseStep t = .next (unpackPhase t) := by rw [phaseStep, h1]
    have h2 : (unpackPhase t).ph = .interp := by rw [unpackPhase_eq]
    have e2 : phaseStep (unpackPhase t) = .next (interpPhase (unpackPhase t)) := by
      generalize unpackPhase t = u at h2
      rw [phaseStep, h2]
    have h3 : (interpPhase (unpackPhase t)).ph = .compose := by rw [interpPhase_eq]
    have e3 : phaseStep (interpPhase (unpackPhase t)) = .next (composePhase (interpPhase (unpackPhase t))) := by
      generalize interpPhase (unpackPhase t) = u at h3
      rw [phaseStep, h3]
    have h4 : (composePhase (interpPhase (unpackPhase t))).ph = .scatter := by
      rw [(composePhase_spec _).1]
    generalize hu : composePhase (interpPhase (unpackPhase t)) = u at *
    have e4 : phaseStep u = andThen (scatterTile u) fun t => .next t.afterScatter := by rw [phaseStep, h4]
    simp only [phaseRun, andThen_next, e1, e2, e3, e4, hu]
    cases scatterTile u <;> rfl

/-- What a tile leaves of the walker and the configuration. -/
theorem doTile_frame {s t : State} {bx bY : Int} (h : doTile bx bY s = .next t) :
    t.bX = bx ∧ t.bY = bY ∧ t.cfg = s.cfg ∧ t.ph = .scatter ∧ t.granularity = s.granularity ∧ t.hostQ = s.hostQ := by
  unfold doTile at h
  obtain ⟨u, hu, ht⟩ := (andThen_eq_next _ _ _).mp h
  rw [fetchPhase_eq] at hu
  repeat' split at hu
  · cases hu
    obtain ⟨k1, -, -⟩ := composePhase_spec (interpPhase (unpackPhase (s.enterTile bx bY).fetched))
    have k2 := scatterTile_store ht
    generalize composePhase (interpPhase (unpackPhase (s.enterTile bx bY).fetched)) = v at k1 k2
    rw [k2]
    rw [interpPhase_eq, unpackPhase_eq, State.fetched_eq] at k1
    rw [k1]
    exact ⟨rfl, rfl, rfl, rfl, rfl, rfl⟩
  · cases hu
  · cases hu

/-- The rows of a whole walk are its tiles, followed by what follows the last one (R254, R258). -/
theorem phaseRun_walk (s t : State) (hg : 2 ≤ s.cfg.gw) (hh : 2 ≤ s.cfg.gh) (hw : walk s = .next t) :
    phaseRun (5 * (s.cfg.gh * s.cfg.gw)) (s.enterTile (-1) (-1)) = .next t.afterScatter ∧ t.ph = .scatter ∧
      t.bX = (s.cfg.gw : Int) - 2 ∧ t.bY = (s.cfg.gh : Int) - 2 ∧ t.cfg = s.cfg ∧
      ∀ k, k < s.cfg.gh * s.cfg.gw → ∃ u, phaseRun (5 * k) (s.enterTile (-1) (-1)) = .next u ∧ u.ph = .fetch := by
  rw [walk_eq s (by omega)] at hw
  obtain ⟨gw, hgw⟩ : ∃ n, n = s.cfg.gw := ⟨_, rfl⟩
  obtain ⟨gh, hgh⟩ : ∃ n, n = s.cfg.gh := ⟨_, rfl⟩
  rw [← hgw] at hg hw ⊢
  rw [← hgh] at hh hw ⊢
  have hpos : 0 < gh * gw := Nat.mul_pos (by omega) (by omega)
  -- the loop goes on at every tile before the last
  have pre : ∀ k, k ≤ gh * gw → ∃ u, iterM k (nthTile gw) s = .next u := by
    intro k hk
    obtain ⟨d, hd⟩ : ∃ d, gh * gw = k + d := ⟨gh * gw - k, by omega⟩
    rw [hd, iterM_add] at hw
    obtain ⟨u, hu, -⟩ := (andThen_eq_next _ _ _).mp hw
    exact ⟨u, hu⟩
  -- after k tiles the run is at tile k
  have run : ∀ k, k < gh * gw → ∃ u, iterM k (nthTile gw) s = .next u ∧ u.cfg = s.cfg ∧
      phaseRun (5 * k) (s.enterTile (-1) (-1)) =
        .next (u.enterTile (((k % gw : Nat) : Int) - 1) (((k / gw : Nat) : Int) - 1)) := by
    intro k
    induction k with
    | zero =>
      intro _
      exact ⟨s, rfl, rfl, by simp [phaseRun]⟩
    | succ k ih =>
      intro hk
      obtain ⟨u, hu, hc, hr⟩ := ih (by omega)
      obtain ⟨v, hv⟩ := pre (k + 1) (by omega)
      refine ⟨v, hv, ?_⟩
      have hv' : nthTile gw k u = .next v := by
        rw [iterM, hu, andThen_next] at hv
        exact hv
      obtain ⟨f1, f2, f3, -⟩ := doTile_frame hv'
      refine ⟨f3.trans hc, ?_⟩
      rw [Nat.mul_succ, phaseRun_add, hr, andThen_next, phaseRun_tile]
      unfold nthTile at hv'
      rw [hv', andThen_next]
      congr 1
      have hcg : v.cfg.gw = gw := by rw [f3, hc, hgw]
      have hch : v.cfg.gh = gh := by rw [f3, hc, hgh]
      have hm := Nat.mod_lt k (show 0 < gw by omega)
      have hdm := Nat.div_add_mod k gw
      have hdm1 := Nat.div_add_mod (k + 1) gw
      have hm1 := Nat.mod_lt (k + 1) (show 0 < gw by omega)
      unfold State.afterScatter State.nextTile State.lastTile
      rw [f1, f2, hcg, hch]
      by_cases hend : k % gw = gw - 1
      · have e1 : (k + 1) / gw = k / gw + 1 := by
          have : k + 1 = gw * (k / gw + 1) := by rw [Nat.mul_succ]; omega
          rw [this, Nat.mul_div_cancel_left _ (by omega)]
        have e2 : (k + 1) % gw = 0 := by
          have : k + 1 = gw * (k / gw + 1) := by rw [Nat.mul_succ]; omega
          rw [this, Nat.mul_mod_right]
        have hlt : k / gw + 1 < gh := by
          rw [← e1]
          exact Nat.div_lt_of_lt_mul (by rw [Nat.mul_comm]; exact hk)
        rw [if_neg (by simp only [decide_eq_true_eq]; omega), if_pos (by omega), e1, e2]
        congr 1
        push_cast
        omega
      · have e1 : (k + 1) / gw = k / gw := by
          rw [← hdm, Nat.add_assoc, Nat.mul_add_div (by omega), Nat.div_eq_of_lt (show k % gw + 1 < gw by omega), Nat.add_zero]
          rw [Nat.mul_add_div (by omega), Nat.div_eq_of_lt hm, Nat.add_zero]
        have e2 : (k + 1) % gw = k % gw + 1 := by
          rw [e1] at hdm1
          omega
        rw [if_neg (by simp only [decide_eq_true_eq]; omega), if_neg (by omega), e1, e2]
        congr 1
        push_cast
        omega
  obtain ⟨u, hu, hc, hr⟩ := run (gh * gw - 1) (by omega)
  have hlast : gh * gw = (gh * gw - 1) + 1 := by omega
  have hv' : nthTile gw (gh * gw - 1) u = .next t := by
    rw [hlast, iterM, hu, andThen_next] at hw
    exact hw
  obtain ⟨f1, f2, f3, f4, -⟩ := doTile_frame hv'
  have m1 : (gh * gw - 1) % gw = gw - 1 ∧ (gh * gw - 1) / gw = gh - 1 := by
    obtain ⟨g, rfl⟩ : ∃ g, gh = g + 1 := ⟨gh - 1, by omega⟩
    have : (g + 1) * gw - 1 = g * gw + (gw - 1) := by rw [Nat.succ_mul]; omega
    rw [this]
    constructor
    · rw [Nat.add_comm, Nat.add_mul_mod_self_right, Nat.mod_eq_of_lt (by omega)]
    · rw [Nat.add_comm, Nat.add_mul_div_right _ _ (by omega), Nat.div_eq_of_lt (by omega)]
      omega
  rw [m1.1] at f1
  rw [m1.2] at f2
  refine ⟨?_, f4, by omega, by omega, f3.trans hc, fun k hk => ?_⟩
  · rw [hlast, Nat.mul_succ, phaseRun_add, hr, andThen_next, phaseRun_tile]
    unfold nthTile at hv'
    rw [hv', andThen_next]
  · obtain ⟨u, -, -, hr⟩ := run k hk
    exact ⟨_, hr, rfl⟩

end Sys2Proof.Machine
end

