-- ==== Sys2Proof/Laws/Operations.lean ====
section
/-! SUPPORT. The operations as the sequencer runs them: what each decoded operation does to the state it is fetched from,
and the steps of a phase taken operation by operation. -/

namespace Sys2Proof.Machine

/-! ## The decoded operation of each selection -/

/-- The index mapping of a block (R230), on a grid whose order is defined. -/
theorem exec_index (s : State) (k : Corner) (h : s.orderDefined = true) :
    exec (decode (s.fetchSlot (.index k))) s = .next (s.setIx k (s.indexOf (s.blk.get k))) := by
  unfold State.orderDefined at h
  simp only [decode, State.fetchSlot, selVariant_cmdSel]
  cases hv : s.cfg.variant <;> rw [hv] at h
  · simp [exec, execIdxMorton, State.indexOf, hv, h]
  · simp [exec, execIdxLinear, State.indexOf, hv]

/-- Colour A of a block (R120, R127). -/
theorem exec_colA (s : State) (k : Corner) :
    exec (decode (s.fetchSlot (.colA k))) s = .next (s.setCa k (extractA (s.wd.get k).col)) := by
  simp only [decode, State.fetchSlot, State.slotWord, wordOf64_word64, extractA, decodeColA]
  cases opaqueA (s.wd.get k).col <;> rfl

/-- Colour B of a block (R120, R127). -/
theorem exec_colB (s : State) (k : Corner) :
    exec (decode (s.fetchSlot (.colB k))) s = .next (s.setCb k (extractB s.cfg.variant (s.wd.get k).col)) := by
  simp only [decode, State.fetchSlot, State.slotWord, wordOf64_word64, extractB, decodeColB, selVariant_cmdSel]
  cases opaqueB (s.wd.get k).col <;> cases s.cfg.variant <;> rfl

/-- The unpacking of a block's word (R140, R141). -/
theorem exec_mod (s : State) (k : Corner) : exec (decode (s.fetchSlot (.mod k))) s = .next (s.unpackBlock k) := by
  simp only [decode, State.fetchSlot, State.slotWord, wordOf64_word64, sel2bpp_cmdSel, State.unpackBlock, unpack]
  rcases decodeMod_cases k s.cfg.is2bpp (s.wd.get k) with h | h | h | h | h | h <;> rw [h] <;> rfl

/-- The interpolation of a slot (R197). -/
theorem exec_interp (s : State) (c : ColorSlot) :
    exec (decode (s.fetchSlot (.interp c))) s = .next (s.interpolate s.cfg.is2bpp c) := by
  simp only [decode, State.fetchSlot, sel2bpp_cmdSel]
  cases s.cfg.is2bpp <;> rfl

/-- The weight of a supergrid position (R170 to R175). -/
theorem exec_resolve (s : State) (x y : Nat) :
    exec (decode (s.fetchSlot (.resolve x y))) s = .next (s.setWeight (weightOf s.cfg.is2bpp s.grids x y)) := by
  simp only [decode, State.fetchSlot, sel2bpp_cmdSel, State.slotTag, weightOf, decodeResolve, State.grids]
  cases s.cfg.is2bpp <;> cases oddParity x y <;> cases tagAt s.mm x y <;> rfl

/-- The blend of a tile entry (R210, R212 to R214). -/
theorem exec_compose (s : State) (j : Nat) :
    exec (decode (s.fetchSlot (.compose j))) s =
      .next (s.setTexel j (composeTexel s.cfg.variant s.weight (colorAt .a s.ua j) (colorAt .b s.ub j))) := by
  simp only [decode, State.fetchSlot, selVariant_cmdSel, composeTexel, decodeCompose]
  by_cases h : s.weight ≤ 10
  · simp only [if_pos h]
    rfl
  · simp only [if_neg h]
    cases s.cfg.variant <;> rfl

/-! ## Steps at operation granularity -/

/-- `s` at piece `n` of its phase. -/
def State.atSeq (s : State) (n : Nat) : State := { s with seq := n }

@[simp] theorem State.atSeq_seq (s : State) (n : Nat) : (s.atSeq n).seq = n := rfl
@[simp] theorem State.atSeq_ph (s : State) (n : Nat) : (s.atSeq n).ph = s.ph := rfl
@[simp] theorem State.atSeq_cfg (s : State) (n : Nat) : (s.atSeq n).cfg = s.cfg := rfl
@[simp] theorem State.atSeq_wd (s : State) (n : Nat) : (s.atSeq n).wd = s.wd := rfl
@[simp] theorem State.atSeq_blk (s : State) (n : Nat) : (s.atSeq n).blk = s.blk := rfl
@[simp] theorem State.atSeq_orderDefined (s : State) (n : Nat) : (s.atSeq n).orderDefined = s.orderDefined := rfl

/-- Going past a piece that is not the last one of its phase. -/
theorem advance_inside (s : State) (h1 : s.ph = .unpack → s.seq < 12) (h2 : s.ph = .interp → s.seq < 1)
    (h3 : s.ph = .compose → s.seq + 1 < 8 * s.cfg.blockW) : s.advance = s.atSeq (s.seq + 1) := by
  unfold State.advance
  split
  · rename_i h
    rw [if_neg (by have := h1 h; omega)]
    rfl
  · rename_i h
    rw [if_neg (by have := h2 h; omega)]
    rfl
  · rename_i h
    rw [if_neg (by have := h3 h; omega)]
    rfl
  · rfl

/-- Going past the last operation of UNPACK. -/
theorem advance_unpack (s : State) (h : s.ph = .unpack) (hs : 12 ≤ s.seq) : s.advance = s.enter .interp := by
  unfold State.advance
  rw [h]
  simp only
  rw [if_pos hs]

/-- Going past the last operation of INTERP. -/
theorem advance_interp (s : State) (h : s.ph = .interp) (hs : 1 ≤ s.seq) : s.advance = s.enter .compose := by
  unfold State.advance
  rw [h]
  simp only
  rw [if_pos hs]

/-- Going past the last operation of COMPOSE. -/
theorem advance_compose (s : State) (h : s.ph = .compose) (hs : 8 * s.cfg.blockW ≤ s.seq + 1) :
    s.advance = s.enter .scatter := by
  unfold State.advance
  rw [h]
  simp only
  rw [if_pos hs]

@[simp] theorem State.enter_atSeq (s : State) (n : Nat) (ph : Phase) : (s.atSeq n).enter ph = s.enter ph := rfl

@[simp] theorem State.atSeq_atSeq (s : State) (n m : Nat) : (s.atSeq n).atSeq m = s.atSeq m := rfl

/-- A piece that is an operation decodes it, executes it and goes on. -/
theorem operationStep_exec {s t : State} {sl : Slot} (h : s.nextSlot = some sl)
    (he : exec (decode (s.fetchSlot sl)) s = .next t) : operationStep s = .next t.advance := by
  unfold operationStep State.nextOp
  rw [h]
  simp only [Option.map_some]
  rw [he]
  rfl

/-- At operation granularity with no host move to come, a busy core takes an operation step. -/
theorem step_operation (s : State) (hb : s.busy = true) (hg : s.granularity = .operation) (hq : s.hostQ = []) :
    step s = operationStep s := by
  show machineStep s = _
  unfold machineStep
  rw [hq]
  simp only [hb, if_true, busyStep, hg]

/-- `n` operation steps. -/
def operationRun : Nat → State → Result
  | 0, s => .next s
  | n + 1, s => andThen (operationStep s) (operationRun n)

theorem operationRun_add (m n : Nat) (s : State) :
    operationRun (m + n) s = andThen (operationRun m s) (operationRun n) := by
  induction m generalizing s with
  | zero => simp [operationRun]
  | succ m ih =>
    rw [Nat.succ_add, operationRun, operationRun, andThen_assoc]
    congr 1
    funext t
    exact ih t

end Sys2Proof.Machine
end

