-- ==== Sys2Proof/Laws/PerInstr.lean ====
section
/-! SUPPORT. Facts of every operation as syntax, one lemma for each constructor. -/

namespace Sys2Proof.Laws.OwnRow

/-- The opcode table has a row of the operation's mnemonic, in the selection in which the operation is encoded (R101,
R102). -/
def Statement (i : Instr) : Prop :=
  ∃ r ∈ tableRows, r.mnemonic = i.mnemonic ∧ r.group = (encode i).slot.group

/-- A row found by its place in the table. -/
theorem at_place (n : Nat) (r : Row) (i : Instr) (hn : tableRows[n]? = some r) (hm : r.mnemonic = i.mnemonic)
    (hg : r.group = (encode i).slot.group) : Statement i :=
  ⟨r, List.mem_of_getElem? hn, hm, hg⟩

theorem decompI4bpp : Statement (.decompI4bpp) := at_place 0 _ _ rfl rfl rfl
theorem decompI2bpp : Statement (.decompI2bpp) := at_place 1 _ _ rfl rfl rfl
theorem decompII4bpp : Statement (.decompII4bpp) := at_place 2 _ _ rfl rfl rfl
theorem decompII2bpp : Statement (.decompII2bpp) := at_place 3 _ _ rfl rfl rfl
theorem idxMorton (k : Corner) : Statement (.idxMorton k) := at_place 4 _ _ rfl rfl rfl
theorem idxLinear (k : Corner) : Statement (.idxLinear k) := at_place 5 _ _ rfl rfl rfl
theorem interp4bpp (c : ColorSlot) : Statement (.interp4bpp c) := at_place 6 _ _ rfl rfl rfl
theorem interp2bpp (c : ColorSlot) : Statement (.interp2bpp c) := at_place 7 _ _ rfl rfl rfl
theorem colaOpq (k : Corner) (r : BitVec 5) (g : BitVec 5) (b : BitVec 4) : Statement (.colaOpq k r g b) := at_place 8 _ _ rfl rfl rfl
theorem colaTrn (k : Corner) (a : BitVec 3) (r : BitVec 4) (g : BitVec 4) (b : BitVec 3) : Statement (.colaTrn k a r g b) := at_place 9 _ _ rfl rfl rfl
theorem colbOpq (k : Corner) (r : BitVec 5) (g : BitVec 5) (b : BitVec 5) : Statement (.colbOpq k r g b) := at_place 10 _ _ rfl rfl rfl
theorem colbTrnI (k : Corner) (a : BitVec 3) (r : BitVec 4) (g : BitVec 4) (b : BitVec 4) : Statement (.colbTrnI k a r g b) := at_place 11 _ _ rfl rfl rfl
theorem colbTrnII (k : Corner) (a : BitVec 3) (r : BitVec 4) (g : BitVec 4) (b : BitVec 4) : Statement (.colbTrnII k a r g b) := at_place 12 _ _ rfl rfl rfl
theorem mod4Std (k : Corner) (m : Word32) : Statement (.mod4Std k m) := at_place 13 _ _ rfl rfl rfl
theorem mod4Pt (k : Corner) (m : Word32) : Statement (.mod4Pt k m) := at_place 14 _ _ rfl rfl rfl
theorem mod2Direct (k : Corner) (m : Word32) : Statement (.mod2Direct k m) := at_place 15 _ _ rfl rfl rfl
theorem mod2Hv (k : Corner) (m : Word32) : Statement (.mod2Hv k m) := at_place 16 _ _ rfl rfl rfl
theorem mod2H (k : Corner) (m : Word32) : Statement (.mod2H k m) := at_place 17 _ _ rfl rfl rfl
theorem mod2V (k : Corner) (m : Word32) : Statement (.mod2V k m) := at_place 18 _ _ rfl rfl rfl
theorem resolve4bpp (sx : Nat) (sy : Nat) : Statement (.resolve4bpp sx sy) := at_place 19 _ _ rfl rfl rfl
theorem resolveStored (sx : Nat) (sy : Nat) : Statement (.resolveStored sx sy) := at_place 20 _ _ rfl rfl rfl
theorem resolveHv (sx : Nat) (sy : Nat) : Statement (.resolveHv sx sy) := at_place 21 _ _ rfl rfl rfl
theorem resolveH (sx : Nat) (sy : Nat) : Statement (.resolveH sx sy) := at_place 22 _ _ rfl rfl rfl
theorem resolveV (sx : Nat) (sy : Nat) : Statement (.resolveV sx sy) := at_place 23 _ _ rfl rfl rfl
theorem compose (j : Nat) : Statement (.compose j) := at_place 24 _ _ rfl rfl rfl
theorem composePtI (j : Nat) : Statement (.composePtI j) := at_place 25 _ _ rfl rfl rfl
theorem composePtII (j : Nat) : Statement (.composePtII j) := at_place 26 _ _ rfl rfl rfl

end Sys2Proof.Laws.OwnRow
end

