-- ==== Sys2Proof/Laws/Ranges.lean ====
section
/-! SUPPORT. The ranges of the working registers (Safety.lean `State.Ranges`), piece by piece. -/

namespace Sys2Proof.Machine

/-- The ranges are kept by whatever leaves the five registers alone. -/
theorem State.Ranges.congr {s t : State} (h : s.Ranges) (h1 : t.ca = s.ca) (h2 : t.cb = s.cb) (h3 : t.mv = s.mv)
    (h4 : t.ua = s.ua) (h5 : t.ub = s.ub) : t.Ranges :=
  ⟨h1 ▸ h.ca, h2 ▸ h.cb, h3 ▸ h.mv, h4 ▸ h.ua, h5 ▸ h.ub⟩

theorem isCode_mem (c : Nat) : isCode c = true ↔ c ∈ [0, 1, 2, 3, 4, 5, 8, 14] := by simp [isCode]

theorem none_replicate {α : Type} (n : Nat) (p : α) : some p ∉ List.replicate n (none : Option α) := by
  simp [List.mem_replicate]

/-- Colours written to a block stay on the scale. -/
theorem corners_set_all {P : Pixel32 → Prop} (c : Corners Pixel32) (k : Corner) (v : Pixel32) (hc : ∀ k, P (c.get k))
    (hv : P v) (k' : Corner) : P ((c.set k v).get k') := by
  by_cases h : k' = k
  · rw [h, corners_get_set_same]
    exact hv
  · rw [corners_get_set_other _ _ _ _ h]
    exact hc k'

theorem fillBuffer_inByte (b : Bool) (k : Corners Pixel32) (u : List (Option Pixel128)) (hk : ∀ i, (k.get i).onScale)
    (hu : ∀ p, some p ∈ u → p.inByte) :
    ∀ p, some p ∈ fillBuffer (blockWidth b) (interpTexel b k) u → p.inByte := by
  intro p hp
  obtain ⟨i, hi⟩ := List.mem_iff_getElem?.mp hp
  rw [fillBuffer_getElem?] at hi
  cases he : u[i]? with
  | none =>
    rw [he] at hi
    cases hi
  | some e =>
    rw [he] at hi
    simp only [Option.map_some, Option.some.injEq] at hi
    split at hi
    · rename_i hlt
      cases hi
      obtain ⟨h1, h2⟩ := texel_lt (blockWidth b) i (by cases b <;> simp [blockWidth]) hlt
      exact interpTexel_inByte b k _ _ (by omega) (by omega) hk
    · exact hu p (hi ▸ List.mem_iff_getElem?.mpr ⟨i, he⟩)

theorem State.Ranges.fetched {s : State} (h : s.Ranges) : s.fetched.Ranges := by
  rw [State.fetched_eq]
  exact ⟨h.ca, h.cb, h.mv, fun p hp => absurd hp (none_replicate _ _), fun p hp => absurd hp (none_replicate _ _)⟩

theorem tileGrids_codes (b : Bool) (w : Corners CWord) : ∀ c, some c ∈ (tileGrids b w).mv → isCode c = true :=
  unpackOp_codes _ _ (unpackOp_codes _ _ (unpackOp_codes _ _ (unpackOp_codes _ _ fun _ hc => absurd hc (none_replicate _ _))))

theorem State.Ranges.unpackPhase {s : State} (h : s.Ranges) : (unpackPhase s).Ranges := by
  rw [unpackPhase_eq]
  refine ⟨fun k => ?_, fun k => ?_, fun c hc => (isCode_mem c).mp (tileGrids_codes _ _ c hc), h.ua, h.ub⟩
  · rw [corners_get_map]
    exact extractA_onScale _
  · rw [corners_get_map]
    exact extractB_onScale _ _

theorem State.Ranges.interpPhase {s : State} (h : s.Ranges) : (interpPhase s).Ranges := by
  rw [interpPhase_eq]
  exact ⟨h.ca, h.cb, h.mv, fillBuffer_inByte _ _ _ h.ca h.ua, fillBuffer_inByte _ _ _ h.cb h.ub⟩

theorem State.Ranges.composePhase {s : State} (h : s.Ranges) : (composePhase s).Ranges := by
  obtain ⟨e, -, -⟩ := composePhase_spec s
  rw [e]
  exact ⟨h.ca, h.cb, h.mv, h.ua, h.ub⟩

theorem State.StoreOnly.ranges {s t : State} (h : s.StoreOnly t) (hr : s.Ranges) : t.Ranges := by
  rw [h]
  exact ⟨hr.ca, hr.cb, hr.mv, hr.ua, hr.ub⟩

theorem doTile_ranges {s t : State} {bx bY : Int} (h : doTile bx bY s = .next t) (hr : s.Ranges) : t.Ranges := by
  unfold doTile at h
  obtain ⟨u, hu, ht⟩ := (andThen_eq_next _ _ _).mp h
  rw [fetchPhase_eq] at hu
  repeat' split at hu
  · cases hu
    have hr1 : (s.enterTile bx bY).Ranges := hr.congr rfl rfl rfl rfl rfl
    exact (scatterTile_store ht).ranges hr1.fetched.unpackPhase.interpPhase.composePhase
  · cases hu
  · cases hu

/-- The operations inside a tile keep the ranges (R126, R152, R196). -/
theorem exec_ranges (i : Instr) (s : State) (hr : s.Ranges) (hi : i.inTile = true) :
    ∃ t, exec i s = .next t ∧ t.Ranges := by
  have hint : ∀ b c, (s.interpolate b c).Ranges := by
    intro b c
    cases c
    · exact ⟨hr.ca, hr.cb, hr.mv, fillBuffer_inByte _ _ _ hr.ca hr.ua, hr.ub⟩
    · exact ⟨hr.ca, hr.cb, hr.mv, hr.ua, fillBuffer_inByte _ _ _ hr.cb hr.ub⟩
  have hmod : ∀ i, (s.unpackInto i).Ranges := fun i =>
    ⟨hr.ca, hr.cb, fun c hc => (isCode_mem c).mp (unpackOp_codes i s.grids (fun c hc => (isCode_mem c).mpr (hr.mv c hc)) c hc),
      hr.ua, hr.ub⟩
  have hca : ∀ k v, v.onScale → (s.setCa k v).Ranges := fun k v hv =>
    ⟨corners_set_all _ _ _ hr.ca hv, hr.cb, hr.mv, hr.ua, hr.ub⟩
  have hcb : ∀ k v, v.onScale → (s.setCb k v).Ranges := fun k v hv =>
    ⟨hr.ca, corners_set_all _ _ _ hr.cb hv, hr.mv, hr.ua, hr.ub⟩
  cases i <;> try cases hi
  case interp4bpp c => exact ⟨_, rfl, hint false c⟩
  case interp2bpp c => exact ⟨_, rfl, hint true c⟩
  case colaOpq k r g b => exact ⟨_, rfl, hca k _ (colaOpq_onScale _ _ _)⟩
  case colaTrn k a r g b => exact ⟨_, rfl, hca k _ (colaTrn_onScale _ _ _ _)⟩
  case colbOpq k r g b => exact ⟨_, rfl, hcb k _ (colbOpq_onScale _ _ _)⟩
  case colbTrnI k a r g b => exact ⟨_, rfl, hcb k _ (colbTrnI_onScale _ _ _ _)⟩
  case colbTrnII k a r g b => exact ⟨_, rfl, hcb k _ (colbTrnII_onScale _ _ _ _)⟩
  case mod4Std k m => exact ⟨_, rfl, hmod _⟩
  case mod4Pt k m => exact ⟨_, rfl, hmod _⟩
  case mod2Direct k m => exact ⟨_, rfl, hmod _⟩
  case mod2Hv k m => exact ⟨_, rfl, hmod _⟩
  case mod2H k m => exact ⟨_, rfl, hmod _⟩
  case mod2V k m => exact ⟨_, rfl, hmod _⟩
  all_goals exact ⟨_, rfl, hr.congr rfl rfl rfl rfl rfl⟩

end Sys2Proof.Machine
end

