-- ==== Sys2Proof/Laws/Record.lean ====
section
/-! SUPPORT. The command record's vocabulary of Safety.lean beside the machine's own: the derived values, the conditions
of R290, admission, and the draw. -/

namespace Sys2Proof.Machine

/-- The values CHECK derives are those of the record (R251 to R253). -/
theorem configure_start (s : State) (v : Variant) (b : Bool) :
    let c := configure (s.start v b).cfg
    c.wt = recWt b s.cmd.width ∧ c.ht = recHt s.cmd.height ∧ c.blockW = (if b then 8 else 4) ∧ c.variant = v ∧
      c.is2bpp = b ∧ c.width = s.cmd.width ∧ c.height = s.cmd.height ∧ c.inSp = s.cmd.inSp ∧ c.outSp = s.cmd.outSp ∧
      (withGrid c).gw = recGw b s.cmd.width ∧ (withGrid c).gh = recGh s.cmd.height := by
  cases b <;> exact ⟨rfl, rfl, rfl, rfl, rfl, rfl, rfl, rfl, rfl, rfl, rfl⟩

theorem pad_start (s : State) (v : Variant) (b : Bool) :
    (checkedCfg (s.start v b).cfg).pad = true ↔ recPad b s.cmd := by
  have h : (checkedCfg (s.start v b).cfg).pad = (configure (s.start v b).cfg).pad := by
    unfold checkedCfg
    split <;> rfl
  rw [h]
  cases b <;> exact decide_eq_true_iff

/-- Each condition of R290 over the record is the test CHECK makes. -/
theorem faultCondition_dimMult (s : State) (v : Variant) (b : Bool) :
    faultCondition v b s.cmd .dimMult ↔ dimMult (configure (s.start v b).cfg) = true := by
  unfold dimMult
  rw [decide_eq_true_iff]
  cases b <;> exact Iff.rfl

theorem faultCondition_npot (s : State) (v : Variant) (b : Bool) :
    faultCondition v b s.cmd .npot ↔ notPow2 (withGrid (configure (s.start v b).cfg)) = true := by
  obtain ⟨-, -, -, h1, -, -, -, -, -, h2, h3⟩ := configure_start s v b
  have hv : (withGrid (configure (s.start v b).cfg)).variant = v := h1
  unfold notPow2 faultCondition
  rw [h2, h3, hv, ← pow2_iff, ← pow2_iff]
  simp only [Bool.and_eq_true, beq_iff_eq, Bool.or_eq_true, Bool.not_eq_true']
  cases pow2 (recGw b s.cmd.width) <;> cases pow2 (recGh s.cmd.height) <;> simp

theorem faultCondition_size (s : State) (v : Variant) (b : Bool) :
    faultCondition v b s.cmd .size ↔ tooLarge (withGrid (configure (s.start v b).cfg)) = true := by
  unfold tooLarge
  rw [decide_eq_true_iff]
  cases b <;> exact Iff.rfl

theorem faultCondition_inShort (s : State) (v : Variant) (b : Bool) :
    faultCondition v b s.cmd .inShort ↔ inShort (withGrid (configure (s.start v b).cfg)) = true := by
  unfold inShort
  rw [decide_eq_true_iff]
  cases b <;> exact Iff.rfl

theorem faultCondition_outShort (s : State) (v : Variant) (b : Bool) :
    faultCondition v b s.cmd .outShort ↔ outShort (withGrid (configure (s.start v b).cfg)) = true := by
  unfold outShort
  rw [decide_eq_true_iff]
  cases b <;> exact Iff.rfl

/-- Two ranges meet exactly when they share a location (R291). -/
theorem rangesMeet_iff (a n b m : Nat) :
    rangesMeet a n b m = true ↔ ∃ x, a ≤ x ∧ x < a + n ∧ b ≤ x ∧ x < b + m := by
  rw [rangesMeet, decide_eq_true_iff]
  constructor
  · intro h
    exact ⟨max a b, by omega⟩
  · rintro ⟨x, h⟩
    omega

theorem faultCondition_overlap (s : State) (v : Variant) (b : Bool) :
    faultCondition v b s.cmd .overlap ↔ overlaps (withGrid (configure (s.start v b).cfg)) = true := by
  unfold overlaps
  rw [rangesMeet_iff]
  cases b <;> exact Iff.rfl

/-- CHECK raises the code of lowest value whose condition holds (R291). -/
theorem checkCommand_start (s : State) (v : Variant) (b : Bool) (code : FaultCode)
    (h : faultCondition v b s.cmd code) (hl : ∀ c, c.value < code.value → ¬faultCondition v b s.cmd c) :
    checkCommand (configure (s.start v b).cfg) = code := by
  have d := hl .dimMult
  have n := hl .npot
  have z := hl .size
  have i := hl .inShort
  have o := hl .outShort
  rw [faultCondition_dimMult, Bool.not_eq_true] at d
  rw [faultCondition_npot, Bool.not_eq_true] at n
  rw [faultCondition_size, Bool.not_eq_true] at z
  rw [faultCondition_inShort, Bool.not_eq_true] at i
  rw [faultCondition_outShort, Bool.not_eq_true] at o
  unfold checkCommand gridFault
  cases code with
  | none => exact absurd h id
  | alloc => exact absurd h id
  | dimMult => rw [(faultCondition_dimMult s v b).mp h]; rfl
  | npot => rw [d (by decide), (faultCondition_npot s v b).mp h]; rfl
  | size => rw [d (by decide), n (by decide), (faultCondition_size s v b).mp h]; rfl
  | inShort => rw [d (by decide), n (by decide), z (by decide), (faultCondition_inShort s v b).mp h]; rfl
  | outShort =>
    rw [d (by decide), n (by decide), z (by decide), i (by decide), (faultCondition_outShort s v b).mp h]
    rfl
  | overlap =>
    rw [d (by decide), n (by decide), z (by decide), i (by decide), o (by decide), (faultCondition_overlap s v b).mp h]
    rfl

/-- CHECK admits a command exactly when no condition of R290 holds. -/
theorem checkCommand_none_iff (s : State) (v : Variant) (b : Bool) :
    checkCommand (configure (s.start v b).cfg) = .none ↔ admitted v b s.cmd := by
  constructor
  · intro h code hc
    obtain ⟨d, n, z, i, o, p⟩ := checkCommand_none _ h
    cases code with
    | none => exact hc
    | alloc => exact hc
    | dimMult => exact absurd ((faultCondition_dimMult s v b).mp hc) (by rw [d]; decide)
    | npot => exact absurd ((faultCondition_npot s v b).mp hc) (by rw [n]; decide)
    | size => exact absurd ((faultCondition_size s v b).mp hc) (by rw [z]; decide)
    | inShort => exact absurd ((faultCondition_inShort s v b).mp hc) (by rw [i]; decide)
    | outShort => exact absurd ((faultCondition_outShort s v b).mp hc) (by rw [o]; decide)
    | overlap => exact absurd ((faultCondition_overlap s v b).mp hc) (by rw [p]; decide)
  · intro h
    have d := h .dimMult
    have n := h .npot
    have z := h .size
    have i := h .inShort
    have o := h .outShort
    have p := h .overlap
    rw [faultCondition_dimMult, Bool.not_eq_true] at d
    rw [faultCondition_npot, Bool.not_eq_true] at n
    rw [faultCondition_size, Bool.not_eq_true] at z
    rw [faultCondition_inShort, Bool.not_eq_true] at i
    rw [faultCondition_outShort, Bool.not_eq_true] at o
    rw [faultCondition_overlap, Bool.not_eq_true] at p
    unfold checkCommand gridFault
    rw [d, n, z, i, o, p]
    rfl

/-- The draw a padded command takes is that of the state it is started in (R294). -/
theorem drawAlloc_start (s : State) (v : Variant) (b : Bool) (c : Latched) :
    ((s.start v b).setCfg c).drawAlloc.1 = s.drawOf := by
  unfold State.drawAlloc State.drawOf
  simp only [State.setCfg, State.start]
  cases s.allocGiven <;> rfl

/-- A command of the opcode table on a core that is not busy is the procedure of R250 from START. -/
theorem exec_command (s : State) (v : Variant) (b : Bool) (hb : s.busy = false) :
    exec (commandOf v b) s = decomp (s.start v b) := by
  cases v <;> cases b <;>
    simp only [commandOf, exec, execDecompI4bpp, execDecompI2bpp, execDecompII4bpp, execDecompII2bpp, runCommand, hb] <;>
    rfl

end Sys2Proof.Machine
end

