-- ==== Sys2Proof/Tests/Slice0.lean ====
section
/-! SUPPORT. The model's own tests. Expected values are the spec's (95_test_vectors.md, by the vector's name), or words
written out from 30_encoding.md; the last part shows, for every statement with hypotheses, a state and operands that meet
them. -/

namespace Sys2Proof.Tests

open Sys2Proof.Machine

/-! ## Well-formedness: each check refuses a term -/

theorem test_wf_hv_needs_flag_clear : (Instr.mod2Hv .p 0x00000001).wellFormed = false := by decide
theorem test_wf_h_needs_flag_set : (Instr.mod2H .p 0x00000000).wellFormed = false := by decide
theorem test_wf_h_needs_bit20_clear : (Instr.mod2H .p 0x00100001).wellFormed = false := by decide
theorem test_wf_v_needs_flag_set : (Instr.mod2V .p 0x00100000).wellFormed = false := by decide
theorem test_wf_v_needs_bit20_set : (Instr.mod2V .p 0x00000001).wellFormed = false := by decide
theorem test_wf_position_4bpp : (Instr.resolve4bpp 6 2).wellFormed = false := by decide
theorem test_wf_position_stored : (Instr.resolveStored 12 2).wellFormed = false := by decide
theorem test_wf_position_averaged : (Instr.resolveHv 3 2).wellFormed = false := by decide
theorem test_wf_parity_averaged : (Instr.resolveV 4 2).wellFormed = false := by decide
theorem test_wf_tile_entry : (Instr.compose 32).wellFormed = false := by decide

/-! ## Decoding: words written out from R90 to R97 -/

/-- A word decoded in a slot under a command selector. -/
def read (slot : Slot) (sel : BitVec 2) (w : BitVec 64) : Instr := decode ⟨slot, sel, w, .direct, 0⟩

theorem test_decode_commands :
    [0b00#2, 0b01#2, 0b10#2, 0b11#2].map (fun sel => read .command sel 0) =
      [.decompI4bpp, .decompI2bpp, .decompII4bpp, .decompII2bpp] := by decide

theorem test_decode_index :
    [0b00#2, 0b01#2, 0b10#2, 0b11#2].map (fun sel => read (.index .r) sel 0) =
      [.idxMorton .r, .idxMorton .r, .idxLinear .r, .idxLinear .r] := by decide

theorem test_decode_interp :
    [0b00#2, 0b01#2, 0b10#2, 0b11#2].map (fun sel => read (.interp .b) sel 0) =
      [.interp4bpp .b, .interp2bpp .b, .interp4bpp .b, .interp2bpp .b] := by decide

/-- R93: flag 1, R 10011, G 01100, B 1001, mode bit 0. -/
theorem test_decode_colaOpq :
    read (.colA .p) 0b00#2 (0b00000000000000001100110110010010#32 ++ 0#32) = .colaOpq .p 0b10011 0b01100 0b1001 := by decide

/-- R93: flag 0, A 101, R 1010, G 0101, B 101, mode bit 0. -/
theorem test_decode_colaTrn :
    read (.colA .q) 0b11#2 (0b00000000000000000101101001011010#32 ++ 0#32) = .colaTrn .q 0b101 0b1010 0b0101 0b101 := by
  decide

/-- R94: flag 1, R 00000, G 11111, B 00000. -/
theorem test_decode_colbOpq :
    read (.colB .r) 0b00#2 (0b10000011111000001000000000000000#32 ++ 0#32) = .colbOpq .r 0b00000 0b11111 0b00000 := by
  decide

/-- R94: flag 0, A 101, R 1010, G 0101, B 1010; `VARIANT` 0. -/
theorem test_decode_colbTrnI :
    read (.colB .s) 0b00#2 (0b01011010010110100000000000000000#32 ++ 0#32) = .colbTrnI .s 0b101 0b1010 0b0101 0b1010 := by
  decide

/-- The same word with `VARIANT` 1. -/
theorem test_decode_colbTrnII :
    read (.colB .s) 0b10#2 (0b01011010010110100000000000000000#32 ++ 0#32) = .colbTrnII .s 0b101 0b1010 0b0101 0b1010 := by
  decide

theorem test_decode_mod4 :
    read (.mod .p) 0b00#2 (0x80008000#32 ++ 0xE4E4E4E4#32) = .mod4Std .p 0xE4E4E4E4 ∧
      read (.mod .p) 0b10#2 (0x80008001#32 ++ 0xE4E4E4E4#32) = .mod4Pt .p 0xE4E4E4E4 := by decide

/-- The four 2 bpp words of program P3. -/
theorem test_decode_mod2 :
    read (.mod .p) 0b01#2 (0xFFFF8001#32 ++ 0x2D931B93#32) = .mod2V .p 0x2D931B93 ∧
      read (.mod .q) 0b01#2 (0xFFFF8001#32 ++ 0x12345678#32) = .mod2Hv .q 0x12345678 ∧
      read (.mod .r) 0b01#2 (0xFFFF8000#32 ++ 0xF0F0F0F0#32) = .mod2Direct .r 0xF0F0F0F0 ∧
      read (.mod .s) 0b01#2 (0xFFFF8001#32 ++ 0x9C2A5B01#32) = .mod2H .s 0x9C2A5B01 := by decide

/-- R101 item 5: an even parity or a direct tag reads the stored code; an odd parity averages as the tag says. -/
theorem test_decode_resolve :
    decode ⟨.resolve 2 3, 0b00#2, 0, .hv, 0⟩ = .resolve4bpp 2 3 ∧
      decode ⟨.resolve 4 2, 0b01#2, 0, .vOnly, 0⟩ = .resolveStored 4 2 ∧
      decode ⟨.resolve 5 2, 0b01#2, 0, .direct, 0⟩ = .resolveStored 5 2 ∧
      decode ⟨.resolve 5 2, 0b01#2, 0, .hv, 0⟩ = .resolveHv 5 2 ∧
      decode ⟨.resolve 5 2, 0b01#2, 0, .hOnly, 0⟩ = .resolveH 5 2 ∧
      decode ⟨.resolve 5 2, 0b01#2, 0, .vOnly, 0⟩ = .resolveV 5 2 := by decide

/-- R211: 10 is not punch-through, 11 is. -/
theorem test_decode_compose :
    decode ⟨.compose 7, 0b00#2, 0, .direct, 10⟩ = .compose 7 ∧
      decode ⟨.compose 7, 0b00#2, 0, .direct, 11⟩ = .composePtI 7 ∧
      decode ⟨.compose 7, 0b10#2, 0, .direct, 14⟩ = .composePtII 7 := by decide

/-- Bytes that are no selector and no word are rejected by name. -/
theorem test_decode_rejects :
    decodeBytes [0x04] = .error (.badSelector 0x04) ∧ decodeBytes [] = .error (.badLength 0) ∧
      decodeBytes [1, 2, 3] = .error (.badLength 3) := by
  refine ⟨by decide, by decide, by decide⟩

theorem test_tableWord_command :
    [0, 1, 2, 3].map (decodeTableWord 8) =
      [some .decompI4bpp, some .decompI2bpp, some .decompII4bpp, some .decompII2bpp] := by decide

theorem test_tableWord_word :
    decodeTableWord 64 0x0000800000000000 = some (.colaOpq .p 0 0 0) ∧
      decodeTableWord 64 0x8000000000000000 = some (.colbOpq .p 0 0 0) ∧
      decodeTableWord 64 0x0000000100100001 = some (.mod2V .p 0x00100001) := by decide

/-! ## One operation at a time -/

/-- What an operation leaves, seen through `f`. -/
def after {α : Type} (i : Instr) (s : State) (f : State → α) : Option α := (Result.state? (exec i s)).map f

/-- VC5. -/
theorem test_colaOpq : after (.colaOpq .q 19 12 9) State.reset (·.ca.q) = some ⟨19, 12, 19, 15⟩ := by decide
/-- VC10: blue 15 of colour A replicates to 31. -/
theorem test_colaOpq_blue : after (.colaOpq .p 0 1 15) State.reset (·.ca.p) = some ⟨0, 1, 31, 15⟩ := by decide
/-- VC6. -/
theorem test_colaTrn : after (.colaTrn .p 5 10 5 5) State.reset (·.ca.p) = some ⟨21, 10, 22, 10⟩ := by decide
/-- VC3: the low alpha bit is 0. -/
theorem test_colaTrn_top : after (.colaTrn .s 7 15 15 7) State.reset (·.ca.s) = some ⟨31, 31, 31, 14⟩ := by decide
/-- VC9. -/
theorem test_colbOpq : after (.colbOpq .r 0 31 0) State.reset (·.cb.r) = some ⟨0, 31, 0, 15⟩ := by decide
/-- VC8. -/
theorem test_colbTrnI : after (.colbTrnI .p 5 10 5 10) State.reset (·.cb.p) = some ⟨21, 10, 21, 10⟩ := by decide
/-- VC8. -/
theorem test_colbTrnII : after (.colbTrnII .p 5 10 5 10) State.reset (·.cb.p) = some ⟨21, 10, 21, 11⟩ := by decide

/-- The codes of a row of `w` supergrid entries from `(ox, sy)`. -/
def gridRow (w ox sy : Nat) (s : State) : List (Option Nat) :=
  (List.range w).map fun tx => (s.mv[8 * (ox + tx) + sy]?).getD none

/-- VM1, in the quadrant of block R. -/
theorem test_mod4Std :
    after (.mod4Std .r 0xE4E4E4E4) State.reset (gridRow 4 0 7) = some [some 0, some 3, some 5, some 8] := by decide
/-- VM2, in the quadrant of block Q. -/
theorem test_mod4Pt :
    after (.mod4Pt .q 0xE4E4E4E4) State.reset (gridRow 4 4 0) = some [some 0, some 4, some 14, some 8] := by decide
/-- VM5. -/
theorem test_mod2Direct :
    after (.mod2Direct .p 0x0000000F) State.reset (fun t => gridRow 8 0 0 t ++ gridRow 8 0 1 t) =
      some [some 3, some 3, some 3, some 3, some 0, some 0, some 0, some 0,
        some 0, some 0, some 0, some 0, some 0, some 0, some 0, some 0] := by decide
/-- VM11: row 1, whose stored texels are the odd ones. -/
theorem test_mod2Hv :
    after (.mod2Hv .p 0x12345678) State.reset (gridRow 8 0 1) =
      some [none, some 2, none, some 1, none, some 1, none, some 1] := by decide
/-- VM12: row 2, with the centre texel. -/
theorem test_mod2H :
    after (.mod2H .s 0x9C2A5B01) State.reset (gridRow 8 8 6) =
      some [some 2, none, some 2, none, some 3, none, some 0, none] := by decide
/-- VM8: `mod[21]` gives the centre code 3, `mod[1]` the first code 0. -/
theorem test_mod2H_ends :
    after (.mod2H .p 0x00200001) State.reset (fun t => (t.mv[0]?, t.mv[8 * 4 + 2]?, t.mm[8 * 4 + 2]?)) =
      some (some (some 0), some (some 3), some (some .hOnly)) := by decide
/-- VM10: row 0. -/
theorem test_mod2V :
    after (.mod2V .p 0x2D931B93) State.reset (gridRow 8 0 0) =
      some [some 3, none, some 0, none, some 1, none, some 2, none] := by decide

/-- A state whose grid holds these codes above, below, left and right of (5, 2), and this one at it. -/
def around (u d l r c : Nat) : State :=
  { State.reset with
    mv := ((((State.reset.mv.set (8 * 5 + 1) (some u)).set (8 * 5 + 3) (some d)).set (8 * 4 + 2) (some l)).set
      (8 * 6 + 2) (some r)).set (8 * 5 + 2) (some c) }

/-- VW1. -/
theorem test_resolve4bpp : after (.resolve4bpp 5 2) (around 0 0 0 0 14) (·.weight) = some 14 := by decide
/-- VW2. -/
theorem test_resolveStored : after (.resolveStored 5 2) (around 0 0 0 0 2) (·.weight) = some 5 := by decide
/-- VW5. -/
theorem test_resolveHv : after (.resolveHv 5 2) (around 3 3 3 2 0) (·.weight) = some 7 := by decide
/-- VW8: rounding. -/
theorem test_resolveHv_rounds : after (.resolveHv 5 2) (around 0 0 0 1 0) (·.weight) = some 1 := by decide
/-- VW11, with other codes above and below. -/
theorem test_resolveH : after (.resolveH 5 2) (around 1 1 0 3 0) (·.weight) = some 4 := by decide
/-- VW13, with other codes left and right. -/
theorem test_resolveV : after (.resolveV 5 2) (around 1 2 3 3 0) (·.weight) = some 4 := by decide

/-- The corners of VI4. -/
def cornersVI4 : Corners Pixel32 := ⟨⟨10, 20, 30, 7⟩, ⟨20, 10, 0, 14⟩, ⟨5, 31, 17, 0⟩, ⟨31, 0, 9, 15⟩⟩

/-- VI4, texel (3, 1). -/
theorem test_interp4bpp :
    after (.interp4bpp .a) { State.reset with ca := cornersVI4 } (·.ua[1 * 4 + 3]?) = some (some (some ⟨158, 92, 69, 204⟩)) := by
  decide
/-- VI5, texel (5, 3). -/
theorem test_interp2bpp :
    after (.interp2bpp .b) { State.reset with cb := cornersVI4 } (·.ub[3 * 8 + 5]?) =
      some (some (some ⟨165, 100, 96, 167⟩)) := by decide
/-- VI2, texel (1, 1): the one place where the alpha chain and the colour chain differ. -/
theorem test_interp2bpp_alpha :
    after (.interp2bpp .a) { State.reset with ca := ⟨⟨31, 0, 0, 15⟩, ⟨0, 0, 0, 0⟩, ⟨0, 0, 0, 0⟩, ⟨0, 0, 0, 0⟩⟩ }
      (·.ua[1 * 8 + 1]?) = some (some (some ⟨167, 0, 0, 166⟩)) := by decide

/-- The colours of the VB vectors at every entry, and a weight. -/
def blending (w : Nat) : State :=
  { State.reset with
    ua := List.replicate 32 (some ⟨255, 0, 0, 255⟩), ub := List.replicate 32 (some ⟨0, 0, 255, 255⟩), weight := w }

/-- VB1. -/
theorem test_compose : after (.compose 9) (blending 1) (·.tile[9]?) = some (some (some ⟨223, 0, 31, 255⟩)) := by decide
/-- VB8. -/
theorem test_compose_full : after (.compose 0) (blending 8) (·.tile[0]?) = some (some (some ⟨0, 0, 255, 255⟩)) := by decide
/-- VB9. -/
theorem test_composePtI : after (.composePtI 31) (blending 14) (·.tile[31]?) = some (some (some ⟨127, 0, 127, 0⟩)) := by
  decide
/-- VB10. -/
theorem test_composePtII : after (.composePtII 3) (blending 14) (·.tile[3]?) = some (some (some ⟨0, 0, 0, 0⟩)) := by decide

/-- A grid, with a block index for every block. -/
def onGrid (gw gh : Nat) (b : Nat × Nat) : State :=
  { State.reset with cfg := { Latched.reset with gw := gw, gh := gh }, blk := corners b }

/-- VT13. -/
theorem test_idxMorton : after (.idxMorton .p) (onGrid 8 8 (5, 3)) (·.ix.p) = some 39 := by decide
/-- VT14. -/
theorem test_idxMorton_wide : after (.idxMorton .s) (onGrid 8 2 (5, 1)) (·.ix.s) = some 11 := by decide
/-- VT16. -/
theorem test_idxLinear : after (.idxLinear .q) (onGrid 4 3 (1, 2)) (·.ix.q) = some 9 := by decide

/-! ## Commands -/

/-- The record of a PVRTC-I 4 bpp command of a size, with `IN` at 0 and `OUT` right behind it. -/
def record (w h : Word32) (lin lout : Nat) : CmdRecord := ⟨.pvrtcI, false, w, h, ⟨0, lin⟩, ⟨lin, lout⟩⟩

/-- A core after reset whose host has written this record. -/
def ready (r : CmdRecord) : State := { State.reset with cmd := r }

/-- How a command ends. -/
def ending (t : State) : Status × Nat × Nat := (t.status, t.fault.value, t.result.toNat)

/-- VE1, VE12. -/
theorem test_decompI4bpp_npot :
    after .decompI4bpp (ready (record 24 8 96 768)) ending = some (.failed, 2, 0) ∧
      after .decompI4bpp (ready (record 12 8 0 0)) ending = some (.failed, 2, 0) := by decide
/-- VE2. -/
theorem test_decompI2bpp : after .decompI2bpp (ready (record 20 8 64 640)) ending = some (.failed, 1, 0) := by decide
/-- VE7: a grid three blocks wide is admitted to PVRTC-II, and 40 bytes are too few. -/
theorem test_decompII4bpp : after .decompII4bpp (ready (record 12 8 40 384)) ending = some (.failed, 4, 0) := by decide
/-- VE6. -/
theorem test_decompII2bpp :
    after .decompII2bpp (ready (record 65536 16384 (2 ^ 28) (2 ^ 32 - 1))) ending = some (.failed, 3, 0) := by decide

/-- VE11: the draw is the environment's. -/
theorem test_alloc_fails :
    after .decompI4bpp { ready (record 4 4 32 64) with allocGiven := [false] } ending = some (.failed, 7, 0) := by decide

/-- Program P1 in host memory: four words `{0, 0x801FFC00}` from byte 0 on. -/
def p1 : State :=
  { ready (record 8 8 32 256) with
    mem := [(5, 0xFC), (6, 0x1F), (7, 0x80), (13, 0xFC), (14, 0x1F), (15, 0x80),
      (21, 0xFC), (22, 0x1F), (23, 0x80), (29, 0xFC), (30, 0x1F), (31, 0x80)] }

set_option maxRecDepth 100000 in
/-- VD1: every pixel is (255, 0, 0, 255), and `RESULT` is 32. -/
theorem test_decompI4bpp :
    after .decompI4bpp p1 (fun t =>
      (ending t, (List.range 64).all fun n => (List.range 4).map (fun i => Memory.read t.mem (32 + 4 * n + i)) == [255, 0, 0, 255])) =
      some ((.done, 0, 32), true) := by decide

/-! ## Steps -/

/-- R330: a command that allocates in vain takes two steps, CHECK and ALLOC, at phase granularity. -/
theorem test_steps_of_alloc :
    (Result.state? (runSteps 3 { ready (record 4 4 32 64) with
      allocGiven := [false], granularity := .phase, hostQ := [.start] })).map ending = some (.failed, 7, 0) := by decide

/-- A selector placed after reset starts its command; with the record of reset there is too little of `IN`. -/
theorem test_placed_command :
    (Result.state? (step (State.reset.withFetchWord 8 2))).map (fun t => (ending t, t.cfg.variant, t.cfg.is2bpp)) =
      some ((.failed, 4, 0), .pvrtcII, false) := by decide

/-- A word placed after reset runs in the slot of block P. -/
theorem test_placed_word :
    (Result.state? (step (State.reset.withFetchWord 64 0x0000CD9200000000))).map (·.ca.p) = some ⟨19, 12, 19, 15⟩ ∧
      (Result.state? (step (State.reset.withFetchWord 64 0x0000000100200001))).map (·.mm[8 * 7 + 3]?) =
        some (some (some .hOnly)) := by decide

/-! ## Witnesses: for every statement with hypotheses, a state and operands that meet all of them -/

/-- An operation that was seen to go on does go on. -/
theorem next_of_after {α : Type} {i : Instr} {s : State} {f : State → α} {v : α} (h : after i s f = some v) :
    ∃ t, exec i s = .next t ∧ f t = v := by
  unfold after at h
  cases he : exec i s with
  | next t =>
    rw [he] at h
    exact ⟨t, rfl, by simpa [Result.state?] using h⟩
  | fault e => rw [he] at h; cases h
  | refused e => rw [he] at h; cases h

/-- The configuration of a record, as CHECK leaves it. -/
def latched (r : CmdRecord) : Latched :=
  checkedCfg { Latched.reset with width := r.width, height := r.height, inSp := r.inSp, outSp := r.outSp }

/-- A core in a phase of the padded command of program P4, at its first tile, with a full tile. -/
def inPhase (ph : Phase) : State :=
  { State.reset with
    cmd := record 4 4 32 64, cfg := latched (record 4 4 32 64), ph := ph, bX := -1, bY := -1
    tmp := if ph.afterAlloc then some ⟨256, []⟩ else none
    tile := List.replicate 32 (some ⟨1, 2, 3, 4⟩) }

theorem inPhase_inv (ph : Phase) : (inPhase ph).Inv where
  mem := rfl
  tmpWf r h := by
    have : r = ⟨256, []⟩ := by cases ph <;> simpa [inPhase, Phase.afterAlloc] using h.symm
    subst this
    rfl
  sized := ⟨rfl, rfl, rfl, rfl, rfl⟩
  config _ := by
    show checkCommand (configure (latched (record 4 4 32 64))) = .none ∧
      latched (record 4 4 32 64) = checkedCfg (latched (record 4 4 32 64))
    decide
  padded _ := by
    show (latched (record 4 4 32 64)).pad = true
    decide
  tmpSize h _ := by
    refine ⟨⟨256, []⟩, ?_, ?_⟩
    · cases ph <;> first | rfl | exact absurd h (by decide)
    · show 256 = (latched (record 4 4 32 64)).wt * (latched (record 4 4 32 64)).ht * 4
      decide
  tmpGone h := by
    cases ph <;> first
      | rfl
      | exact absurd ⟨rfl, by
          show (latched (record 4 4 32 64)).pad = true
          decide⟩ h
  walker _ := by
    show (-1 : Int) ≤ -1 ∧ (-1 : Int) ≤ ((latched (record 4 4 32 64)).gw : Int) - 2 ∧ (-1 : Int) ≤ -1 ∧
      (-1 : Int) ≤ ((latched (record 4 4 32 64)).gh : Int) - 2
    decide
  blocks _ _ k := by
    cases k <;>
    · show (0 : Nat) < (latched (record 4 4 32 64)).gw ∧ (0 : Nat) < (latched (record 4 4 32 64)).gh
      decide
  indices _ n _ h := by
    have : n + 2 ≤ 0 := h
    omega

/-- A core in a phase of the unpadded command of program P1, at its first tile, with a full tile. -/
def unpadded (ph : Phase) : State :=
  { State.reset with
    cmd := record 8 8 32 256, cfg := latched (record 8 8 32 256), ph := ph, bX := -1, bY := -1
    tile := List.replicate 32 (some ⟨1, 2, 3, 4⟩) }

theorem unpadded_inv (ph : Phase) (h1 : ph ≠ .alloc) (h2 : ph ≠ .copyback) : (unpadded ph).Inv where
  mem := rfl
  tmpWf r h := by cases h
  sized := ⟨rfl, rfl, rfl, rfl, rfl⟩
  config _ := by
    show checkCommand (configure (latched (record 8 8 32 256))) = .none ∧
      latched (record 8 8 32 256) = checkedCfg (latched (record 8 8 32 256))
    decide
  padded h := by
    rcases h with h | h
    · exact absurd h h1
    · exact absurd h h2
  tmpSize _ h := by
    have : (latched (record 8 8 32 256)).pad = false := by decide
    exact absurd (this.symm.trans h) (by decide)
  tmpGone _ := rfl
  walker _ := by
    show (-1 : Int) ≤ -1 ∧ (-1 : Int) ≤ ((latched (record 8 8 32 256)).gw : Int) - 2 ∧ (-1 : Int) ≤ -1 ∧
      (-1 : Int) ≤ ((latched (record 8 8 32 256)).gh : Int) - 2
    decide
  blocks _ _ k := by
    cases k <;>
    · show (0 : Nat) < (latched (record 8 8 32 256)).gw ∧ (0 : Nat) < (latched (record 8 8 32 256)).gh
      decide
  indices _ n _ h := by
    have : n + 2 ≤ 0 := h
    omega

/-- A core in CHECK of a command of size 0 with an empty `IN`. -/
theorem refusing_inv : ({ State.reset with ph := .check } : State).Inv where
  mem := rfl
  tmpWf r h := by cases h
  sized := ⟨rfl, rfl, rfl, rfl, rfl⟩
  config h := by cases h
  padded h := by rcases h with h | h <;> cases h
  tmpSize h := by cases h
  tmpGone _ := rfl
  walker h := by cases h
  blocks h := by cases h
  indices h := by cases h

theorem inPhase_ranges (ph : Phase) : (inPhase ph).Ranges where
  ca k := by
    have : Pixel32.onScale ⟨0, 0, 0, 0⟩ := by
      unfold Pixel32.onScale
      decide
    cases k <;> exact this
  cb k := by
    have : Pixel32.onScale ⟨0, 0, 0, 0⟩ := by
      unfold Pixel32.onScale
      decide
    cases k <;> exact this
  mv c h := by simp [inPhase, State.reset] at h
  ua p h := by simp [inPhase, State.reset] at h
  ub p h := by simp [inPhase, State.reset] at h

/-! ### Encoding -/

theorem witness_DecodeOfEncodeIsSame :
    [Instr.decompII2bpp, .idxMorton .s, .idxLinear .p, .interp4bpp .a, .interp2bpp .b, .colaOpq .p 31 31 15,
      .colaTrn .q 7 15 15 7, .colbOpq .r 31 0 31, .colbTrnI .s 7 15 0 15, .colbTrnII .p 0 0 15 0, .mod4Std .p 0xFFFFFFFF,
      .mod4Pt .p 0, .mod2Direct .p 1, .mod2Hv .p 0xFFFFFFFE, .mod2H .p 0xFFEFFFFF, .mod2V .p 0xFFFFFFFF,
      .resolve4bpp 5 5, .resolveStored 11 5, .resolveHv 4 3, .resolveH 11 2, .resolveV 5 2, .compose 31, .composePtI 0,
      .composePtII 31].all Instr.wellFormed = true := by decide

theorem witness_DecodedIsWellFormed :
    (sel2bpp 0b01#2 = true ∧ 4 ≤ 11 ∧ 11 < 12 ∧ 2 ≤ 5 ∧ 5 < 6) ∧ (sel2bpp 0b10#2 = false ∧ 2 ≤ 5 ∧ 5 < 6 ∧ 2 ≤ 2 ∧ 2 < 6) ∧
      (31 < 32) := by decide

theorem witness_NoWordBitIgnored :
    decodeColA .p 0x80008001 = decodeColA .p 0x80008001 ∧
      decodeColB .p .pvrtcII 0x80008001 = decodeColB .p .pvrtcII 0x80008001 ∧
      decodeMod .p true ⟨0x00100001, 0x80008001⟩ = decodeMod .p true ⟨0x00100001, 0x80008001⟩ := by decide

theorem witness_ColourAFieldPlaces :
    field (0x0000CD92 : Word32) 15 15 = 1 ∧ field (0x00005A5A : Word32) 15 15 = 0 := by decide

theorem witness_ColourBFieldPlaces :
    field (0x83E08000 : Word32) 31 31 = 1 ∧ field (0x5A5A0000 : Word32) 31 31 = 0 := by decide

/-! ### Operations -/

theorem witness_ExtractedColoursOnScale :
    (∃ t, exec (.colaOpq .p 31 0 15) State.reset = .next t) ∧ (∃ t, exec (.colaTrn .p 7 15 0 7) State.reset = .next t) ∧
      (∃ t, exec (.colbOpq .p 31 0 15) State.reset = .next t) ∧ (∃ t, exec (.colbTrnI .p 7 15 0 7) State.reset = .next t) ∧
      ∃ t, exec (.colbTrnII .p 7 15 0 7) State.reset = .next t :=
  ⟨⟨_, rfl⟩, ⟨_, rfl⟩, ⟨_, rfl⟩, ⟨_, rfl⟩, ⟨_, rfl⟩⟩

/-- The grids of reset have their 128 entries. -/
theorem witness_Unpacked : State.reset.mv.length = 128 ∧ State.reset.mm.length = 128 := ⟨rfl, rfl⟩

theorem witness_DirectModulation2 : field (0xFFFFFFFE : Word32) 0 0 = 0 := by decide

theorem witness_SelectableModulation2 :
    field (0xFFFFFFFE : Word32) 0 0 = 0 ∧ (field (0xFFEFFFFF : Word32) 0 0 = 1 ∧ field (0xFFEFFFFF : Word32) 20 20 = 0) ∧
      (field (0x00100001 : Word32) 0 0 = 1 ∧ field (0x00100001 : Word32) 20 20 = 1) := by decide

theorem witness_CodeDomains :
    (∃ t, exec (.mod4Std .p 0xE4) State.reset = .next t ∧ t.mv[0]? = some (some 0)) ∧
      (∃ t, exec (.mod4Pt .p 0xE6) State.reset = .next t ∧ t.mv[0]? = some (some 14)) ∧
      (∃ t, exec (.mod2Direct .p 1) State.reset = .next t ∧ t.mv[0]? = some (some 3)) ∧
      (∃ t, exec (.mod2Hv .p 0) State.reset = .next t ∧ t.mv[0]? = some (some 0)) ∧
      (∃ t, exec (.mod2H .p 1) State.reset = .next t ∧ t.mv[0]? = some (some 0)) ∧
      ∃ t, exec (.mod2V .p 0x00100003) State.reset = .next t ∧ t.mv[0]? = some (some 3) :=
  ⟨next_of_after (f := (·.mv[0]?)) (by decide), next_of_after (f := (·.mv[0]?)) (by decide),
    next_of_after (f := (·.mv[0]?)) (by decide), next_of_after (f := (·.mv[0]?)) (by decide),
    next_of_after (f := (·.mv[0]?)) (by decide), next_of_after (f := (·.mv[0]?)) (by decide)⟩

theorem witness_StoredWeights4 : (around 0 0 0 0 14).HoldsCode 5 2 14 := ⟨by decide, by decide, by decide⟩

theorem witness_StoredWeights2 :
    (around 0 0 0 0 3).HoldsCode 5 2 3 ∧ 3 < 4 ∧ ModTag.direct = .direct ∧ (11 + 5) % 2 = 0 :=
  ⟨⟨by decide, by decide, by decide⟩, by decide, rfl, rfl⟩

theorem witness_AveragedWeights :
    (around 0 1 2 3 0).HoldsCode 5 (2 - 1) 0 ∧ (around 0 1 2 3 0).HoldsCode 5 (2 + 1) 1 ∧
      (around 0 1 2 3 0).HoldsCode (5 - 1) 2 2 ∧ (around 0 1 2 3 0).HoldsCode (5 + 1) 2 3 ∧ (5 + 2) % 2 = 1 :=
  ⟨⟨by decide, by decide, by decide⟩, ⟨by decide, by decide, by decide⟩, ⟨by decide, by decide, by decide⟩,
    ⟨by decide, by decide, by decide⟩, rfl⟩

/-- A core in UNPACK of a 2 bpp command. -/
def unpacking (is2bpp : Bool) : State :=
  { inPhase .unpack with cfg := { latched (record 4 4 32 64) with is2bpp := is2bpp } }

theorem witness_ResolverReadsFindValues :
    (unpacking true).Sized ∧ (unpacking true).ph = .unpack ∧ (unpacking true).cfg.is2bpp = true ∧ 7 < 8 ∧ 3 < 4 ∧
      (7 + 3) % 2 = 0 ∧ (6 + 3) % 2 = 1 :=
  ⟨⟨rfl, rfl, rfl, rfl, rfl⟩, rfl, rfl, by decide, by decide, by decide, by decide⟩

theorem witness_WeightsInRange :
    (unpacking true).Sized ∧ (unpacking true).ph = .unpack ∧ 7 < (if (unpacking true).cfg.is2bpp then 8 else 4) ∧
      (unpacking false).Sized ∧ (unpacking false).ph = .unpack ∧ 3 < (if (unpacking false).cfg.is2bpp then 8 else 4) :=
  ⟨⟨rfl, rfl, rfl, rfl, rfl⟩, rfl, by decide, ⟨rfl, rfl, rfl, rfl, rfl⟩, rfl, by decide⟩

theorem witness_BlendOperations :
    31 < (blending 8).tile.length ∧ (blending 8).weight ≤ 8 ∧ (blending 8).ua[31]? = some (some ⟨255, 0, 0, 255⟩) ∧
      (blending 8).ub[31]? = some (some ⟨0, 0, 255, 255⟩) ∧ 10 < (blending 11).weight ∧ (blending 11).weight ≤ 18 ∧
      31 < (blending 11).tile.length ∧ (blending 11).ua[31]? = some (some ⟨255, 0, 0, 255⟩) ∧
      (blending 11).ub[31]? = some (some ⟨0, 0, 255, 255⟩) ∧ (10 ≤ 10) ∧ 10 < 11 := by
  decide

theorem witness_NarrowingIsExact :
    (blending 8).weight ≤ 8 ∧ (blending 8).ua[31]? = some (some ⟨255, 0, 0, 255⟩) ∧
      (blending 8).ub[31]? = some (some ⟨0, 0, 255, 255⟩) ∧ (Pixel128.inByte ⟨255, 0, 0, 255⟩) ∧
      (Pixel128.inByte ⟨0, 0, 255, 255⟩) ∧
      ∃ t, exec (.compose 31) (blending 8) = .next t ∧ t.tile[31]? = some (some ⟨0, 0, 255, 255⟩) :=
  ⟨by decide, by decide, by decide, by unfold Pixel128.inByte; decide, by unfold Pixel128.inByte; decide,
    next_of_after (f := (·.tile[31]?)) (by decide)⟩

/-- A PVRTC-II command on a grid that is no power of two. -/
theorem witness_LinearIndexOperation :
    ({ State.reset with cfg := { Latched.reset with variant := .pvrtcII, gw := 3, gh := 5 } } : State).cfg.variant = .pvrtcII := rfl

theorem witness_MortonIndexOperation :
    ((onGrid 8 2 (5, 1)).cfg.gw = 2 ^ 3 ∧ (onGrid 8 2 (5, 1)).cfg.gh = 2 ^ 1) ∧
      ((onGrid 2 8 (1, 5)).cfg.gw = 2 ^ 1 ∧ (onGrid 2 8 (1, 5)).cfg.gh = 2 ^ 3) ∧
      (onGrid 4 4 (3, 3)).cfg.gw = 2 ^ 2 ∧ (onGrid 4 4 (3, 3)).cfg.gh = 2 ^ 2 := by decide

theorem witness_MortonStopsOffPowersOfTwo :
    ¬((∃ a, (onGrid 3 2 (0, 0)).cfg.gw = 2 ^ a) ∧ ∃ b, (onGrid 3 2 (0, 0)).cfg.gh = 2 ^ b) := by
  rintro ⟨h, -⟩
  exact absurd ((pow2_iff _).mpr h) (by decide)

theorem witness_IndexIsBijection :
    ((onGrid 8 2 (5, 1)).cfg.variant = .pvrtcI → (∃ a, (onGrid 8 2 (5, 1)).cfg.gw = 2 ^ a) ∧ ∃ b, (onGrid 8 2 (5, 1)).cfg.gh = 2 ^ b) ∧
      7 < (onGrid 8 2 (5, 1)).cfg.gw ∧ 1 < (onGrid 8 2 (5, 1)).cfg.gh ∧
      15 < (onGrid 8 2 (5, 1)).cfg.gw * (onGrid 8 2 (5, 1)).cfg.gh :=
  ⟨fun _ => ⟨⟨3, rfl⟩, ⟨1, rfl⟩⟩, by decide, by decide, by decide⟩

/-! ### Commands -/

/-- VE2, VE1, VE5, VE8, VE9 and VE10: each condition of CHECK holds with no lower one. -/
theorem witness_FirstFaultIsReported :
    (faultCondition .pvrtcI true (record 20 8 64 640) .dimMult ∧
      ∀ c, c.value < FaultCode.dimMult.value → ¬faultCondition .pvrtcI true (record 20 8 64 640) c) ∧
    (faultCondition .pvrtcI false (record 24 8 96 768) .npot ∧
      ∀ c, c.value < FaultCode.npot.value → ¬faultCondition .pvrtcI false (record 24 8 96 768) c) ∧
    (faultCondition .pvrtcI false (record 32768 32768 (2 ^ 29) (2 ^ 32 - 1)) .size ∧
      ∀ c, c.value < FaultCode.size.value → ¬faultCondition .pvrtcI false (record 32768 32768 (2 ^ 29) (2 ^ 32 - 1)) c) ∧
    (faultCondition .pvrtcI false (record 4 4 8 64) .inShort ∧
      ∀ c, c.value < FaultCode.inShort.value → ¬faultCondition .pvrtcI false (record 4 4 8 64) c) ∧
    (faultCondition .pvrtcI false (record 8 8 32 255) .outShort ∧
      ∀ c, c.value < FaultCode.outShort.value → ¬faultCondition .pvrtcI false (record 8 8 32 255) c) ∧
    faultCondition .pvrtcI false ⟨.pvrtcI, false, 8, 8, ⟨0, 256⟩, ⟨0, 256⟩⟩ .overlap ∧
      ∀ c, c.value < FaultCode.overlap.value →
        ¬faultCondition .pvrtcI false ⟨.pvrtcI, false, 8, 8, ⟨0, 256⟩, ⟨0, 256⟩⟩ c := by
  have low : ∀ (b : Bool) (r : CmdRecord) (n : Nat),
      (dimMult (configure ((ready r).start .pvrtcI b).cfg) = false ∨ n ≤ 1) →
      (notPow2 (withGrid (configure ((ready r).start .pvrtcI b).cfg)) = false ∨ n ≤ 2) →
      (tooLarge (withGrid (configure ((ready r).start .pvrtcI b).cfg)) = false ∨ n ≤ 3) →
      (inShort (withGrid (configure ((ready r).start .pvrtcI b).cfg)) = false ∨ n ≤ 4) →
      (outShort (withGrid (configure ((ready r).start .pvrtcI b).cfg)) = false ∨ n ≤ 5) → n ≤ 6 →
      ∀ c, c.value < n → ¬faultCondition .pvrtcI b r c := by
    intro b r n h1 h2 h3 h4 h5 h6 c hc
    cases c with
    | none => exact id
    | alloc => exact id
    | dimMult =>
      have : ¬n ≤ 1 := by simpa [FaultCode.value] using hc
      exact fun h => absurd ((faultCondition_dimMult (ready r) .pvrtcI b).mp h) (by rw [h1.resolve_right this]; decide)
    | npot =>
      have : ¬n ≤ 2 := by simpa [FaultCode.value] using hc
      exact fun h => absurd ((faultCondition_npot (ready r) .pvrtcI b).mp h) (by rw [h2.resolve_right this]; decide)
    | size =>
      have : ¬n ≤ 3 := by simpa [FaultCode.value] using hc
      exact fun h => absurd ((faultCondition_size (ready r) .pvrtcI b).mp h) (by rw [h3.resolve_right this]; decide)
    | inShort =>
      have : ¬n ≤ 4 := by simpa [FaultCode.value] using hc
      exact fun h => absurd ((faultCondition_inShort (ready r) .pvrtcI b).mp h) (by rw [h4.resolve_right this]; decide)
    | outShort =>
      have : ¬n ≤ 5 := by simpa [FaultCode.value] using hc
      exact fun h => absurd ((faultCondition_outShort (ready r) .pvrtcI b).mp h) (by rw [h5.resolve_right this]; decide)
    | overlap => exact absurd hc (by show ¬6 < n; omega)
  refine ⟨⟨(faultCondition_dimMult (ready _) _ _).mpr (by decide), ?_⟩, ⟨(faultCondition_npot (ready _) _ _).mpr (by decide), ?_⟩,
    ⟨(faultCondition_size (ready _) _ _).mpr (by decide), ?_⟩, ⟨(faultCondition_inShort (ready _) _ _).mpr (by decide), ?_⟩,
    ⟨(faultCondition_outShort (ready _) _ _).mpr (by decide), ?_⟩,
    (faultCondition_overlap (ready _) _ _).mpr (by decide), ?_⟩
  all_goals exact low _ _ _ (by decide) (by decide) (by decide) (by decide) (by decide) (by decide)

/-- A 4 × 4 command needs `TMP`, and is admitted; the environment's draw is `b`. -/
def padded (b : Bool) : State := { ready (record 4 4 32 64) with allocGiven := [b] }

theorem padded_admitted (b : Bool) (v : Variant) : admitted v false (padded b).cmd :=
  (checkCommand_none_iff (ready (record 4 4 32 64)) v false).mp (by cases v <;> decide)

theorem witness_FailedAllocationIsReported :
    (padded false).busy = false ∧ admitted .pvrtcI false (padded false).cmd ∧ recPad false (padded false).cmd ∧
      (padded false).drawOf = false :=
  ⟨rfl, padded_admitted _ _, .inl (by decide), rfl⟩

/-- Padded and unpadded, at both depths and in both variants. -/
theorem witness_AdmittedCommandCompletes :
    ((padded true).busy = false ∧ Memory.wf (padded true).mem = true ∧ admitted .pvrtcI false (padded true).cmd ∧
      admitted .pvrtcII false (padded true).cmd ∧ recPad false (padded true).cmd ∧ (padded true).drawOf = true) ∧
    (p1.busy = false ∧ Memory.wf p1.mem = true ∧ admitted .pvrtcI false p1.cmd ∧ ¬recPad false p1.cmd) ∧
    ((ready (record 16 8 32 512)).busy = false ∧ admitted .pvrtcI true (record 16 8 32 512) ∧
      admitted .pvrtcII true (record 16 8 32 512) ∧ ¬recPad true (record 16 8 32 512)) := by
  refine ⟨⟨rfl, rfl, padded_admitted _ _, padded_admitted _ _, .inl (by decide), rfl⟩,
    ⟨rfl, by decide, (checkCommand_none_iff p1 _ _).mp (by decide), ?_⟩,
    ⟨rfl, (checkCommand_none_iff (ready _) _ _).mp (by decide), (checkCommand_none_iff (ready _) _ _).mp (by decide), ?_⟩⟩
  · unfold recPad
    decide
  · unfold recPad
    decide

theorem witness_CommandAlwaysEnds : State.reset.busy = false ∧ Memory.wf State.reset.mem = true := by decide

theorem witness_CommandWhileBusyIsRefused : (inPhase .fetch).busy = true := by decide

/-- P1 with `IN` and `OUT` elsewhere, another variant selected, and other leftovers. -/
def p1Moved : State :=
  { p1 with
    cmd := ⟨.pvrtcII, true, 8, 8, ⟨100, 32⟩, ⟨1000, 256⟩⟩, strat := .selected 3, weight := 7
    mem := [(105, 0xFC), (106, 0x1F), (107, 0x80), (113, 0xFC), (114, 0x1F), (115, 0x80),
      (121, 0xFC), (122, 0x1F), (123, 0x80), (129, 0xFC), (130, 0x1F), (131, 0x80)] }

theorem p1_runs : ∃ t, exec (commandOf .pvrtcI false) p1 = .next t ∧ t.status = .done ∧ t.fault = .none := by
  obtain ⟨t, ht, e⟩ := next_of_after test_decompI4bpp
  refine ⟨t, ht, ?_⟩
  simp only [ending, Prod.mk.injEq] at e
  refine ⟨e.1.1, ?_⟩
  have := e.1.2.1
  revert this
  cases t.fault <;> simp [FaultCode.value]

theorem p1Moved_runs : ∃ t, exec (commandOf .pvrtcI false) p1Moved = .next t := by
  rw [exec_command _ _ _ rfl]
  obtain ⟨t, ht, -⟩ := decomp_done (p1Moved.start .pvrtcI false) (by decide) (by decide) (fun h => absurd h (by decide))
  exact ⟨t, ht⟩

theorem witness_EndStateIsDetermined :
    p1.busy = false ∧ p1Moved.busy = false ∧ Memory.wf p1.mem = true ∧ Memory.wf p1Moved.mem = true ∧
    p1Moved.pixelOrder = p1.pixelOrder ∧ p1Moved.mortonLow = p1.mortonLow ∧ p1Moved.cmd.width = p1.cmd.width ∧
    p1Moved.cmd.height = p1.cmd.height ∧ p1Moved.cmd.inSp.len = p1.cmd.inSp.len ∧
    p1Moved.cmd.outSp.len = p1.cmd.outSp.len ∧
    (faultCondition .pvrtcI false p1Moved.cmd .overlap ↔ faultCondition .pvrtcI false p1.cmd .overlap) ∧
    (∀ o, o < 8 * recGw false p1.cmd.width * recGh p1.cmd.height →
      Memory.read p1Moved.mem (p1Moved.cmd.inSp.base + o) = Memory.read p1.mem (p1.cmd.inSp.base + o)) ∧
    (recPad false p1.cmd → p1Moved.drawOf = p1.drawOf) ∧
    (∃ t, exec (commandOf .pvrtcI false) p1 = .next t ∧ t.status = .done ∧ t.fault = .none) ∧
    ∃ t', exec (commandOf .pvrtcI false) p1Moved = .next t' := by
  refine ⟨rfl, rfl, by decide, by decide, rfl, rfl, rfl, rfl, rfl, rfl, ?_, ?_, ?_, p1_runs, p1Moved_runs⟩
  · rw [faultCondition_overlap, faultCondition_overlap]
    decide
  · have : ∀ o, o < 32 → Memory.read p1Moved.mem (100 + o) = Memory.read p1.mem (0 + o) := by decide
    exact this
  · intro h
    exact absurd h (by unfold recPad; decide)

theorem witness_EveryPixelWrittenOnce :
    checkCommand (configure (latched (record 4 4 32 64))) = .none ∧
      latched (record 4 4 32 64) = checkedCfg (latched (record 4 4 32 64)) ∧ 1 < (latched (record 4 4 32 64)).gw ∧
      1 < (latched (record 4 4 32 64)).gh ∧ 15 < 4 * (latched (record 4 4 32 64)).blockW ∧
      7 < (latched (record 4 4 32 64)).wt ∧ 7 < (latched (record 4 4 32 64)).ht := by decide

/-! ### Phases and steps -/

/-- The invariant holds of a core in any phase (`PhaseTransitions`, and every statement that asks for a phase). -/
theorem witness_PhaseTransitions (ph : Phase) : (inPhase ph).Inv ∧ (inPhase ph).ph = ph := ⟨inPhase_inv ph, rfl⟩

/-- Each case of the CHECK row: refused, admitted with padding, admitted without. -/
theorem witness_PhaseTransitions_check :
    (({ State.reset with ph := .check } : State).Inv ∧ checkCommand (configure State.reset.cfg) ≠ .none) ∧
    ((inPhase .check).Inv ∧ checkCommand (configure (inPhase .check).cfg) = .none ∧
      (configure (inPhase .check).cfg).pad = true) ∧
    ((unpadded .check).Inv ∧ checkCommand (configure (unpadded .check).cfg) = .none ∧
      (configure (unpadded .check).cfg).pad = false) :=
  ⟨⟨refusing_inv, by decide⟩, ⟨inPhase_inv _, by decide, by decide⟩,
    ⟨unpadded_inv _ (by decide) (by decide), by decide, by decide⟩⟩

/-- Both draws of the ALLOC row. -/
theorem witness_PhaseTransitions_alloc (b : Bool) :
    ({ inPhase .alloc with allocGiven := [b] } : State).Inv ∧
      ({ inPhase .alloc with allocGiven := [b] } : State).drawAlloc.1 = b :=
  have h := inPhase_inv .alloc
  ⟨⟨h.mem, h.tmpWf, h.sized.congr rfl rfl rfl rfl rfl, h.config, h.padded, h.tmpSize, h.tmpGone, h.walker, h.blocks,
    h.indices⟩, rfl⟩

theorem witness_BlockConfiguration :
    (inPhase .check).ph = .check ∧ (inPhase .check).cfg.is2bpp = false ∧
      ({ inPhase .check with cfg := { latched (record 4 4 32 64) with is2bpp := true } } : State).cfg.is2bpp = true ∧
      ({ inPhase .check with cfg := { latched (record 4 4 32 64) with is2bpp := true } } : State).ph = .check :=
  ⟨rfl, rfl, rfl, rfl⟩

theorem witness_BothColoursFromEveryWord : (inPhase .unpack).ph = .unpack := rfl

theorem witness_BothColoursInterpolated : (inPhase .interp).ph = .interp := rfl

theorem witness_BlockIndicesOfATile :
    (inPhase .fetch).Inv ∧ (inPhase .fetch).ph = .fetch ∧ (inPhase .fetch).bX = -1 := ⟨inPhase_inv _, rfl, rfl⟩

theorem witness_FetchReadsFourWords : (inPhase .fetch).Inv ∧ (inPhase .fetch).ph = .fetch := ⟨inPhase_inv _, rfl⟩

theorem witness_ScatterPlacesEveryTexel :
    (inPhase .scatter).Inv ∧ (inPhase .scatter).ph = .scatter ∧ 3 < (inPhase .scatter).cfg.blockW ∧
      (inPhase .scatter).tile[3 * (inPhase .scatter).cfg.blockW + 3]? = some (some ⟨1, 2, 3, 4⟩) :=
  ⟨inPhase_inv _, rfl, by decide, by decide⟩

/-- The frame of SCATTER: with and without padding, a byte of the raster that belongs to no pixel of the first tile. -/
theorem witness_ScatterPlacesEveryTexel_frame :
    ((inPhase .scatter).Inv ∧ (inPhase .scatter).cfg.pad = true) ∧
    ((unpadded .scatter).Inv ∧ (unpadded .scatter).ph = .scatter ∧ (unpadded .scatter).cfg.pad = false ∧
      0 < (unpadded .scatter).cfg.outSp.base) ∧
    ∀ e, e < 4 * (unpadded .scatter).cfg.blockW → ∀ n, n < 4 →
      8 ≠ 4 * ((scatterPos (unpadded .scatter).cfg (unpadded .scatter).bX (unpadded .scatter).bY e).2 *
        (unpadded .scatter).cfg.wt +
          (scatterPos (unpadded .scatter).cfg (unpadded .scatter).bX (unpadded .scatter).bY e).1) + n :=
  ⟨⟨inPhase_inv _, by decide⟩, ⟨unpadded_inv _ (by decide) (by decide), rfl, by decide, by decide⟩, by decide⟩

theorem witness_CopyBackCropsTheRaster :
    (inPhase .copyback).Inv ∧ (inPhase .copyback).ph = .copyback ∧ (inPhase .copyback).tmp = some ⟨256, []⟩ ∧
      3 < (inPhase .copyback).cfg.width.toNat ∧ 3 < (inPhase .copyback).cfg.height.toNat :=
  ⟨inPhase_inv _, rfl, rfl, by decide, by decide⟩

/-- The invariant does not look at the model's own fields, nor at the registers a tile leaves behind. -/
theorem inv_leftovers {s : State} (h : s.Inv) (g : Granularity) (q : List HostAction) (w : Nat) (c : Corners Pixel32) :
    ({ s with granularity := g, hostQ := q, weight := w, ca := c } : State).Inv :=
  ⟨h.mem, h.tmpWf, h.sized.congr rfl rfl rfl rfl rfl, h.config, h.padded, h.tmpSize, h.tmpGone, h.walker, h.blocks, h.indices⟩

/-- `s` at a granularity, with host moves to come, and other leftovers. -/
def varied (s : State) (g : Granularity) (q : List HostAction) (w : Nat) : State :=
  { s with granularity := g, hostQ := q, weight := w, ca := corners ⟨9, 9, 9, 9⟩ }

theorem varied_inv (ph : Phase) (g : Granularity) (q : List HostAction) (w : Nat) : (varied (inPhase ph) g q w).Inv :=
  inv_leftovers (inPhase_inv ph) g q w _

theorem witness_TileIgnoresLeftovers :
    (varied (inPhase .fetch) .phase [] 5).Inv ∧ (varied (inPhase .fetch) .phase [] 6).Inv ∧
      (varied (inPhase .fetch) .phase [] 5).ph = .fetch ∧ (varied (inPhase .fetch) .phase [] 6).ph = .fetch ∧
      (varied (inPhase .fetch) .phase [] 6).cfg = (varied (inPhase .fetch) .phase [] 5).cfg ∧
      (varied (inPhase .fetch) .phase [] 6).mem = (varied (inPhase .fetch) .phase [] 5).mem ∧
      (varied (inPhase .fetch) .phase [] 6).weight ≠ (varied (inPhase .fetch) .phase [] 5).weight ∧
      15 < 4 * (varied (inPhase .fetch) .phase [] 5).cfg.blockW :=
  ⟨varied_inv _ _ _ _, varied_inv _ _ _ _, rfl, rfl, rfl, rfl, by decide, by decide⟩

theorem witness_RowByRowIsTheCommand :
    ({ padded true with granularity := .phase } : State).busy = false ∧
      Memory.wf ({ padded true with granularity := .phase } : State).mem = true ∧
      ∃ t, exec (commandOf .pvrtcI false) { padded true with granularity := .phase } = .next t ∧ t.fault = .none := by
  refine ⟨rfl, rfl, ?_⟩
  rw [exec_command _ _ _ rfl]
  obtain ⟨t, ht, e, -⟩ := decomp_done (({ padded true with granularity := .phase } : State).start .pvrtcI false) (by decide)
    (by decide) (fun _ => rfl)
  exact ⟨t, ht, by rw [e]⟩

theorem witness_OperationsMakeThePhase (ph : Phase) :
    (varied (inPhase ph) .operation [] 0).Inv ∧ (varied (inPhase ph) .operation [] 0).seq = 0 ∧
      ((inPhase .compose).busy = true ∧ (inPhase .fetch).busy = true) ∧
      ∃ t, phaseStep (varied (inPhase ph) .operation [] 0) = .next t := by
  obtain ⟨t, ht, -⟩ := (varied_inv ph .operation [] 0).phaseStep
  exact ⟨varied_inv _ _ _ _, rfl, ⟨rfl, rfl⟩, t, ht⟩

theorem witness_StepRunsTheDecodedInstruction :
    ((varied (inPhase .done) .command [.start] 0).busy = false) ∧
      (varied (inPhase .interp) .operation [.start] 0).busy = true ∧
      (HostAction.start).anyTime = false ∧
      (varied (inPhase .interp) .operation [.start] 0).nextOp =
        some ((varied (inPhase .interp) .operation [.start] 0).fetchSlot (.interp .a)) :=
  ⟨rfl, rfl, rfl, rfl⟩

theorem witness_StartLatchesTheRecord :
    (varied (inPhase .failed) .phase [.start, .reset] 0).hostQ = .start :: [.reset] ∧
      (varied (inPhase .failed) .phase [.start, .reset] 0).busy = false ∧
      (varied (inPhase .failed) .phase [.start, .reset] 0).granularity ≠ .command :=
  ⟨rfl, rfl, by decide⟩

theorem witness_HostWritesTheRecord (a : HostAction) :
    (varied (inPhase .idle) .phase [a] 0).hostQ = a :: [] ∧ (varied (inPhase .idle) .phase [a] 0).busy = false ∧
      Memory.wf (varied (inPhase .idle) .phase [a] 0).mem = true := ⟨rfl, rfl, rfl⟩

theorem witness_HostWaitsWhileBusy :
    (varied (inPhase .check) .phase [.setWidth 8] 0).busy = true ∧ (∀ n, HostAction.setWidth 8 ≠ .selectStrat n) ∧
      HostAction.setWidth 8 ≠ .reset := ⟨rfl, by simp, by simp⟩

theorem witness_StoresOnlyInsideOut :
    (inPhase .copyback).Inv ∧ (inPhase .copyback).busy = true ∧ (inPhase .copyback).hostQ = [] ∧
      (inPhase .copyback).ph.admittedWork = true ∧ (∃ t, step (inPhase .copyback) = .next t) ∧
      (inPhase .compose).Inv ∧ (inPhase .compose).busy = true ∧ (inPhase .compose).ph ≠ .scatter ∧
      (inPhase .compose).ph ≠ .copyback ∧ (inPhase .compose).ph ≠ .alloc ∧ ∃ t, step (inPhase .compose) = .next t := by
  obtain ⟨t, ht, -⟩ := (inPhase_inv .copyback).phaseStep
  obtain ⟨u, hu, -⟩ := (inPhase_inv .compose).phaseStep
  exact ⟨inPhase_inv _, rfl, rfl, rfl, ⟨t, ht⟩, inPhase_inv _, rfl, by decide, by decide, by decide, u, hu⟩

theorem witness_RestingCoreKeepsItsState :
    (varied (inPhase .done) .phase [] 0).busy = false ∧ (varied (inPhase .done) .phase [.setWidth 8] 0).busy = false ∧
      HostAction.setWidth 8 ≠ .start ∧ HostAction.setWidth 8 ≠ .reset := ⟨rfl, rfl, by simp, by simp⟩

theorem witness_ResetEndsTheCommand :
    (varied (inPhase .compose) .operation [.reset] 0).hostQ = .reset :: [] ∧
      (varied (inPhase .compose) .operation [.reset] 0).busy = true := ⟨rfl, rfl⟩

/-- For `StepKeepsInvariant` and `InvariantStatesNeverStop`. -/
theorem witness_StepKeepsInvariant (ph : Phase) :
    (varied (inPhase ph) .phase [] 0).Inv ∧ ∃ t, step (varied (inPhase .scatter) .phase [] 0) = .next t := by
  obtain ⟨t, ht, -⟩ := (varied_inv .scatter .phase [] 0).phaseStep
  exact ⟨varied_inv _ _ _ _, t, ht⟩

theorem witness_StepKeepsRegisterRanges :
    (inPhase .interp).Ranges ∧ ∃ t, step (inPhase .interp) = .next t := by
  obtain ⟨t, ht, -⟩ := (inPhase_inv .interp).phaseStep
  exact ⟨inPhase_ranges _, t, ht⟩

end Sys2Proof.Tests
end

section
/-! The colour extractor: what the two operations a word decodes to leave, and both colours of every block after UNPACK. -/

namespace Sys2Proof.Machine

/-- Whichever form of colour A a word selects, executing it leaves `ExtractA` of the word in `CA[k]` (R120, R127). -/
theorem exec_decodeColA (k : Corner) (col : Word32) (s : State) :
    exec (decodeColA k col) s = .next (s.setCa k (extractA col)) := by
  simp only [decodeColA, extractA]
  cases opaqueA col <;> rfl

/-- Whichever form of colour B a word selects under a variant, executing it leaves `ExtractB` of the word in `CB[k]`
(R120, R127). -/
theorem exec_decodeColB (k : Corner) (v : Variant) (col : Word32) (s : State) :
    exec (decodeColB k v col) s = .next (s.setCb k (extractB v col)) := by
  simp only [decodeColB, extractB]
  cases opaqueB col
  · cases v <;> rfl
  · rfl

theorem phaseStep_of_unpack {s : State} (h : s.ph = .unpack) : phaseStep s = .next (unpackPhase s) := by
  rw [phaseStep, h]

@[simp] theorem unpackPhase_wd (s : State) : (unpackPhase s).wd = s.wd := by rw [unpackPhase_eq]

@[simp] theorem unpackPhase_ca_get (s : State) (k : Corner) :
    (unpackPhase s).ca.get k = extractA (s.wd.get k).col := by
  rw [unpackPhase_eq, corners_get_map]

@[simp] theorem unpackPhase_cb_get (s : State) (k : Corner) :
    (unpackPhase s).cb.get k = extractB s.cfg.variant (s.wd.get k).col := by
  rw [unpackPhase_eq, corners_get_map]

/-- Settles O11: UNPACK and the decoded operations both leave the extractor's colour of the block's own word. -/
theorem bothColoursFromEveryWord : Obligations.BothColoursFromEveryWord := by
  intro s hph
  refine ⟨unpackPhase s, phaseStep_of_unpack hph, unpackPhase_wd s, fun k => ⟨?_, ?_⟩⟩
  · exact ⟨_, exec_decodeColA k _ s, by simp⟩
  · exact ⟨_, exec_decodeColB k _ _ s, by simp⟩

end Sys2Proof.Machine
end

section
/-! The resolver: the code or magnitude a read finds where the grid holds a code, and the weight each operation hands on. -/

namespace Sys2Proof.Machine

variable {s : State} {sx sy c : Nat}

/-! ## Reads where the grid holds a code -/

theorem State.HoldsCode.codeAt_eq (h : s.HoldsCode sx sy c) : codeAt s.mv sx sy = c := by
  obtain ⟨hx, hy, hmv⟩ := h
  have hin : 0 ≤ (sx : Int) ∧ (sx : Int) < 16 ∧ 0 ≤ (sy : Int) ∧ (sy : Int) < 8 := by omega
  rw [codeAt, if_pos hin]
  simp [gridIndex, hmv]

theorem rep_of_lt_four (hc : c < 4) : rep c = repTable c := by
  match c, hc with
  | 0, _ | 1, _ | 2, _ | 3, _ => rfl

theorem State.HoldsCode.repAt_eq (h : s.HoldsCode sx sy c) (hc : c < 4) : repAt s.mv sx sy = repTable c := by
  rw [repAt, h.codeAt_eq, rep_of_lt_four hc]

theorem State.HoldsCode.repAt_up (h : s.HoldsCode sx (sy - 1) c) (hy : 1 ≤ sy) (hc : c < 4) :
    repAt s.mv sx (sy - 1) = repTable c := by
  rw [← Nat.cast_pred hy, h.repAt_eq hc]

theorem State.HoldsCode.repAt_down (h : s.HoldsCode sx (sy + 1) c) (hc : c < 4) :
    repAt s.mv sx (sy + 1) = repTable c := by
  rw [← Nat.cast_succ, h.repAt_eq hc]

theorem State.HoldsCode.repAt_left (h : s.HoldsCode (sx - 1) sy c) (hx : 1 ≤ sx) (hc : c < 4) :
    repAt s.mv (sx - 1) sy = repTable c := by
  rw [← Nat.cast_pred hx, h.repAt_eq hc]

theorem State.HoldsCode.repAt_right (h : s.HoldsCode (sx + 1) sy c) (hc : c < 4) :
    repAt s.mv (sx + 1) sy = repTable c := by
  rw [← Nat.cast_succ, h.repAt_eq hc]

/-! ## What each operation leaves -/

theorem exec_resolve4bpp (s : State) (sx sy : Nat) :
    exec (.resolve4bpp sx sy) s = .next (s.setWeight (weight4bpp s.mv sx sy)) := rfl

theorem exec_resolveHv (s : State) (sx sy : Nat) :
    exec (.resolveHv sx sy) s = .next (s.setWeight (weightHv s.mv sx sy)) := rfl

theorem exec_resolveH (s : State) (sx sy : Nat) :
    exec (.resolveH sx sy) s = .next (s.setWeight (weightH s.mv sx sy)) := rfl

theorem exec_resolveV (s : State) (sx sy : Nat) :
    exec (.resolveV sx sy) s = .next (s.setWeight (weightV s.mv sx sy)) := rfl

/-! ## The statements -/

/-- Settles O19: each average reads its neighbours' magnitudes, and the tag selects it at odd parity. -/
theorem averagedWeights : Obligations.AveragedWeights := by
  refine ⟨fun sx sy hodd => ?_, fun s sx sy => ⟨?_, ?_, ?_⟩⟩
  · have hp : oddParity sx sy = true := by simp [oddParity, hodd]
    simp [decodeResolve, hp]
  · refine ⟨_, exec_resolveHv s sx sy, rfl, fun u d l r hx hy hu hd hl hr hu4 hd4 hl4 hr4 => ?_⟩
    rw [State.setWeight_weight, weightHv, hu.repAt_up hy hu4, hd.repAt_down hd4, hl.repAt_left hx hl4, hr.repAt_right hr4]
  · refine ⟨_, exec_resolveH s sx sy, rfl, fun l r hx hl hr hl4 hr4 => ?_⟩
    rw [State.setWeight_weight, weightH, hl.repAt_left hx hl4, hr.repAt_right hr4]
  · refine ⟨_, exec_resolveV s sx sy, rfl, fun u d hy hu hd hu4 hd4 => ?_⟩
    rw [State.setWeight_weight, weightV, hu.repAt_up hy hu4, hd.repAt_down hd4]

/-- Settles O17: at 4 bpp the decoder never looks at the tag, and the operation reads the code of the position itself. -/
theorem storedWeights4 : Obligations.StoredWeights4 := by
  refine ⟨fun sx sy tag => by simp [decodeResolve], fun s sx sy => ⟨_, exec_resolve4bpp s sx sy, rfl, fun c hc => ?_⟩⟩
  rw [State.setWeight_weight, weight4bpp, hc.codeAt_eq]

end Sys2Proof.Machine
end

section
/-! The interpolator: the buffers INTERP leaves are those the two decoded operations leave, each started from the same
state. The interpolation of slot A writes `UA` alone, so slot B finds its corner colours and its buffer as they were. -/

namespace Sys2Proof.Machine

theorem phaseStep_of_interp {s : State} (h : s.ph = .interp) : phaseStep s = .next (interpPhase s) := by
  rw [phaseStep, h]

@[simp] theorem interpPhase_ph (s : State) : (interpPhase s).ph = .compose := by rw [interpPhase_eq]

@[simp] theorem interpPhase_ca (s : State) : (interpPhase s).ca = s.ca := by rw [interpPhase_eq]

@[simp] theorem interpPhase_cb (s : State) : (interpPhase s).cb = s.cb := by rw [interpPhase_eq]

theorem interpPhase_ua (s : State) : (interpPhase s).ua = (s.interpolate s.cfg.is2bpp .a).ua := by
  rw [interpPhase_eq]
  rfl

theorem interpPhase_ub (s : State) : (interpPhase s).ub = (s.interpolate s.cfg.is2bpp .b).ub := by
  rw [interpPhase_eq]
  rfl

/-- Settles O24: INTERP interpolates slot A and then slot B, and each operation of the latched command does so for its
own slot. -/
theorem bothColoursInterpolated : Obligations.BothColoursInterpolated := by
  intro s hph
  exact ⟨interpPhase s, _, _, phaseStep_of_interp hph, interpPhase_ph s, exec_interp s .a, exec_interp s .b,
    interpPhase_ua s, interpPhase_ub s, interpPhase_ca s, interpPhase_cb s⟩

end Sys2Proof.Machine
end

section
/-! The index twiddler: the mapping a variant selects, and the one index an operation writes. -/

namespace Sys2Proof.Machine

/-- Under PVRTC-II the selector names the linear mapping (R230, R231). -/
theorem decode_index_of_pvrtcII {s : State} (hv : s.cfg.variant = .pvrtcII) (k : Corner) :
    decode (s.fetchSlot (.index k)) = .idxLinear k := by
  simp only [decode, State.fetchSlot, selVariant_cmdSel, hv]

theorem exec_idxLinear (s : State) (k : Corner) :
    exec (.idxLinear k) s = .next (s.setIx k (linearIndex s.cfg.gw (s.blk.get k).1 (s.blk.get k).2)) := rfl

/-- Writing the index of one block keeps the other indices and every other field. -/
theorem State.setIx_ixWritten (s : State) (k : Corner) (n : Nat) : s.IxWritten (s.setIx k n) k n :=
  ⟨rfl, corners_get_set_same s.ix k n, fun k' h => corners_get_set_other s.ix k k' n h⟩

/-- Settles O27: a PVRTC-II command selects the linear mapping, which writes the row-major index of the block. -/
theorem linearIndexOperation : Obligations.LinearIndexOperation :=
  ⟨fun _ k hv => decode_index_of_pvrtcII hv k, fun s k => ⟨_, exec_idxLinear s k, s.setIx_ixWritten k _⟩⟩

end Sys2Proof.Machine
end

section
/-! The block walker: the configuration CHECK derives from the bit depth, and the blocks of the tile FETCH begins. -/

namespace Sys2Proof.Machine

theorem phaseStep_of_check {s : State} (h : s.ph = .check) : phaseStep s = .next (checkPhase s) := by
  rw [phaseStep, h]

theorem phaseStep_of_fetch {s : State} (h : s.ph = .fetch) : phaseStep s = fetchPhase s := by
  rw [phaseStep, h]

/-- Admitted or not, a command leaves CHECK with the checked configuration (R251 to R253). -/
@[simp] theorem checkPhase_cfg (s : State) : (checkPhase s).cfg = checkedCfg s.cfg := by
  unfold checkPhase
  simp only
  split
  · split <;> rfl
  · rfl

/-- `bpp`, `W`, `H`, `MIN_W` and `MIN_H` after CHECK, with the grid computed or not (R251). -/
theorem checkedCfg_block (c : Latched) :
    (checkedCfg c).bpp = bitsPerPixel c.is2bpp ∧ (checkedCfg c).blockW = blockWidth c.is2bpp ∧
      (checkedCfg c).minW = minWidth c.is2bpp ∧ (checkedCfg c).blockH = 4 ∧ (checkedCfg c).minH = 8 := by
  unfold checkedCfg
  split <;> exact ⟨rfl, rfl, rfl, rfl, rfl⟩

/-- Settles O39: CHECK leaves the checked configuration, whose block sizes are those of the latched bit depth. -/
theorem blockConfiguration : Obligations.BlockConfiguration := by
  intro s hph
  obtain ⟨hbpp, hw, hminW, hh, hminH⟩ := checkedCfg_block s.cfg
  refine ⟨checkPhase s, phaseStep_of_check hph, ?_⟩
  rw [checkPhase_cfg, hbpp, hw, hminW]
  refine ⟨fun h2bpp => ?_, fun h4bpp => ?_, hh, hminH⟩
  · rw [h2bpp]
    exact ⟨rfl, rfl, rfl⟩
  · rw [h4bpp]
    exact ⟨rfl, rfl, rfl⟩

/-- The blocks after FETCH are the neighbours of the walker's position (R256). -/
@[simp] theorem State.fetched_blk (s : State) : s.fetched.blk = neighbours s.bX s.bY s.cfg.gw s.cfg.gh := rfl

/-- When FETCH goes on, its mappings and its reads stopped nowhere. -/
theorem fetchPhase_next {s t : State} (h : fetchPhase s = .next t) : t = s.fetched := by
  rw [fetchPhase_eq] at h
  split at h
  · split at h
    · cases h
      rfl
    · cases h
  · cases h

/-- From an invariant state FETCH goes on, to the fetched state (R258). -/
theorem State.Inv.phaseStep_fetch {s : State} (h : s.Inv) (hph : s.ph = .fetch) : Machine.phaseStep s = .next s.fetched := by
  obtain ⟨t, ht, -⟩ := h.fetchPhase hph
  rw [phaseStep_of_fetch hph, ht, fetchPhase_next ht]

/-- Settles O40: FETCH goes on, and the blocks it leaves are the walker's neighbours, wrapped on each axis. -/
theorem blockIndicesOfATile : Obligations.BlockIndicesOfATile := by
  intro s hinv hph
  refine ⟨s.fetched, hinv.phaseStep_fetch hph, ?_⟩
  rw [State.fetched_blk]
  exact ⟨rfl, rfl, rfl, rfl⟩

end Sys2Proof.Machine
end

section
/-! The encoding: the fields of a packed colour, the bits a table mask selects, and what the decoded operations keep of a
word. -/

namespace Sys2Proof

/-! ## Bits and fields as numbers -/

theorem getLsbD_eq_decide {w : Nat} (v : BitVec w) (i : Nat) : v.getLsbD i = decide (v.toNat / 2 ^ i % 2 = 1) := by
  rw [← BitVec.testBit_toNat, Nat.testBit_eq_decide_div_mod_eq]

theorem toNat_extractLsb' {w : Nat} (v : BitVec w) (lo len : Nat) :
    (v.extractLsb' lo len).toNat = v.toNat / 2 ^ lo % 2 ^ len := by
  rw [BitVec.extractLsb'_toNat, Nat.shiftRight_eq_div_pow]

theorem toNat_append_add {v w : Nat} (x : BitVec v) (y : BitVec w) : (x ++ y).toNat = x.toNat * 2 ^ w + y.toNat := by
  rw [BitVec.toNat_append, ← Nat.shiftLeft_add_eq_or_of_lt y.isLt, Nat.shiftLeft_eq]

/-! ## The fields of packed colours (R93, R94) -/

theorem encColaOpq_toNat (r g : BitVec 5) (b : BitVec 4) :
    (encColaOpq r g b).toNat = 2 ^ 15 + r.toNat * 2 ^ 10 + g.toNat * 2 ^ 5 + b.toNat * 2 := by
  show (0#16 ++ 1#1 ++ r ++ g ++ b ++ 0#1).toNat = _
  simp only [toNat_append_add, BitVec.toNat_ofNat]
  omega

theorem encColaTrn_toNat (a : BitVec 3) (r g : BitVec 4) (b : BitVec 3) :
    (encColaTrn a r g b).toNat = a.toNat * 2 ^ 12 + r.toNat * 2 ^ 8 + g.toNat * 2 ^ 4 + b.toNat * 2 := by
  show (0#16 ++ 0#1 ++ a ++ r ++ g ++ b ++ 0#1).toNat = _
  simp only [toNat_append_add, BitVec.toNat_ofNat]
  omega

theorem encColbOpq_toNat (r g b : BitVec 5) :
    (encColbOpq r g b).toNat = 2 ^ 31 + r.toNat * 2 ^ 26 + g.toNat * 2 ^ 21 + b.toNat * 2 ^ 16 := by
  show (1#1 ++ r ++ g ++ b ++ 0#16).toNat = _
  simp only [toNat_append_add, BitVec.toNat_ofNat]
  omega

theorem encColbTrn_toNat (a : BitVec 3) (r g b : BitVec 4) :
    (encColbTrn a r g b).toNat = a.toNat * 2 ^ 28 + r.toNat * 2 ^ 24 + g.toNat * 2 ^ 20 + b.toNat * 2 ^ 16 := by
  show (0#1 ++ a ++ r ++ g ++ b ++ 0#16).toNat = _
  simp only [toNat_append_add, BitVec.toNat_ofNat]
  omega

/-- A field of a word is a bit vector when it is one as a number. -/
theorem extractLsb'_eq_of_field {w len : Nat} (v : BitVec w) (lo : Nat) (x : BitVec len)
    (h : v.toNat / 2 ^ lo % 2 ^ len = x.toNat) : v.extractLsb' lo len = x :=
  BitVec.eq_of_toNat_eq ((toNat_extractLsb' v lo len).trans h)

theorem decodeColA_encColaOpq (k : Corner) (r g : BitVec 5) (b : BitVec 4) :
    decodeColA k (encColaOpq r g b) = .colaOpq k r g b := by
  have he := encColaOpq_toNat r g b
  have hr := r.isLt
  have hg := g.isLt
  have hb := b.isLt
  have hflag : opaqueA (encColaOpq r g b) = true := by
    rw [opaqueA, getLsbD_eq_decide, he, decide_eq_true_iff]
    omega
  rw [decodeColA, if_pos hflag, extractLsb'_eq_of_field _ 10 r (by omega), extractLsb'_eq_of_field _ 5 g (by omega),
    extractLsb'_eq_of_field _ 1 b (by omega)]

theorem decodeColA_encColaTrn (k : Corner) (a : BitVec 3) (r g : BitVec 4) (b : BitVec 3) :
    decodeColA k (encColaTrn a r g b) = .colaTrn k a r g b := by
  have he := encColaTrn_toNat a r g b
  have ha := a.isLt
  have hr := r.isLt
  have hg := g.isLt
  have hb := b.isLt
  have hflag : ¬opaqueA (encColaTrn a r g b) = true := by
    rw [opaqueA, getLsbD_eq_decide, he, decide_eq_true_iff]
    omega
  rw [decodeColA, if_neg hflag, extractLsb'_eq_of_field _ 12 a (by omega), extractLsb'_eq_of_field _ 8 r (by omega),
    extractLsb'_eq_of_field _ 4 g (by omega), extractLsb'_eq_of_field _ 1 b (by omega)]

/-- The translucent colour B of a variant (R101 item 3). -/
def colbTrnOf : Variant → Corner → BitVec 3 → BitVec 4 → BitVec 4 → BitVec 4 → Instr
  | .pvrtcI => .colbTrnI
  | .pvrtcII => .colbTrnII

theorem decodeColB_eq (k : Corner) (v : Variant) (col : Word32) :
    decodeColB k v col =
      if opaqueB col then .colbOpq k (col.extractLsb' 26 5) (col.extractLsb' 21 5) (col.extractLsb' 16 5)
      else colbTrnOf v k (col.extractLsb' 28 3) (col.extractLsb' 24 4) (col.extractLsb' 20 4) (col.extractLsb' 16 4) := by
  cases v <;> rfl

theorem decodeColB_encColbOpq (k : Corner) (v : Variant) (r g b : BitVec 5) :
    decodeColB k v (encColbOpq r g b) = .colbOpq k r g b := by
  have he := encColbOpq_toNat r g b
  have hr := r.isLt
  have hg := g.isLt
  have hb := b.isLt
  have hflag : opaqueB (encColbOpq r g b) = true := by
    rw [opaqueB, getLsbD_eq_decide, he, decide_eq_true_iff]
    omega
  rw [decodeColB_eq, if_pos hflag, extractLsb'_eq_of_field _ 26 r (by omega), extractLsb'_eq_of_field _ 21 g (by omega),
    extractLsb'_eq_of_field _ 16 b (by omega)]

theorem decodeColB_encColbTrn (k : Corner) (v : Variant) (a : BitVec 3) (r g b : BitVec 4) :
    decodeColB k v (encColbTrn a r g b) = colbTrnOf v k a r g b := by
  have he := encColbTrn_toNat a r g b
  have ha := a.isLt
  have hr := r.isLt
  have hg := g.isLt
  have hb := b.isLt
  have hflag : ¬opaqueB (encColbTrn a r g b) = true := by
    rw [opaqueB, getLsbD_eq_decide, he, decide_eq_true_iff]
    omega
  rw [decodeColB_eq, if_neg hflag, extractLsb'_eq_of_field _ 28 a (by omega),
    extractLsb'_eq_of_field _ 24 r (by omega), extractLsb'_eq_of_field _ 20 g (by omega),
    extractLsb'_eq_of_field _ 16 b (by omega)]

theorem mod2Hv_wellFormed (k : Corner) (m : Word32) : (Instr.mod2Hv k m).wellFormed = true ↔ subFlag m = false := by
  simp [Instr.wellFormed, subFlag]

theorem mod2H_wellFormed (k : Corner) (m : Word32) :
    (Instr.mod2H k m).wellFormed = true ↔ subFlag m = true ∧ axisFlag m = false := by
  simp [Instr.wellFormed, subFlag, axisFlag]

theorem mod2V_wellFormed (k : Corner) (m : Word32) :
    (Instr.mod2V k m).wellFormed = true ↔ subFlag m = true ∧ axisFlag m = true := by
  simp [Instr.wellFormed, subFlag, axisFlag]

/-- Settles O1: each encoding sets the flags its form is selected by and leaves every field at its place. -/
theorem decodeOfEncodeIsSame : Obligations.DecodeOfEncodeIsSame := by
  intro i hi
  cases i with
  | decompI4bpp | decompI2bpp | decompII4bpp | decompII2bpp => rfl
  | idxMorton k | idxLinear k => simp [decode, encode, selVariant]
  | interp4bpp c | interp2bpp c => simp [decode, encode, sel2bpp]
  | colaOpq k r g b => simp [decode, encode, decodeColA_encColaOpq]
  | colaTrn k a r g b => simp [decode, encode, decodeColA_encColaTrn]
  | colbOpq k r g b => simp [decode, encode, decodeColB_encColbOpq]
  | colbTrnI k a r g b => simp [decode, encode, decodeColB_encColbTrn, selVariant, colbTrnOf]
  | colbTrnII k a r g b => simp [decode, encode, decodeColB_encColbTrn, selVariant, colbTrnOf]
  | mod4Std k m | mod4Pt k m | mod2Direct k m => simp [decode, encode, decodeMod, sel2bpp, modeBit]
  | mod2Hv k m =>
    have hsub := (mod2Hv_wellFormed k m).mp hi
    simp [decode, encode, decodeMod, sel2bpp, modeBit, hsub]
  | mod2H k m =>
    obtain ⟨hsub, haxis⟩ := (mod2H_wellFormed k m).mp hi
    simp [decode, encode, decodeMod, sel2bpp, modeBit, hsub, haxis]
  | mod2V k m =>
    obtain ⟨hsub, haxis⟩ := (mod2V_wellFormed k m).mp hi
    simp [decode, encode, decodeMod, sel2bpp, modeBit, hsub, haxis]
  | resolve4bpp sx sy => simp [decode, encode, decodeResolve, sel2bpp]
  | resolveStored sx sy => simp [decode, encode, decodeResolve, sel2bpp]
  | resolveHv sx sy | resolveH sx sy | resolveV sx sy =>
    have hodd : oddParity sx sy = true := by
      simp only [Instr.wellFormed, Bool.and_eq_true] at hi
      exact hi.2
    simp [decode, encode, decodeResolve, sel2bpp, hodd]
  | compose j | composePtI j | composePtII j => simp [decode, encode, decodeCompose, selVariant]

/-! ## The opcode table (R102) -/

/-- The rows of one selection. -/
def rowsOf (g : Group) : List Row := tableRows.filter fun r => r.group == g

/-- Only rows of its own selection can match a slot. -/
theorem filter_covers (f : Fetched) :
    tableRows.filter (fun r => r.covers f) = (rowsOf f.slot.group).filter fun r => r.covers f := by
  rw [rowsOf, List.filter_filter]
  refine List.filter_congr fun r _ => ?_
  cases hg : r.group == f.slot.group <;> simp [Row.covers, hg]

theorem getLsbD_wordOf64_col (w : BitVec 64) (i : Nat) (h : i < 32) :
    (wordOf64 w).col.getLsbD i = w.toNat.testBit (32 + i) := by
  rw [BitVec.testBit_toNat]
  exact (BitVec.getLsbD_extractLsb' 32 32 w i).trans (by simp [h])

theorem getLsbD_wordOf64_mod (w : BitVec 64) (i : Nat) (h : i < 32) :
    (wordOf64 w).mod.getLsbD i = w.toNat.testBit i := by
  rw [BitVec.testBit_toNat]
  exact (BitVec.getLsbD_extractLsb' 0 32 w i).trans (by simp [h])

theorem opaqueA_wordOf64 (w : BitVec 64) : opaqueA (wordOf64 w).col = w.toNat.testBit 47 :=
  getLsbD_wordOf64_col w 15 (by decide)

theorem opaqueB_wordOf64 (w : BitVec 64) : opaqueB (wordOf64 w).col = w.toNat.testBit 63 :=
  getLsbD_wordOf64_col w 31 (by decide)

theorem modeBit_wordOf64 (w : BitVec 64) : modeBit (wordOf64 w).col = w.toNat.testBit 32 :=
  getLsbD_wordOf64_col w 0 (by decide)

theorem subFlag_wordOf64 (w : BitVec 64) : subFlag (wordOf64 w).mod = w.toNat.testBit 0 :=
  getLsbD_wordOf64_mod w 0 (by decide)

theorem axisFlag_wordOf64 (w : BitVec 64) : axisFlag (wordOf64 w).mod = w.toNat.testBit 20 :=
  getLsbD_wordOf64_mod w 20 (by decide)

/-! A mask of the table reads bit 63, 47, 32, 20 or 0, or several of them. -/

theorem and_bit32 (x : Nat) : x &&& 0x100000000 = (x.testBit 32).toNat * 0x100000000 := Nat.and_two_pow x 32

theorem and_bit47 (x : Nat) : x &&& 0x800000000000 = (x.testBit 47).toNat * 0x800000000000 := Nat.and_two_pow x 47

theorem and_bit63 (x : Nat) : x &&& 0x8000000000000000 = (x.testBit 63).toNat * 0x8000000000000000 := Nat.and_two_pow x 63

theorem and_bits32_0 (x : Nat) :
    x &&& 0x100000001 = ((x.testBit 32).toNat * 0x100000000) ||| (x.testBit 0).toNat := by
  have h0 := Nat.and_two_pow x 0
  rw [Nat.pow_zero, Nat.mul_one] at h0
  rw [show (0x100000001 : Nat) = 0x100000000 ||| 1 by decide, Nat.and_or_distrib_left, and_bit32, h0]

theorem and_bits32_20_0 (x : Nat) :
    x &&& 0x100100001 =
      ((x.testBit 32).toNat * 0x100000000) ||| (x.testBit 0).toNat ||| ((x.testBit 20).toNat * 0x100000) := by
  have h20 : x &&& 0x100000 = (x.testBit 20).toNat * 0x100000 := Nat.and_two_pow x 20
  rw [show (0x100100001 : Nat) = 0x100000001 ||| 0x100000 by decide, Nat.and_or_distrib_left, and_bits32_0, h20]

theorem sel_cases (sel : BitVec 2) : sel = 0b00#2 ∨ sel = 0b01#2 ∨ sel = 0b10#2 ∨ sel = 0b11#2 := by
  revert sel
  decide

/-- The rows of `tableRows` that match, for each selection in turn (R102). -/
theorem exactlyOneRow_of_slot (f : Fetched) :
    ((rowsOf f.slot.group).filter fun r => r.covers f).map Row.mnemonic = [(decode f).mnemonic] := by
  obtain ⟨slot, sel, w, tag, code⟩ := f
  cases slot with
  | command =>
    have hrows : rowsOf Slot.command.group = commandRows := rfl
    rw [hrows]
    obtain rfl | rfl | rfl | rfl := sel_cases sel <;>
      simp [commandRows, Row.covers, Cond.holds, Slot.group, decode, decodeCommand, selVariant, sel2bpp, Instr.mnemonic]
  | index k =>
    have hrows : rowsOf (Slot.index k).group = configRows.take 2 := rfl
    rw [hrows]
    obtain rfl | rfl | rfl | rfl := sel_cases sel <;>
      simp [configRows, Row.covers, Cond.holds, Slot.group, decode, selVariant, Instr.mnemonic]
  | interp c =>
    have hrows : rowsOf (Slot.interp c).group = configRows.drop 2 := rfl
    rw [hrows]
    obtain rfl | rfl | rfl | rfl := sel_cases sel <;>
      simp [configRows, Row.covers, Cond.holds, Slot.group, decode, sel2bpp, Instr.mnemonic]
  | colA k =>
    have hrows : rowsOf (Slot.colA k).group = wordRows.take 2 := rfl
    rw [hrows]
    cases h : w.toNat.testBit 47 <;>
      simp [wordRows, Row.covers, Cond.holds, Slot.group, decode, decodeColA, opaqueA_wordOf64, and_bit47, h,
        Instr.mnemonic]
  | colB k =>
    have hrows : rowsOf (Slot.colB k).group = (wordRows.drop 2).take 3 := rfl
    rw [hrows]
    cases h : w.toNat.testBit 63 <;> cases hv : selVariant sel <;>
      simp [wordRows, Row.covers, Cond.holds, Slot.group, decode, decodeColB_eq, colbTrnOf, opaqueB_wordOf64,
        and_bit63, h, hv, Instr.mnemonic]
  | mod k =>
    have hrows : rowsOf (Slot.mod k).group = wordRows.drop 5 := rfl
    rw [hrows]
    cases h2 : sel2bpp sel <;> cases hm : w.toNat.testBit 32 <;> cases h0 : w.toNat.testBit 0 <;>
      cases h20 : w.toNat.testBit 20 <;>
      simp [wordRows, Row.covers, Cond.holds, Slot.group, decode, decodeMod, modeBit_wordOf64, subFlag_wordOf64,
        axisFlag_wordOf64, and_bit32, and_bits32_0, and_bits32_20_0, h2, hm, h0, h20, Instr.mnemonic]
  | resolve sx sy =>
    have hrows : rowsOf (Slot.resolve sx sy).group = texelRows.take 5 := rfl
    rw [hrows]
    cases h : oddParity sx sy <;> cases tag <;> obtain rfl | rfl | rfl | rfl := sel_cases sel <;>
      simp [texelRows, Row.covers, Cond.holds, Slot.group, decode, decodeResolve, sel2bpp, h, Instr.mnemonic]
  | compose j =>
    have hrows : rowsOf (Slot.compose j).group = texelRows.drop 5 := rfl
    rw [hrows]
    by_cases h : code ≤ 10
    · simp [texelRows, Row.covers, Cond.holds, Slot.group, decode, decodeCompose, h, Nat.not_lt.mpr h, Instr.mnemonic]
    · obtain rfl | rfl | rfl | rfl := sel_cases sel <;>
        simp [texelRows, Row.covers, Cond.holds, Slot.group, decode, decodeCompose, selVariant, h, Nat.lt_of_not_le h,
          Instr.mnemonic]

/-- Settles O2: only the rows of the slot's own selection can match, and among these exactly the decoded one does. -/
theorem exactlyOneRowMatches : Obligations.ExactlyOneRowMatches := by
  intro f
  rw [filter_covers]
  exact exactlyOneRow_of_slot f

/-! ## What the decoder can give (R101, R176, R210) -/

theorem decodeMod_wellFormed (k : Corner) (b : Bool) (w : CWord) : (decodeMod k b w).wellFormed = true := by
  unfold decodeMod
  repeat' split
  · exact (mod2V_wellFormed k w.mod).mpr ⟨‹_›, ‹_›⟩
  · exact (mod2H_wellFormed k w.mod).mpr ⟨‹_›, Bool.eq_false_iff.mpr ‹_›⟩
  · exact (mod2Hv_wellFormed k w.mod).mpr (Bool.eq_false_iff.mpr ‹_›)
  all_goals rfl

/-- Settles O3: the flags the decoder looked at are those the form asks for, and the parity it looked at that of the
averaged forms. -/
theorem decodedIsWellFormed : Obligations.DecodedIsWellFormed := by
  rintro ⟨slot, sel, w, tag, code⟩ hpos
  cases slot with
  | command =>
    simp only [decode, decodeCommand]
    cases selVariant sel <;> cases sel2bpp sel <;> rfl
  | index k =>
    simp only [decode]
    cases selVariant sel <;> rfl
  | interp c =>
    simp only [decode]
    cases sel2bpp sel <;> rfl
  | colA k =>
    rcases decodeColA_cases k (wordOf64 w).col with ⟨-, h⟩ | ⟨-, h⟩ <;> simp [decode, h, Instr.wellFormed]
  | colB k =>
    simp only [decode, decodeColB_eq]
    split
    · rfl
    · cases selVariant sel <;> rfl
  | mod k => exact decodeMod_wellFormed k (sel2bpp sel) (wordOf64 w)
  | resolve sx sy =>
    simp only at hpos
    cases h2 : sel2bpp sel with
    | false =>
      rw [h2] at hpos
      simpa [decode, decodeResolve, h2, Instr.wellFormed, inTile4] using hpos
    | true =>
      rw [h2] at hpos
      cases hodd : oddParity sx sy <;> cases tag <;>
        simpa [decode, decodeResolve, h2, hodd, Instr.wellFormed, inTile2] using hpos
  | compose j =>
    simp only at hpos
    simp only [decode, decodeCompose]
    split
    · simpa [Instr.wellFormed, tileEntry] using hpos
    · cases selVariant sel <;> simpa [Instr.wellFormed, tileEntry] using hpos

/-! ## What the decoded operations keep of a word (R99) -/

/-- Two words with the same field agree on its bits. -/
theorem getLsbD_eq_of_extractLsb'_eq {w : Nat} {v v' : BitVec w} {lo len : Nat} (h : v.extractLsb' lo len = v'.extractLsb' lo len)
    (i : Nat) (h0 : lo ≤ i) (h1 : i < lo + len) : v.getLsbD i = v'.getLsbD i := by
  have hb := congrArg (BitVec.getLsbD · (i - lo)) h
  simpa [BitVec.getLsbD_extractLsb', show i - lo < len by omega, Nat.add_sub_cancel' h0] using hb

/-- Colour A keeps bits 15:1. -/
theorem getLsbD_eq_of_decodeColA_eq {k : Corner} {col col' : Word32} (h : decodeColA k col = decodeColA k col') (i : Nat)
    (h0 : 1 ≤ i) (h1 : i < 16) : col.getLsbD i = col'.getLsbD i := by
  unfold decodeColA at h
  cases ho : opaqueA col <;> cases ho' : opaqueA col' <;> simp [ho, ho'] at h
  · obtain ⟨ha, hr, hg, hb⟩ := h
    have key : i = 15 ∨ i < 4 ∨ (4 ≤ i ∧ i < 8) ∨ (8 ≤ i ∧ i < 12) ∨ (12 ≤ i ∧ i < 15) := by omega
    rcases key with rfl | hi | hi | hi | hi
    · exact ho.trans ho'.symm
    · exact getLsbD_eq_of_extractLsb'_eq hb i (by omega) (by omega)
    · exact getLsbD_eq_of_extractLsb'_eq hg i (by omega) (by omega)
    · exact getLsbD_eq_of_extractLsb'_eq hr i (by omega) (by omega)
    · exact getLsbD_eq_of_extractLsb'_eq ha i (by omega) (by omega)
  · obtain ⟨hr, hg, hb⟩ := h
    have key : i = 15 ∨ i < 5 ∨ (5 ≤ i ∧ i < 10) ∨ (10 ≤ i ∧ i < 15) := by omega
    rcases key with rfl | hi | hi | hi
    · exact ho.trans ho'.symm
    · exact getLsbD_eq_of_extractLsb'_eq hb i (by omega) (by omega)
    · exact getLsbD_eq_of_extractLsb'_eq hg i (by omega) (by omega)
    · exact getLsbD_eq_of_extractLsb'_eq hr i (by omega) (by omega)

theorem colbTrnOf_inj {v : Variant} {k : Corner} {a a' : BitVec 3} {r g b r' g' b' : BitVec 4}
    (h : colbTrnOf v k a r g b = colbTrnOf v k a' r' g' b') : a = a' ∧ r = r' ∧ g = g' ∧ b = b' := by
  cases v <;> simpa [colbTrnOf] using h

theorem colbTrnOf_ne_colbOpq (v : Variant) (k : Corner) (a : BitVec 3) (r g b : BitVec 4) (r' g' b' : BitVec 5) :
    colbTrnOf v k a r g b ≠ .colbOpq k r' g' b' := by
  cases v <;> simp [colbTrnOf]

/-- Colour B keeps bits 31:16. -/
theorem getLsbD_eq_of_decodeColB_eq {k : Corner} {v : Variant} {col col' : Word32}
    (h : decodeColB k v col = decodeColB k v col') (i : Nat) (h0 : 16 ≤ i) (h1 : i < 32) :
    col.getLsbD i = col'.getLsbD i := by
  rw [decodeColB_eq, decodeColB_eq] at h
  cases ho : opaqueB col <;> cases ho' : opaqueB col' <;> simp [ho, ho'] at h
  · obtain ⟨ha, hr, hg, hb⟩ := colbTrnOf_inj h
    have key : i = 31 ∨ i < 20 ∨ (20 ≤ i ∧ i < 24) ∨ (24 ≤ i ∧ i < 28) ∨ (28 ≤ i ∧ i < 31) := by omega
    rcases key with rfl | hi | hi | hi | hi
    · exact ho.trans ho'.symm
    · exact getLsbD_eq_of_extractLsb'_eq hb i (by omega) (by omega)
    · exact getLsbD_eq_of_extractLsb'_eq hg i (by omega) (by omega)
    · exact getLsbD_eq_of_extractLsb'_eq hr i (by omega) (by omega)
    · exact getLsbD_eq_of_extractLsb'_eq ha i (by omega) (by omega)
  · exact absurd h (colbTrnOf_ne_colbOpq _ _ _ _ _ _ _ _ _)
  · exact absurd h.symm (colbTrnOf_ne_colbOpq _ _ _ _ _ _ _ _ _)
  · obtain ⟨hr, hg, hb⟩ := h
    have key : i = 31 ∨ i < 21 ∨ (21 ≤ i ∧ i < 26) ∨ (26 ≤ i ∧ i < 31) := by omega
    rcases key with rfl | hi | hi | hi
    · exact ho.trans ho'.symm
    · exact getLsbD_eq_of_extractLsb'_eq hb i (by omega) (by omega)
    · exact getLsbD_eq_of_extractLsb'_eq hg i (by omega) (by omega)
    · exact getLsbD_eq_of_extractLsb'_eq hr i (by omega) (by omega)

/-- The mode bit and the modulation field that a modulation operation was decoded from. -/
def Instr.modSource : Instr → Option (Bool × Word32)
  | .mod4Std _ m | .mod2Direct _ m => some (false, m)
  | .mod4Pt _ m | .mod2Hv _ m | .mod2H _ m | .mod2V _ m => some (true, m)
  | _ => none

theorem modSource_decodeMod (k : Corner) (b : Bool) (w : CWord) :
    (decodeMod k b w).modSource = some (modeBit w.col, w.mod) := by
  unfold decodeMod
  repeat' split
  all_goals simp_all [Instr.modSource]

/-- Settles O4: colour A keeps bits 15:1 of `col`, colour B bits 31:16, and the modulation operation bit 0 and `mod`. -/
theorem noWordBitIgnored : Obligations.NoWordBitIgnored := by
  rintro v b k ⟨m, col⟩ ⟨m', col'⟩ hA hB hM
  have hsource := congrArg Instr.modSource hM
  rw [modSource_decodeMod, modSource_decodeMod] at hsource
  obtain ⟨hmode, rfl⟩ : modeBit col = modeBit col' ∧ m = m' := by simpa using hsource
  have hcol : col = col' := by
    refine BitVec.eq_of_getLsbD_eq fun i hi => ?_
    have key : i = 0 ∨ (1 ≤ i ∧ i < 16) ∨ (16 ≤ i ∧ i < 32) := by omega
    rcases key with rfl | ⟨h0, h1⟩ | ⟨h0, h1⟩
    · exact hmode
    · exact getLsbD_eq_of_decodeColA_eq hA i h0 h1
    · exact getLsbD_eq_of_decodeColB_eq hB i h0 h1
  rw [hcol]

/-! ## Fields at their places (R93, R94) -/

theorem getLsbD_eq_field {w : Nat} (v : BitVec w) (i : Nat) : v.getLsbD i = decide (field v i i = 1) := by
  rw [getLsbD_eq_decide, field, Nat.add_sub_cancel_left, Nat.pow_one]

/-- Settles O5: the opacity flag selects the form, and each field is read at its place. -/
theorem colourAFieldPlaces : Obligations.ColourAFieldPlaces := by
  intro k col
  constructor
  · intro h
    have hflag : opaqueA col = true := by rw [opaqueA, getLsbD_eq_field, h]; rfl
    exact ⟨_, _, _, if_pos hflag, toNat_extractLsb' col 10 5, toNat_extractLsb' col 5 5, toNat_extractLsb' col 1 4⟩
  · intro h
    have hflag : ¬opaqueA col = true := by rw [opaqueA, getLsbD_eq_field, h]; decide
    exact ⟨_, _, _, _, if_neg hflag, toNat_extractLsb' col 12 3, toNat_extractLsb' col 8 4, toNat_extractLsb' col 4 4,
      toNat_extractLsb' col 1 3⟩

/-- Settles O6: the opacity flag selects the form, the variant the translucent one, and each field is read at its place. -/
theorem colourBFieldPlaces : Obligations.ColourBFieldPlaces := by
  intro k col
  constructor
  · intro v h
    have hflag : opaqueB col = true := by rw [opaqueB, getLsbD_eq_field, h]; rfl
    exact ⟨_, _, _, (decodeColB_eq k v col).trans (if_pos hflag), toNat_extractLsb' col 26 5, toNat_extractLsb' col 21 5,
      toNat_extractLsb' col 16 5⟩
  · intro h
    have hflag : ¬opaqueB col = true := by rw [opaqueB, getLsbD_eq_field, h]; decide
    exact ⟨_, _, _, _, if_neg hflag, if_neg hflag, toNat_extractLsb' col 28 3, toNat_extractLsb' col 24 4,
      toNat_extractLsb' col 20 4, toNat_extractLsb' col 16 4⟩

/-- Settles O7: the decoder evaluates to each of the named operations. -/
theorem writtenWordsDecode : Obligations.WrittenWordsDecode := by
  unfold Obligations.WrittenWordsDecode
  decide

end Sys2Proof
end

section
/-! The machine's step: whose move it is, what the host's moves do, and that the invariant and the register ranges are kept
whoever moves. -/

namespace Sys2Proof.Machine

/-! ## Whose move it is (R302, R307, R323, R324) -/

/-- A core that is not busy, with no move of the host to come, stays as it is. -/
theorem step_resting {s : State} (hb : s.busy = false) (hq : s.hostQ = []) : step s = .next s := by
  simp [step, machineStep, hq, hb]

/-- A busy core goes on, unless the host's next move is one it may make at any time. -/
theorem step_busy {s : State} (hb : s.busy = true) (hq : ∀ a rest, s.hostQ = a :: rest → a.anyTime = false) :
    step s = busyStep s := by
  cases h : s.hostQ with
  | nil => simp [step, machineStep, h, hb]
  | cons a rest => simp [step, machineStep, h, hb, hq a rest h]

/-- The host makes its next move when it may. -/
theorem step_host {s : State} {a : HostAction} {rest : List HostAction} (hq : s.hostQ = a :: rest)
    (ha : s.busy = true → a.anyTime = true) : step s = hostMove a { s with hostQ := rest } := by
  cases hb : s.busy with
  | false => simp [step, machineStep, hq, hb]
  | true => simp [step, machineStep, hq, hb, ha hb]

/-- Every step is one of the three. -/
theorem step_cases (s : State) :
    (s.busy = true ∧ step s = busyStep s) ∨ step s = .next s ∨
      ∃ a rest, (s.busy = true → a.anyTime = true) ∧ step s = hostMove a { s with hostQ := rest } := by
  by_cases hw : ∀ a rest, s.hostQ = a :: rest → s.busy = true ∧ a.anyTime = false
  · cases hb : s.busy with
    | true => exact .inl ⟨rfl, step_busy hb fun a rest h => (hw a rest h).2⟩
    | false =>
      refine .inr (.inl (step_resting hb ?_))
      cases hq : s.hostQ with
      | nil => rfl
      | cons a rest => exact absurd (hw a rest hq).1 (by simp [hb])
  · simp only [not_forall] at hw
    obtain ⟨a, rest, hq, hn⟩ := hw
    have ha : s.busy = true → a.anyTime = true := fun hb => by simpa [hb] using hn
    exact .inr (.inr ⟨a, rest, ha, step_host hq ha⟩)

/-! ## The phases of a resting and of a busy core -/

theorem State.busy_eq_false_iff (s : State) : s.busy = false ↔ s.ph = .idle ∨ s.ph = .done ∨ s.ph = .failed := by
  unfold State.busy State.status
  cases s.ph <;> decide

theorem State.admittedWork_of_resting {s : State} (hb : s.busy = false) : s.ph.admittedWork = false := by
  rcases (s.busy_eq_false_iff).mp hb with h | h | h <;> rw [h] <;> rfl

theorem State.Inv.tmp_of_resting {s : State} (h : s.Inv) (hb : s.busy = false) : s.tmp = none := by
  refine h.tmpGone fun hn => ?_
  rcases (s.busy_eq_false_iff).mp hb with h | h | h <;> rw [h] at hn <;> exact absurd hn.1 (by decide)

/-! ## START and the command it runs (R322, R250) -/

/-- The record's selector decodes to the command of its variant and bit depth (R90). -/
theorem decode_fetchCommand (s : State) : decode s.fetchCommand = commandOf s.cmd.variant s.cmd.is2bpp := by
  simp only [decode, State.fetchCommand, decodeCommand, selVariant_cmdSel, sel2bpp_cmdSel]
  cases s.cmd.variant <;> cases s.cmd.is2bpp <;> rfl

theorem startStep_command {s : State} (hb : s.busy = false) (hg : s.granularity = .command) :
    startStep s = decomp (s.start s.cmd.variant s.cmd.is2bpp) := by
  rw [startStep, hg]
  simp only
  rw [decode_fetchCommand, exec_command _ _ _ hb]

theorem startStep_split {s : State} (hg : s.granularity ≠ .command) :
    startStep s = .next (s.start s.cmd.variant s.cmd.is2bpp) := by
  unfold startStep
  cases h : s.granularity with
  | command => exact absurd h hg
  | phase | operation => rfl

/-- The three ways a command can go (R291, R294, R250): refused by CHECK, refused by ALLOC, or walked to its end. -/
theorem decomp_cases (s : State) :
    (checkCommand (configure s.cfg) ≠ .none ∧
        decomp s = .next ((s.setCfg (checkedCfg s.cfg)).takeFault (checkCommand (configure s.cfg)))) ∨
      (checkCommand (configure s.cfg) = .none ∧ (checkedCfg s.cfg).pad = true ∧
        (s.setCfg (checkedCfg s.cfg)).drawAlloc.1 = false ∧
        decomp s = .next ((s.setCfg (checkedCfg s.cfg)).drawAlloc.2.takeFault .alloc)) ∨
      (checkCommand (configure s.cfg) = .none ∧
        ((checkedCfg s.cfg).pad = true → (s.setCfg (checkedCfg s.cfg)).drawAlloc.1 = true)) := by
  by_cases hc : checkCommand (configure s.cfg) = .none
  · by_cases hd : (checkedCfg s.cfg).pad = true ∧ (s.setCfg (checkedCfg s.cfg)).drawAlloc.1 = false
    · exact .inr (.inl ⟨hc, hd.1, hd.2, decomp_allocFailed s hc hd.1 hd.2⟩)
    · exact .inr (.inr ⟨hc, fun hp => by simpa [hp] using hd⟩)
  · exact .inl ⟨hc, decomp_refused s hc⟩

/-- A command that begins in an invariant state goes on to its end, in an invariant state (R295). -/
theorem State.Inv.decomp {s : State} (h : s.Inv) (hp : s.ph = .check) : ∃ t, decomp s = .next t ∧ t.Inv := by
  have htmp : s.tmp = none := h.tmpGone (by rw [hp]; simp [Phase.afterAlloc])
  rcases decomp_cases s with ⟨-, ht⟩ | ⟨-, -, -, ht⟩ | ⟨hc, hd⟩
  · exact ⟨_, ht, .rest h.mem rfl (decomp_sized ht h.sized) rfl⟩
  · refine ⟨_, ht, .rest ?_ rfl (decomp_sized ht h.sized) rfl⟩
    simpa using h.mem
  · obtain ⟨t, ht, he, hwf, -⟩ := decomp_done s hc h.mem hd
    refine ⟨t, ht, .rest hwf ?_ (decomp_sized ht h.sized) ?_⟩
    · rw [he]
      simp [htmp]
    · rw [he]
      rfl

/-- START on a resting core gives a core in CHECK (R322). -/
theorem State.Inv.start {s : State} (h : s.Inv) (hb : s.busy = false) (v : Variant) (b : Bool) : (s.start v b).Inv :=
  .rest h.mem (h.tmp_of_resting hb) (h.sized.congr rfl rfl rfl rfl rfl) rfl

/-! ## The host's moves (R33, R80, R320, R326) -/

theorem State.reset_sized : State.reset.Sized :=
  ⟨List.length_replicate, List.length_replicate, List.length_replicate, List.length_replicate, List.length_replicate⟩

/-- The invariant says nothing of the record, of `STRAT` and of the moves to come. -/
theorem State.Inv.congr {s t : State} (h : s.Inv) (ht : t = { s with cmd := t.cmd, strat := t.strat, hostQ := t.hostQ }) :
    t.Inv := by
  rw [ht]
  exact ⟨h.mem, h.tmpWf, h.sized.congr rfl rfl rfl rfl rfl, h.config, h.padded, h.tmpSize, h.tmpGone, h.walker, h.blocks,
    h.indices⟩

theorem State.Inv.resetCore {s : State} (h : s.Inv) : s.resetCore.Inv :=
  .rest h.mem rfl (State.reset_sized.congr rfl rfl rfl rfl rfl) rfl

/-- Every move the host may make goes on, to an invariant state. -/
theorem State.Inv.hostMove {s : State} (h : s.Inv) (a : HostAction) (ha : s.busy = true → a.anyTime = true) :
    ∃ t, hostMove a s = .next t ∧ t.Inv := by
  have resting : a.anyTime = false → s.busy = false := fun hn => by
    cases hb : s.busy with
    | false => rfl
    | true => rw [ha hb] at hn; cases hn
  cases a with
  | setVariant | setIs2bpp | setWidth | setHeight | supplyIn | supplyOut | selectStrat => exact ⟨_, rfl, h.congr rfl⟩
  | storeByte addr v =>
    have hb := resting rfl
    exact ⟨_, rfl, .rest (Memory.wf_write _ _ _ h.mem) (h.tmp_of_resting hb) (h.sized.congr rfl rfl rfl rfl rfl)
      (State.admittedWork_of_resting hb)⟩
  | start =>
    have hb := resting rfl
    by_cases hg : s.granularity = .command
    · obtain ⟨t, ht, hinv⟩ := (h.start hb s.cmd.variant s.cmd.is2bpp).decomp rfl
      exact ⟨t, (startStep_command hb hg).trans ht, hinv⟩
    · exact ⟨_, startStep_split hg, h.start hb _ _⟩
  | reset => exact ⟨_, rfl, h.resetCore⟩

/-! ## One operation of a busy core -/

/-- The selections of R258's order: an index mapping in FETCH, and in UNPACK, INTERP and COMPOSE an operation that works on
working registers alone. -/
theorem State.nextSlot_cases {s : State} {sl : Slot} (h : s.nextSlot = some sl) :
    (s.ph = .fetch ∧ 1 ≤ s.seq ∧ s.seq ≤ 4 ∧ sl = .index (cornerAt (s.seq - 1))) ∨
      ((s.ph = .unpack ∨ s.ph = .interp ∨ s.ph = .compose) ∧ (decode (s.fetchSlot sl)).inTile = true) := by
  have inTile : ∀ sl, sl ≠ .command → (∀ k, sl ≠ .index k) → (decode (s.fetchSlot sl)).inTile = true := fun sl =>
    decode_inTile (s.fetchSlot sl)
  unfold State.nextSlot at h
  cases hp : s.ph <;> simp only [hp] at h <;> try cases h
  case fetch =>
    split at h
    · cases h
      exact .inl ⟨rfl, by omega, by omega, rfl⟩
    · cases h
  all_goals
    refine .inr ⟨by simp, inTile sl ?_ ?_⟩ <;> (repeat' split at h) <;> cases h <;> simp

/-- No operation is due in FETCH before the index mappings and after them. -/
theorem State.seq_of_nextSlot_none {s : State} (hp : s.ph = .fetch) (h : s.nextSlot = none) : s.seq = 0 ∨ 5 ≤ s.seq := by
  simp only [State.nextSlot, hp] at h
  split at h
  · cases h
  · omega

theorem operationStep_of_none {s : State} (h : s.nextSlot = none) : operationStep s = walkerStep s := by
  rw [operationStep, State.nextOp, h]
  rfl

theorem State.Sized.clearGrids {s : State} (h : s.Sized) : s.clearGrids.Sized :=
  ⟨List.length_replicate, List.length_replicate, h.ua, h.ub, h.tile⟩

/-- A later phase of the tile is entered with nothing changed but the phase. -/
theorem State.Inv.enter {s : State} (h : s.Inv) (hp : s.ph = .unpack ∨ s.ph = .interp ∨ s.ph = .compose) (p : Phase)
    (hw : p.tileWork = true) (hf : p ≠ .fetch) : (s.enter p).Inv := by
  have htile : s.ph.tileWork = true := by rcases hp with h | h | h <;> rw [h] <;> rfl
  have hnf : s.ph ≠ .fetch := by rcases hp with h | h | h <;> rw [h] <;> simp
  exact h.tileStep htile (h.blocks htile (.inl hnf)) rfl (h.sized.congr rfl rfl rfl rfl rfl) hw fun h => absurd h hf

/-- The walker's own work between two operations. -/
theorem State.Inv.walkerStep {s : State} (h : s.Inv) (hs : s.nextSlot = none) : ∃ t, walkerStep s = .next t ∧ t.Inv := by
  unfold Machine.walkerStep
  cases hp : s.ph <;> simp only
  case fetch =>
    split
    · exact ⟨_, rfl, h.beginTile hp ‹_›⟩
    · exact h.loadWords hp ((State.seq_of_nextSlot_none hp hs).resolve_left ‹_›)
  case unpack =>
    split
    · exact ⟨_, rfl, h.work (.inl hp) rfl h.sized.clearGrids⟩
    · exact ⟨_, rfl, h.enter (.inl hp) _ rfl (by simp)⟩
  case interp => exact ⟨_, rfl, h.enter (.inr (.inl hp)) _ rfl (by simp)⟩
  case compose => exact ⟨_, rfl, h.enter (.inr (.inr hp)) _ rfl (by simp)⟩
  all_goals exact h.phaseStep

/-- One operation, or one piece of the walker's work. -/
theorem State.Inv.operationStep {s : State} (h : s.Inv) : ∃ t, operationStep s = .next t ∧ t.Inv := by
  cases hs : s.nextSlot with
  | none =>
    rw [operationStep_of_none hs]
    exact h.walkerStep hs
  | some sl =>
    rcases State.nextSlot_cases hs with ⟨hp, h1, h4, rfl⟩ | ⟨hp, hi⟩
    · have hw := h.walkable (by rw [hp]; rfl)
      obtain ⟨hx, hy⟩ := h.blocks (by rw [hp]; rfl) (.inr h1) (cornerAt (s.seq - 1))
      exact ⟨_, operationStep_exec hs (exec_index s _ hw.order),
        h.setIx hp (s.seq - 1) _ (by omega) (by omega) (hw.index_lt _ hx hy)⟩
    · obtain ⟨t, ht, he, hz⟩ := exec_work _ s h.sized hi
      exact ⟨_, operationStep_exec hs ht, h.work hp he hz⟩

theorem State.Inv.busyStep {s : State} (h : s.Inv) : ∃ t, busyStep s = .next t ∧ t.Inv := by
  unfold Machine.busyStep
  cases s.granularity with
  | operation => exact h.operationStep
  | command | phase => exact h.phaseStep

/-! ## The invariant along a step -/

/-- From an invariant state every step goes on, to an invariant state. -/
theorem State.Inv.step {s : State} (h : s.Inv) : ∃ t, step s = .next t ∧ t.Inv := by
  rcases step_cases s with ⟨-, e⟩ | e | ⟨a, rest, ha, e⟩ <;> rw [e]
  · exact h.busyStep
  · exact ⟨s, rfl, h⟩
  · exact State.Inv.hostMove (s := { s with hostQ := rest }) (h.congr rfl) a ha

/-- Settles O56: whoever moves, the one next state meets the invariant. -/
theorem stepKeepsInvariant : Obligations.StepKeepsInvariant := by
  intro s t h hst
  obtain ⟨u, hu, hinv⟩ := h.step
  rw [hu] at hst
  cases hst
  exact hinv

/-- Settles O57: whoever moves, there is a next state. -/
theorem invariantStatesNeverStop : Obligations.InvariantStatesNeverStop := fun _ h =>
  let ⟨t, ht, _⟩ := h.step
  ⟨t, ht⟩

end Sys2Proof.Machine
end

section
/-! What the pieces of a command leave alone: the frames of the phases and of the walker's work, and with them the register
ranges along a step. -/

namespace Sys2Proof.Machine

/-! ## Frames -/

theorem checkPhase_frame (s : State) :
    ∃ c bx bY f r m p, checkPhase s =
      { s with cfg := c, bX := bx, bY := bY, fault := f, result := r, tmp := m, ph := p, seq := 0 } := by
  unfold checkPhase
  simp only
  split
  · split <;> exact ⟨_, _, _, _, _, _, _, rfl⟩
  · exact ⟨_, _, _, _, _, _, _, rfl⟩

theorem allocPhase_frame (s : State) :
    ∃ bx bY f r m p g d, allocPhase s =
      { s with bX := bx, bY := bY, fault := f, result := r, tmp := m, ph := p, seq := 0, allocGiven := g, draws := d } := by
  unfold allocPhase
  simp only
  rw [s.drawAlloc_eq]
  split <;> exact ⟨_, _, _, _, _, _, _, _, rfl⟩

theorem afterScatter_frame (s : State) :
    ∃ bx bY f r p, s.afterScatter = { s with bX := bx, bY := bY, fault := f, result := r, ph := p, seq := 0 } := by
  unfold State.afterScatter State.nextTile
  split
  · split <;> exact ⟨_, _, _, _, _, rfl⟩
  · split <;> exact ⟨_, _, _, _, _, rfl⟩

theorem advance_frame (s : State) : ∃ p n, s.advance = { s with ph := p, seq := n } := by
  unfold State.advance
  split
  · split <;> exact ⟨_, _, rfl⟩
  · split <;> exact ⟨_, _, rfl⟩
  · split <;> exact ⟨_, _, rfl⟩
  · exact ⟨_, _, rfl⟩

theorem loadWords_next {s t : State} (h : loadWords s = .next t) :
    t = (s.setWords (s.ix.map s.readWord)).enter .unpack := by
  unfold loadWords at h
  split at h
  · cases h
    rfl
  · cases h

theorem State.storeOnly_copyByte (s : State) (y x i : Nat) : s.StoreOnly (s.copyByte y x i) := by
  unfold State.copyByte
  split
  · exact s.storeOnly_putByte _ _ _
  · exact .refl s

/-- A copy-back that goes on stores, and does nothing else. -/
theorem copyBack_store {s t : State} (h : copyBack s = .next t) : s.StoreOnly t := by
  unfold copyBack at h
  split at h
  · cases h
    have hloop := iter_keeps (fun u => s.StoreOnly u) s.cfg.height.toNat
      (fun y => iter s.cfg.width.toNat fun x => iter 4 fun i t => State.copyByte t y x i) s (.refl s)
      fun y u _ hu => iter_keeps (fun u => s.StoreOnly u) _ _ u hu
        fun x u _ hu => iter_keeps (fun u => s.StoreOnly u) _ _ u hu
          fun i u _ hu => hu.trans (u.storeOnly_copyByte y x i)
    exact hloop.trans rfl
  · cases h

/-- What every piece of a command keeps, the command keeps. -/
theorem decomp_keeps (P : State → Prop) (hcheck : ∀ s, P s → P (checkPhase s)) (halloc : ∀ s, P s → P (allocPhase s))
    (htile : ∀ bx bY s t, doTile bx bY s = .next t → P s → P t) (hend : ∀ s t, endCommand s = .next t → P s → P t)
    {s t : State} (h : decomp s = .next t) (h0 : P s) : P t := by
  have h1 : P (if (checkPhase s).cfg.pad then allocPhase (checkPhase s) else checkPhase s) := by
    split
    · exact halloc _ (hcheck s h0)
    · exact hcheck s h0
  unfold decomp at h
  simp only at h
  split at h
  · cases h
    exact hcheck s h0
  · generalize (if (checkPhase s).cfg.pad then allocPhase (checkPhase s) else checkPhase s) = v at h h1
    split at h
    · cases h
      exact h1
    · obtain ⟨u, hu, ht⟩ := (andThen_eq_next _ _ _).mp h
      exact hend u t ht (walk_keeps P htile hu h1)

/-! ## The register ranges (R126, R152, R196) -/

theorem State.Ranges.checkPhase {s : State} (h : s.Ranges) : (checkPhase s).Ranges := by
  obtain ⟨c, bx, bY, f, r, m, p, e⟩ := checkPhase_frame s
  rw [e]
  exact h.congr rfl rfl rfl rfl rfl

theorem State.Ranges.allocPhase {s : State} (h : s.Ranges) : (allocPhase s).Ranges := by
  obtain ⟨bx, bY, f, r, m, p, g, d, e⟩ := allocPhase_frame s
  rw [e]
  exact h.congr rfl rfl rfl rfl rfl

theorem State.Ranges.afterScatter {s : State} (h : s.Ranges) : s.afterScatter.Ranges := by
  obtain ⟨bx, bY, f, r, p, e⟩ := afterScatter_frame s
  rw [e]
  exact h.congr rfl rfl rfl rfl rfl

theorem State.Ranges.advance {s : State} (h : s.Ranges) : s.advance.Ranges := by
  obtain ⟨p, n, e⟩ := advance_frame s
  rw [e]
  exact h.congr rfl rfl rfl rfl rfl

theorem State.Ranges.decomp {s t : State} (h : s.Ranges) (ht : decomp s = .next t) : t.Ranges := by
  refine decomp_keeps State.Ranges (fun _ h => h.checkPhase) (fun _ h => h.allocPhase) (fun _ _ _ _ => doTile_ranges)
    (fun u v hv hu => ?_) ht h
  rw [endCommand_only hv]
  exact hu.congr rfl rfl rfl rfl rfl

/-- A row of R258's table keeps the ranges. -/
theorem State.Ranges.phaseStep {s t : State} (h : s.Ranges) (ht : phaseStep s = .next t) : t.Ranges := by
  unfold Machine.phaseStep at ht
  cases hp : s.ph <;> simp only [hp] at ht
  case idle | done | failed =>
    cases ht
    exact h
  case check =>
    cases ht
    exact h.checkPhase
  case alloc =>
    cases ht
    exact h.allocPhase
  case fetch =>
    rw [fetchPhase_next ht]
    exact h.fetched
  case unpack =>
    cases ht
    exact h.unpackPhase
  case interp =>
    cases ht
    exact h.interpPhase
  case compose =>
    cases ht
    exact h.composePhase
  case scatter =>
    obtain ⟨u, hu, hv⟩ := (andThen_eq_next _ _ _).mp ht
    cases hv
    exact ((scatterTile_store hu).ranges h).afterScatter
  case copyback =>
    obtain ⟨u, hu, hv⟩ := (andThen_eq_next _ _ _).mp ht
    cases hv
    exact ((copyBack_store hu).ranges h).congr rfl rfl rfl rfl rfl

/-- The index mapping writes an index, on any grid. -/
theorem exec_index_next {s t : State} {k : Corner} (h : exec (decode (s.fetchSlot (.index k))) s = .next t) :
    ∃ n, t = s.setIx k n := by
  simp only [decode, State.fetchSlot, selVariant_cmdSel] at h
  cases hv : s.cfg.variant <;> simp only [hv, exec] at h
  · unfold execIdxMorton at h
    split at h
    · cases h
      exact ⟨_, rfl⟩
    · cases h
  · cases h
    exact ⟨_, rfl⟩

theorem operationStep_of_some {s : State} {sl : Slot} (h : s.nextSlot = some sl) :
    operationStep s = andThen (exec (decode (s.fetchSlot sl)) s) fun t => .next t.advance := by
  rw [operationStep, State.nextOp, h]
  rfl

/-- The walker's own work keeps the ranges: it empties grids and buffers, or takes a row of the table. -/
theorem State.Ranges.walkerStep {s t : State} (h : s.Ranges) (ht : walkerStep s = .next t) : t.Ranges := by
  have hempty : s.clearGrids.Ranges := ⟨h.ca, h.cb, fun _ hc => absurd hc (none_replicate _ _), h.ua, h.ub⟩
  have hbegin : s.beginTile.Ranges :=
    ⟨h.ca, h.cb, h.mv, fun _ hp => absurd hp (none_replicate _ _), fun _ hp => absurd hp (none_replicate _ _)⟩
  unfold Machine.walkerStep at ht
  cases hp : s.ph <;> simp only [hp] at ht
  case fetch =>
    split at ht
    · cases ht
      exact hbegin.advance
    · rw [loadWords_next ht]
      exact h.congr rfl rfl rfl rfl rfl
  case unpack =>
    split at ht <;> cases ht
    · exact hempty.advance
    · exact h.congr rfl rfl rfl rfl rfl
  case interp | compose =>
    cases ht
    exact h.congr rfl rfl rfl rfl rfl
  all_goals exact h.phaseStep ht

theorem State.Ranges.operationStep {s t : State} (h : s.Ranges) (ht : operationStep s = .next t) : t.Ranges := by
  cases hs : s.nextSlot with
  | none =>
    rw [operationStep_of_none hs] at ht
    exact h.walkerStep ht
  | some sl =>
    rw [operationStep_of_some hs] at ht
    obtain ⟨u, hu, hv⟩ := (andThen_eq_next _ _ _).mp ht
    cases hv
    rcases State.nextSlot_cases hs with ⟨-, -, -, rfl⟩ | ⟨-, hi⟩
    · obtain ⟨n, rfl⟩ := exec_index_next hu
      exact State.Ranges.advance (h.congr rfl rfl rfl rfl rfl)
    · obtain ⟨v, hv, hr⟩ := exec_ranges _ s h hi
      rw [hu] at hv
      cases hv
      exact hr.advance

theorem State.Ranges.busyStep {s t : State} (h : s.Ranges) (ht : busyStep s = .next t) : t.Ranges := by
  unfold Machine.busyStep at ht
  cases hg : s.granularity <;> simp only [hg] at ht
  case operation => exact h.operationStep ht
  all_goals exact h.phaseStep ht

/-- The zeros of log entry 1 are in range. -/
theorem State.reset_ranges : State.reset.Ranges := by
  have hzero : ∀ k, ((corners (⟨0, 0, 0, 0⟩ : Pixel32)).get k).onScale := by
    intro k
    cases k <;> (refine ⟨?_, ?_, ?_, ?_⟩ <;> decide)
  exact ⟨hzero, hzero, fun _ hc => absurd hc (none_replicate _ _), fun _ hp => absurd hp (none_replicate _ _),
    fun _ hp => absurd hp (none_replicate _ _)⟩

theorem State.Ranges.hostMove {s t : State} (h : s.Ranges) (a : HostAction) (ha : s.busy = true → a.anyTime = true)
    (ht : hostMove a s = .next t) : t.Ranges := by
  cases a with
  | start =>
    have hb : s.busy = false := by
      cases hb : s.busy with
      | false => rfl
      | true => exact absurd (ha hb) (by decide)
    have hs : (s.start s.cmd.variant s.cmd.is2bpp).Ranges := h.congr rfl rfl rfl rfl rfl
    have ht : startStep s = .next t := ht
    by_cases hg : s.granularity = .command
    · rw [startStep_command hb hg] at ht
      exact hs.decomp ht
    · rw [startStep_split hg] at ht
      cases ht
      exact hs
  | reset =>
    cases ht
    exact State.reset_ranges.congr rfl rfl rfl rfl rfl
  | _ =>
    cases ht
    exact h.congr rfl rfl rfl rfl rfl

/-- Settles O58: whoever moves, the colours, codes and channels written are in range, and the others stay. -/
theorem stepKeepsRegisterRanges : Obligations.StepKeepsRegisterRanges := by
  intro s t h hst
  rcases step_cases s with ⟨-, e⟩ | e | ⟨a, rest, ha, e⟩ <;> rw [e] at hst
  · exact h.busyStep hst
  · cases hst
    exact h
  · exact State.Ranges.hostMove (s := { s with hostQ := rest }) (h.congr rfl rfl rfl rfl rfl) a ha hst

/-- Settles O55: the reset core rests, with nothing allocated, its grids and buffers of their sizes and its colours zero. -/
theorem resetMeetsInvariant : Obligations.ResetMeetsInvariant :=
  ⟨.rest rfl rfl State.reset_sized rfl, State.reset_ranges⟩

end Sys2Proof.Machine
end

section
/-! The host's moves and the step of a resting core (R33, R80, R307, R320 to R326). -/

namespace Sys2Proof.Machine

/-- Settles O47: START on a resting core executes the decoded command; a due operation is decoded and executed. -/
theorem stepRunsTheDecodedInstruction : Obligations.StepRunsTheDecodedInstruction := by
  refine ⟨fun s rest hq hb hg => ⟨decode_fetchCommand s, ?_⟩, fun s f hb hg hq hf => ?_⟩
  · rw [step_host hq (by simp [hb])]
    show startStep { s with hostQ := rest } = _
    unfold startStep
    simp only [hg]
    rfl
  · rw [step_busy hb hq, busyStep, hg]
    simp only [operationStep, hf]

/-- Settles O48: at the finer granularities START is one step of its own. -/
theorem startLatchesTheRecord : Obligations.StartLatchesTheRecord := by
  intro s rest hq hb hg
  refine ⟨_, (step_host hq (by simp [hb])).trans (startStep_split (s := { s with hostQ := rest }) hg), rfl, rfl⟩

/-- Settles O49: each write is made at once and changes its own field. -/
theorem hostWritesTheRecord : Obligations.HostWritesTheRecord := by
  intro s a rest hq hb
  have hstep := step_host hq (by simp [hb])
  cases a with
  | storeByte x b =>
    refine ⟨_, hstep, rfl, fun hwf => ?_, fun y hy => Memory.read_write_other _ _ _ _ hy⟩
    exact (Memory.read_write s.mem x x b hwf).trans (if_pos rfl)
  | start | reset => trivial
  | _ => exact hstep

/-- Settles O50: only the variant selection and a reset may be made at any time. -/
theorem hostWaitsWhileBusy : Obligations.HostWaitsWhileBusy := by
  intro s a rest hq hb hsel hreset
  have ha : a.anyTime = false := by
    cases a with
    | selectStrat n => exact absurd rfl (hsel n)
    | reset => exact absurd rfl hreset
    | _ => rfl
  refine step_busy hb fun a' rest' hq' => ?_
  rw [hq] at hq'
  cases hq'
  exact ha

/-- Settles O52: with no move nothing happens, and the other moves write the record, host memory or `STRAT`. -/
theorem restingCoreKeepsItsState : Obligations.RestingCoreKeepsItsState := by
  intro s hb
  refine ⟨step_resting hb, fun a rest hq hstart hreset => ?_⟩
  have hstep := step_host hq (by simp [hb])
  cases a with
  | start => exact absurd rfl hstart
  | reset => exact absurd rfl hreset
  | _ => exact ⟨_, hstep, rfl, rfl, rfl⟩

/-- Settles O53: the reset state is written out with these values. -/
theorem resetValues : Obligations.ResetValues := ⟨rfl, rfl, rfl, rfl, rfl, rfl, rfl, rfl, rfl, rfl⟩

/-- Settles O54: a reset may come at any time, and is the core's reset state with the host's memory and moves. -/
theorem resetEndsTheCommand : Obligations.ResetEndsTheCommand := by
  intro s rest hq
  exact ⟨_, step_host hq fun _ => rfl, rfl, rfl, rfl, rfl, rfl, rfl, rfl, rfl, rfl, rfl, rfl⟩

/-- Settles O35: a command tests `STATUS` before anything else. -/
theorem commandWhileBusyIsRefused : Obligations.CommandWhileBusyIsRefused := by
  intro s i hi hb
  have refuses : ∀ v b, runCommand v b s = .refused .startWhileBusy := fun v b => if_pos hb
  simp only [List.mem_cons, List.not_mem_nil, or_false] at hi
  rcases hi with rfl | rfl | rfl | rfl
  · exact refuses .pvrtcI false
  · exact refuses .pvrtcI true
  · exact refuses .pvrtcII false
  · exact refuses .pvrtcII true

end Sys2Proof.Machine
end

section
/-! The rows of R258's table, one by one: where each goes on, what it stores, and what it leaves alone. -/

namespace Sys2Proof.Machine

/-! ## CHECK, ALLOC and the end of a command -/

theorem checkPhase_refused {s : State} (h : checkCommand (configure s.cfg) ≠ .none) :
    checkPhase s = (s.setCfg (checkedCfg s.cfg)).takeFault (checkCommand (configure s.cfg)) := by
  unfold checkPhase
  generalize checkCommand (configure s.cfg) = code at h ⊢
  cases code with
  | none => exact absurd rfl h
  | _ => rfl

/-- CHECK derives `PAD` before it tests anything (R252, R291). -/
theorem checkedCfg_pad (c : Latched) : (checkedCfg c).pad = (configure c).pad := by
  unfold checkedCfg
  split <;> rfl

/-- An admitted command has its grid computed (R253, R291). -/
theorem checkedCfg_admitted {c : Latched} (h : checkCommand (configure c) = .none) : checkedCfg c = withGrid (configure c) := by
  simp [checkedCfg, (checkCommand_none _ h).1]

/-- `Wt*Ht*bpp/8` is eight bytes for each block (R263). -/
theorem resultBytes_eq {c : Latched} (hg : c.Grid) (hbpp : c.bpp = bitsPerPixel c.is2bpp) :
    c.wt * c.ht * c.bpp / 8 = 8 * c.gw * c.gh := by
  have h4 : c.gw * 4 * (c.gh * 4) * 4 = 8 * (8 * c.gw * c.gh) := by ring
  have h8 : c.gw * 8 * (c.gh * 4) * 2 = 8 * (8 * c.gw * c.gh) := by ring
  rw [hg.wt, hg.ht, hg.blockW, hbpp]
  cases c.is2bpp
  · rw [show blockWidth false = 4 from rfl, show bitsPerPixel false = 4 from rfl, h4]
    omega
  · rw [show blockWidth true = 8 from rfl, show bitsPerPixel true = 2 from rfl, h8]
    omega

/-- The byte count of an admitted command fits `RESULT` (R263, R290). -/
theorem resultBytes_admitted {c : Latched} (h : checkCommand (configure c) = .none) (hc : c = checkedCfg c) :
    (BitVec.ofNat 32 (c.wt * c.ht * c.bpp / 8)).toNat = 8 * c.gw * c.gh := by
  have hg := checkedCfg_grid c h
  obtain ⟨-, -, -, hbpp⟩ := checkedCfg_size c
  obtain ⟨-, -, hsize, -⟩ := checkCommand_none _ h
  rw [← checkedCfg_admitted h, ← hc, tooLarge, decide_eq_false_iff_not] at hsize
  rw [← hc] at hg hbpp
  have hle : c.wt * c.ht * c.bpp / 8 ≤ c.wt * c.ht * 4 := by
    have hb : c.bpp ≤ 4 := by
      rw [hbpp]
      cases c.is2bpp <;> decide
    calc c.wt * c.ht * c.bpp / 8 ≤ c.wt * c.ht * c.bpp := Nat.div_le_self _ _
      _ ≤ c.wt * c.ht * 4 := Nat.mul_le_mul_left _ hb
  rw [BitVec.toNat_ofNat, Nat.mod_eq_of_lt (by omega), resultBytes_eq hg hbpp]

/-! ## What a row keeps -/

/-- No row touches the granularity or the host's moves; host memory changes in SCATTER and COPYBACK only, and `TMP` in
these, in ALLOC, and where CHECK refuses. -/
theorem phaseStep_frame {s t : State} (h : phaseStep s = .next t) :
    t.granularity = s.granularity ∧ t.hostQ = s.hostQ ∧ (s.ph ≠ .scatter → s.ph ≠ .copyback → t.mem = s.mem) ∧
      (s.ph ≠ .scatter → s.ph ≠ .copyback → s.ph ≠ .alloc → s.ph ≠ .check → t.tmp = s.tmp) := by
  unfold phaseStep at h
  cases hp : s.ph <;> simp only [hp] at h
  case idle | done | failed =>
    cases h
    exact ⟨rfl, rfl, fun _ _ => rfl, fun _ _ _ _ => rfl⟩
  case check =>
    obtain ⟨c, bx, bY, f, r, m, p, e⟩ := checkPhase_frame s
    rw [e] at h
    cases h
    exact ⟨rfl, rfl, fun _ _ => rfl, fun _ _ _ hn => absurd rfl hn⟩
  case alloc =>
    obtain ⟨bx, bY, f, r, m, p, g, d, e⟩ := allocPhase_frame s
    rw [e] at h
    cases h
    exact ⟨rfl, rfl, fun _ _ => rfl, fun _ _ hn => absurd rfl hn⟩
  case fetch =>
    rw [fetchPhase_next h, s.fetched_eq]
    exact ⟨rfl, rfl, fun _ _ => rfl, fun _ _ _ _ => rfl⟩
  case unpack =>
    rw [unpackPhase_eq] at h
    cases h
    exact ⟨rfl, rfl, fun _ _ => rfl, fun _ _ _ _ => rfl⟩
  case interp =>
    rw [interpPhase_eq] at h
    cases h
    exact ⟨rfl, rfl, fun _ _ => rfl, fun _ _ _ _ => rfl⟩
  case compose =>
    rw [(composePhase_spec s).1] at h
    cases h
    exact ⟨rfl, rfl, fun _ _ => rfl, fun _ _ _ _ => rfl⟩
  case scatter =>
    obtain ⟨u, hu, hv⟩ := (andThen_eq_next _ _ _).mp h
    obtain ⟨bx, bY, f, r, p, e⟩ := afterScatter_frame u
    rw [e, scatterTile_store hu] at hv
    cases hv
    exact ⟨rfl, rfl, fun hn => absurd rfl hn, fun hn => absurd rfl hn⟩
  case copyback =>
    obtain ⟨u, hu, hv⟩ := (andThen_eq_next _ _ _).mp h
    rw [copyBack_store hu] at hv
    cases hv
    exact ⟨rfl, rfl, fun _ hn => absurd rfl hn, fun _ hn => absurd rfl hn⟩

/-! ## SCATTER (R259, R261) -/

theorem State.Walked.refl {s : State} (hs : s.Walkable) (htmp : ∀ r, s.tmp = some r → r.wf = true) :
    s.Walked s fun _ _ => False :=
  ⟨.refl s, hs.store, rfl, fun _ _ => rfl, fun _ => htmp, fun _ => rfl, fun _ _ _ _ h => h.elim⟩

/-- The walker's position in an invariant state, counted from 0 (R254). -/
theorem State.Inv.position {s : State} (h : s.Inv) (hp : s.ph.tileWork = true) :
    ∃ i j : Nat, i < s.cfg.gw ∧ j < s.cfg.gh ∧ s.bX = (i : Int) - 1 ∧ s.bY = (j : Int) - 1 := by
  obtain ⟨hx0, hx1, hy0, hy1⟩ := h.walker hp
  exact ⟨(s.bX + 1).toNat, (s.bY + 1).toNat, by omega, by omega, by omega, by omega⟩

/-- Two entries of one tile have different pixels (R260). -/
theorem scatterPos_inj {c : Latched} (hg : c.Grid) {i j e e' : Nat} (hi : i < c.gw) (hj : j < c.gh) (he : e < c.blockW * 4)
    (he' : e' < c.blockW * 4)
    (h : scatterPos c ((i : Int) - 1) ((j : Int) - 1) e = scatterPos c ((i : Int) - 1) ((j : Int) - 1) e') : e = e' := by
  obtain ⟨-, -, ht⟩ := scatterPos_tile c hg i j e hi hj he
  obtain ⟨-, -, ht'⟩ := scatterPos_tile c hg i j e' hi hj he'
  rw [h, ht'] at ht
  simp only [Prod.mk.injEq, texelCol, texelRow, true_and] at ht
  rw [← Nat.div_add_mod e c.blockW, ← Nat.div_add_mod e' c.blockW, ht.1, ht.2]

/-- SCATTER of an invariant state: every entry's pixel is stored at its place, and the stores stay in the target raster. -/
theorem State.Inv.scatterTile_spec {s u : State} (h : s.Inv) (hp : s.ph = .scatter) (hu : scatterTile s = .next u) :
    s.Walked u (fun _ _ => False) ∧
      ∀ e, e < s.cfg.blockW * 4 → u.Stored (scatterPos s.cfg s.bX s.bY e).1 (scatterPos s.cfg s.bX s.bY e).2 (texelAt s.tile e) := by
  have haa : s.ph.afterAlloc = true := by rw [hp]; rfl
  have hw := h.walkable haa
  obtain ⟨i, j, hi, hj, hx, hy⟩ := h.position (by rw [hp]; rfl)
  rw [scatterTile, if_pos (h.rasterInside haa)] at hu
  cases hu
  refine (iter_builds
    (fun n u => s.StoreOnly u ∧ s.Walked u (fun _ _ => False) ∧ ∀ e, e < n →
      u.Stored (scatterPos s.cfg s.bX s.bY e).1 (scatterPos s.cfg s.bX s.bY e).2 (texelAt s.tile e))
    (s.cfg.blockW * 4) (fun j t => State.scatterEntry t j) s
    ⟨.refl s, .refl hw h.tmpWf, fun e he => absurd he (Nat.not_lt_zero e)⟩ ?_).2
  rintro e u he ⟨ho, hwk, hst⟩
  have hpos := fun e he => scatterPos_tile s.cfg hw.grid i j e hi hj he
  rw [← hx, ← hy] at hpos
  have hc := hwk.only.cfg
  have htg := hwk.only.target
  have hentry : u.scatterEntry e =
      u.writePixel u.target u.cfg.wt (scatterPos s.cfg s.bX s.bY e).1 (scatterPos s.cfg s.bX s.bY e).2 (texelAt s.tile e) := by
    rw [State.scatterEntry, hc, show u.bX = s.bX by rw [ho], show u.bY = s.bY by rw [ho], show u.tile = s.tile by rw [ho]]
  obtain ⟨hx0, hy0, -⟩ := hpos e he
  have hstore : u.Storable u.target := htg ▸ hwk.store
  rw [hentry]
  refine ⟨ho.trans (u.storeOnly_writePixel _ _ _ _ _), ?_, fun e' he' => ?_⟩
  · exact { hwk.pixel hw _ (texelAt s.tile e) hx0 hy0 with pixels := fun _ _ _ _ h => h.elim }
  · by_cases hee : e' = e
    · subst hee
      exact u.stored_writePixel_same _ _ _ hstore
    · obtain ⟨hx1, -, -⟩ := hpos e' (by omega)
      refine u.stored_writePixel_other _ _ _ _ _ _ hstore (hc ▸ hx0) (hc ▸ hx1) (fun hn => hee ?_) (hst e' (by omega))
      refine scatterPos_inj hw.grid hi hj (e := e') (e' := e) (by omega) he ?_
      rw [← hx, ← hy]
      exact Prod.ext hn.1 hn.2

theorem State.targetByte_eq_peek (s : State) (o : Nat) : s.targetByte o = s.peek s.target o := by
  unfold State.targetByte State.peek State.target
  cases s.cfg.pad <;> rfl

theorem storedByte_eq (o : PixelOrder) (p : Pixel32) (i : Nat) : storedByte o p i = (pixelBytes o p).getD i 0 := by
  cases o <;> rfl

theorem State.target_eq_tmp_iff (s : State) : s.target = .tmp ↔ s.cfg.pad = true := by
  unfold State.target
  cases s.cfg.pad <;> simp

theorem State.target_eq_out_iff (s : State) : s.target = .out ↔ s.cfg.pad = false := by
  unfold State.target
  cases s.cfg.pad <;> simp

theorem phaseStep_of_scatter {s u : State} (hp : s.ph = .scatter) (hu : scatterTile s = .next u) :
    phaseStep s = .next u.afterScatter := by
  rw [phaseStep, hp]
  simp only [hu, andThen_next]

/-- Settles O42: entries of a tile have different pixels, so the pixel of each is there when all are stored. -/
theorem scatterPlacesEveryTexel : Obligations.ScatterPlacesEveryTexel := by
  intro s h hp
  have haa : s.ph.afterAlloc = true := by rw [hp]; rfl
  have hw := h.walkable haa
  obtain ⟨u, hu, ho, -⟩ := hw.scatter (h.rasterInside haa) fun _ => h.tmpWf
  obtain ⟨hwk, hst⟩ := h.scatterTile_spec hp hu
  obtain ⟨hothers, htmp, hout⟩ := scatterTile_frame hu hw.store
  obtain ⟨bx, bY, f, r, p, e⟩ := afterScatter_frame u
  have htarget : ∀ o, u.afterScatter.targetByte o = u.peek s.target o := by
    intro o
    rw [← hwk.only.target, ← u.targetByte_eq_peek, e]
    rfl
  refine ⟨u.afterScatter, phaseStep_of_scatter hp hu, ?_, ?_, ?_, ?_, ?_⟩
  · rw [e]
    rw [ho]
  · intro c r n p hc hr hn hp' x y
    have he : r * s.cfg.blockW + c < s.cfg.blockW * 4 := by
      rcases hw.grid.width_cases with hb | hb <;> rw [hb] at hc ⊢ <;> omega
    have hpix := hst _ he n hn
    have hcol : texelCol s.cfg.blockW (r * s.cfg.blockW + c) = c := by
      rw [texelCol, Nat.mul_add_mod_self_right, Nat.mod_eq_of_lt hc]
    have hrow : texelRow s.cfg.blockW (r * s.cfg.blockW + c) = r := by
      rw [texelRow, Nat.mul_comm, Nat.mul_add_div (by omega), Nat.div_eq_of_lt hc, Nat.add_zero]
    have htexel : texelAt s.tile (r * s.cfg.blockW + c) = p := by rw [texelAt, hp']
    have hxy : scatterPos s.cfg s.bX s.bY (r * s.cfg.blockW + c) = (x, y) := by rw [scatterPos, hcol, hrow]
    rw [hwk.only.target, hwk.only.cfg, hwk.only.pixelOrder, hxy, htexel] at hpix
    rw [htarget, storedByte_eq]
    exact hpix
  · intro o hne
    rw [htarget, s.targetByte_eq_peek]
    refine hothers o fun e n he hn => hne e n (by omega) hn
  · intro hpad
    rw [e]
    exact htmp (s.target_eq_tmp_iff.mpr hpad)
  · intro hpad
    rw [e]
    exact hout (s.target_eq_out_iff.mpr hpad)

/-! ## COPYBACK (R262) -/

/-- COPYBACK of an invariant state (R262 to R264). -/
theorem State.Inv.phaseStep_copyback {s : State} {r : TmpRaster} (h : s.Inv) (hp : s.ph = .copyback) (hr : s.tmp = some r) :
    ∃ m, Machine.phaseStep s = .next ({ s with mem := m, tmp := none } : State).finish ∧
      (∀ x y i, x < s.cfg.width.toNat → y < s.cfg.height.toNat → i < 4 →
        Memory.read m (s.cfg.outSp.base + (pixelOffset s.cfg.width.toNat x y + i)) = r.read (pixelOffset s.cfg.wt x y + i)) ∧
      ∀ a, (a < s.cfg.outSp.base ∨ s.cfg.outSp.base + outBytes s.cfg ≤ a) → Memory.read m a = Memory.read s.mem a := by
  obtain ⟨hc, he⟩ := h.config (by rw [hp]; rfl)
  obtain ⟨-, hroom, -⟩ := bounds_admitted _ hc
  rw [← he] at hroom
  obtain ⟨m, hm, -, hin, hout⟩ := copyBack_spec s r hr (h.rasterInside (by rw [hp]; rfl)) hroom h.mem
  refine ⟨m, ?_, hin, hout⟩
  rw [Machine.phaseStep, hp]
  simp only [hm]
  rfl

/-- Settles O43: the copy-back writes each byte of the corner and no other byte. -/
theorem copyBackCropsTheRaster : Obligations.CopyBackCropsTheRaster := by
  intro s r h hp hr
  obtain ⟨m, hm, hin, hout⟩ := h.phaseStep_copyback hp hr
  refine ⟨_, hm, rfl, rfl, hin, fun a ha => hout a ?_⟩
  unfold outBytes
  omega

/-! ## FETCH (R257, R63, R64) -/

/-- A field of `IN` is little-endian (R64). -/
theorem State.readField_toNat (s : State) (off : Nat) :
    let byte := fun n => (Memory.read s.mem (s.cfg.inSp.base + off + n)).toNat
    (s.readField off).toNat = byte 0 + 2 ^ 8 * byte 1 + 2 ^ 16 * byte 2 + 2 ^ 24 * byte 3 := by
  intro byte
  have hlt : ∀ n, byte n < 256 := fun n => (Memory.read s.mem (s.cfg.inSp.base + off + n)).isLt
  have h0 := hlt 0
  have h1 := hlt 1
  have h2 := hlt 2
  have h3 := hlt 3
  have hle : (s.readField off).toNat = (byte 0 + 256 * (byte 1 + 256 * (byte 2 + 256 * (byte 3 + 256 * 0)))) % 2 ^ 32 :=
    BitVec.toNat_ofNat _ 32
  omega

/-- The word FETCH leaves for a block is that of the block's storage index. -/
theorem State.fetched_wd_get (s : State) (k : Corner) : s.fetched.wd.get k = s.wordOfBlock (s.fetched.blk.get k) := by
  rw [State.fetched_wd, corners_get_map, State.fetched_blk]

/-- Settles O41: the two fields of the word are the two little-endian reads of the word fetch. -/
theorem fetchReadsFourWords : Obligations.FetchReadsFourWords := by
  intro s h hp
  refine ⟨s.fetched, h.phaseStep_fetch hp, fun k => ?_⟩
  rw [s.fetched_wd_get k]
  exact ⟨s.readField_toNat (8 * s.indexOf (s.fetched.blk.get k)), s.readField_toNat (8 * s.indexOf (s.fetched.blk.get k) + 4)⟩

/-! ## The table (R258) -/

/-- Where CHECK goes on (R258, R291). -/
theorem checkPhase_row (s : State) :
    (checkPhase s).cfg = checkedCfg s.cfg ∧
      (checkCommand (configure s.cfg) ≠ .none →
        (checkPhase s).ph = .failed ∧ (checkPhase s).fault = checkCommand (configure s.cfg) ∧ (checkPhase s).result = 0 ∧
          (checkPhase s).tmp = none) ∧
      (checkCommand (configure s.cfg) = .none →
        if (configure s.cfg).pad then (checkPhase s).ph = .alloc
        else (checkPhase s).ph = .fetch ∧ (checkPhase s).bX = -1 ∧ (checkPhase s).bY = -1) := by
  refine ⟨checkPhase_cfg s, fun h => ?_, fun h => ?_⟩
  · rw [checkPhase_refused h]
    exact ⟨rfl, rfl, rfl, rfl⟩
  · rw [checkPhase_admitted s h, checkedCfg_pad]
    split
    · rfl
    · exact ⟨rfl, rfl, rfl⟩

/-- Where ALLOC goes on (R258, R294). -/
theorem allocPhase_row (s : State) :
    (s.drawAlloc.1 = false →
        (allocPhase s).ph = .failed ∧ (allocPhase s).fault = .alloc ∧ (allocPhase s).result = 0 ∧ (allocPhase s).tmp = none) ∧
      (s.drawAlloc.1 = true →
        (allocPhase s).ph = .fetch ∧ (allocPhase s).tmp = some ⟨s.cfg.wt * s.cfg.ht * 4, []⟩ ∧ (allocPhase s).bX = -1 ∧
          (allocPhase s).bY = -1) := by
  refine ⟨fun h => ?_, fun h => ?_⟩ <;> rw [allocPhase] <;> simp only [h]
  · exact ⟨rfl, rfl, rfl, rfl⟩
  · exact ⟨rfl, rfl, rfl, rfl⟩

/-- Where SCATTER goes on (R258, R254). -/
theorem afterScatter_row (s : State) (hx : s.bX ≤ (s.cfg.gw : Int) - 2) (hy : s.bY ≤ (s.cfg.gh : Int) - 2)
    (hresult : (BitVec.ofNat 32 (s.cfg.wt * s.cfg.ht * s.cfg.bpp / 8)).toNat = 8 * s.cfg.gw * s.cfg.gh) :
    let t := s.afterScatter
    if s.bX < (s.cfg.gw : Int) - 2 then t.ph = .fetch ∧ t.bX = s.bX + 1 ∧ t.bY = s.bY
    else if s.bY < (s.cfg.gh : Int) - 2 then t.ph = .fetch ∧ t.bX = -1 ∧ t.bY = s.bY + 1
    else if s.cfg.pad then t.ph = .copyback
    else t.ph = .done ∧ t.fault = .none ∧ t.result.toNat = 8 * s.cfg.gw * s.cfg.gh := by
  intro t
  have ht : t = s.afterScatter := rfl
  unfold State.afterScatter State.lastTile State.nextTile at ht
  clear_value t
  split
  · rw [if_neg (by simp; omega), if_neg (by omega)] at ht
    rw [ht]
    exact ⟨rfl, rfl, rfl⟩
  · split
    · rw [if_neg (by simp; omega), if_pos (by omega)] at ht
      rw [ht]
      exact ⟨rfl, rfl, rfl⟩
    · rw [if_pos (by simp; omega)] at ht
      split
      · rw [if_pos ‹_›] at ht
        rw [ht]
        rfl
      · rw [if_neg ‹_›] at ht
        rw [ht]
        exact ⟨rfl, rfl, hresult⟩

/-- Settles O38: the row of each phase. -/
theorem phaseTransitions : Obligations.PhaseTransitions := by
  intro s h
  obtain ⟨t, ht, -⟩ := h.phaseStep
  refine ⟨t, ht, ?_⟩
  have hrow := ht
  unfold phaseStep at hrow
  cases hp : s.ph <;> simp only [hp] at hrow ⊢
  case idle | done | failed =>
    cases hrow
    rfl
  case check =>
    cases hrow
    exact checkPhase_row s
  case alloc =>
    cases hrow
    exact allocPhase_row s
  case fetch =>
    rw [fetchPhase_next hrow, s.fetched_eq]
    exact ⟨rfl, rfl, rfl⟩
  case unpack =>
    cases hrow
    rw [unpackPhase_eq]
    exact ⟨rfl, rfl, rfl⟩
  case interp =>
    cases hrow
    rw [interpPhase_eq]
    exact ⟨rfl, rfl, rfl⟩
  case compose =>
    cases hrow
    rw [(composePhase_spec s).1]
    exact ⟨rfl, rfl, rfl⟩
  case scatter =>
    obtain ⟨hc, he⟩ := h.config (by rw [hp]; rfl)
    obtain ⟨-, hx, -, hy⟩ := h.walker (by rw [hp]; rfl)
    obtain ⟨u, hu, hv⟩ := (andThen_eq_next _ _ _).mp hrow
    cases hv
    have ho := scatterTile_store hu
    have hcfg : u.cfg = s.cfg := by rw [ho]
    have hbx : u.bX = s.bX := by rw [ho]
    have hby : u.bY = s.bY := by rw [ho]
    have hr := afterScatter_row u
    rw [hcfg, hbx, hby] at hr
    exact hr hx hy (resultBytes_admitted hc he)
  case copyback =>
    obtain ⟨hc, he⟩ := h.config (by rw [hp]; rfl)
    obtain ⟨r, hr, -⟩ := h.tmpSize (by rw [hp]; rfl) (h.padded (.inr hp))
    obtain ⟨m, hm, -⟩ := h.phaseStep_copyback hp hr
    rw [hm] at ht
    cases ht
    exact ⟨rfl, rfl, rfl, resultBytes_admitted hc he⟩

end Sys2Proof.Machine
end

section
/-! The commands as a whole: how each way of ending looks from the record, what the end depends on, and the walk's pixels. -/

namespace Sys2Proof.Machine

/-! ## Refused commands (R290 to R292, R294) -/

theorem faultCondition_ne_none {v : Variant} {b : Bool} {r : CmdRecord} {code : FaultCode} (h : faultCondition v b r code) :
    code ≠ .none := by
  rintro rfl
  exact h

/-- A refused command is FAILED (R292). -/
theorem State.takeFault_status_ne_done (s : State) (code : FaultCode) : (s.takeFault code).status ≠ .done := by
  show Status.failed ≠ .done
  decide

/-- Settles O31: CHECK raises the code of lowest value, and its fault leaves the rest alone. -/
theorem firstFaultIsReported : Obligations.FirstFaultIsReported := by
  intro s v b code hb hcond hlow
  have hcode := checkCommand_start s v b code hcond hlow
  have hend := decomp_refused (s.start v b) (by rw [hcode]; exact faultCondition_ne_none hcond)
  rw [hcode] at hend
  exact ⟨_, (exec_command s v b hb).trans hend, rfl, rfl⟩

theorem State.drawAlloc_allocGiven (s : State) : s.drawAlloc.2.allocGiven = s.allocGiven.tail := by
  unfold State.drawAlloc
  cases s.allocGiven with
  | nil => rfl
  | cons => rfl

/-- Settles O32: the draw is taken, and the fault of ALLOC leaves the rest alone. -/
theorem failedAllocationIsReported : Obligations.FailedAllocationIsReported := by
  intro s v b hb hadm hpad hdraw
  have hend := decomp_allocFailed (s.start v b) ((checkCommand_none_iff s v b).mpr hadm) ((pad_start s v b).mpr hpad)
    ((drawAlloc_start s v b _).trans hdraw)
  refine ⟨_, (exec_command s v b hb).trans hend, rfl, State.drawAlloc_allocGiven _, ?_⟩
  rw [State.drawAlloc_eq]
  rfl

/-! ## Completed commands (R263 to R266) -/

/-- The draw of an admitted command that needs one, seen from the record (R294). -/
theorem draw_of_record {s : State} {v : Variant} {b : Bool} (h : recPad b s.cmd → s.drawOf = true)
    (hp : (checkedCfg (s.start v b).cfg).pad = true) :
    ((s.start v b).setCfg (checkedCfg (s.start v b).cfg)).drawAlloc.1 = true :=
  (drawAlloc_start s v b _).trans (h ((pad_start s v b).mp hp))

/-- `RESULT` of a completed command, from the record (R263). -/
theorem result_start {s : State} {v : Variant} {b : Bool} (h : checkCommand (configure (s.start v b).cfg) = .none) :
    let c := checkedCfg (s.start v b).cfg
    c.wt * c.ht * c.bpp / 8 = 8 * recGw b s.cmd.width * recGh s.cmd.height := by
  intro c
  have hg : c.Grid := checkedCfg_grid _ h
  obtain ⟨-, -, -, hbpp⟩ := checkedCfg_size (s.start v b).cfg
  obtain ⟨-, h2, -⟩ := checkedCfg_latched (s.start v b).cfg
  obtain ⟨-, -, -, -, -, -, -, -, -, hgw, hgh⟩ := configure_start s v b
  rw [← checkedCfg_admitted h] at hgw hgh
  rw [resultBytes_eq hg (hbpp.trans (congrArg bitsPerPixel h2.symm)), ← hgw, ← hgh]

/-- Settles O33: each of the four commands is walked to its end, and every pixel is then the closed form's. -/
theorem admittedCommandCompletes : Obligations.AdmittedCommandCompletes := by
  intro s hb hm completes
  have key : ∀ v b, completes (commandOf v b) v b := by
    intro v b hadm hdraw
    have hc := (checkCommand_none_iff s v b).mpr hadm
    obtain ⟨t, ht, he, -, hpix, hout⟩ := decomp_done (s.start v b) hc hm (draw_of_record hdraw)
    rw [result_start hc, State.drawAlloc_allocGiven] at he
    refine ⟨t, (exec_command s v b hb).trans ht, by rw [he]; rfl, by rw [he]; rfl, fun htmp => ?_, fun hpad => ?_,
      fun hpad => ?_, fun x y n hx hy hn => ?_, fun a ha => hout a ?_⟩
    · rw [he]
      simp [State.start, htmp]
    · rw [he]
      exact if_pos ((pad_start s v b).mpr hpad)
    · rw [he]
      exact if_neg fun hp => hpad ((pad_start s v b).mp hp)
    · rw [storedByte_eq]
      exact hpix x y n hx hy hn
    · unfold inOut at ha
      show a < s.cmd.outSp.base ∨ s.cmd.outSp.base + s.cmd.width.toNat * s.cmd.height.toNat * 4 ≤ a
      omega
  exact ⟨key .pvrtcI false, key .pvrtcI true, key .pvrtcII false, key .pvrtcII true⟩

/-- Settles O34: refused by CHECK or by ALLOC a command is FAILED with a code, walked to its end it is DONE with none. -/
theorem commandAlwaysEnds : Obligations.CommandAlwaysEnds := by
  intro s v b hb hm
  rw [exec_command s v b hb]
  rcases decomp_cases (s.start v b) with ⟨hc, ht⟩ | ⟨-, -, -, ht⟩ | ⟨hc, hd⟩
  · exact ⟨_, ht, .inr rfl, fun h => absurd h (State.takeFault_status_ne_done _ _), fun h => absurd h hc⟩
  · exact ⟨_, ht, .inr rfl, fun h => absurd h (State.takeFault_status_ne_done _ _), fun h => absurd h (by simp)⟩
  · obtain ⟨t, ht, he, -⟩ := decomp_done (s.start v b) hc hm hd
    exact ⟨t, ht, .inl (by rw [he]; rfl), fun _ => by rw [he], fun _ => by rw [he]; rfl⟩

/-! ## What the end of a command depends on (R265) -/

/-- Two records that agree on the size, the space lengths and the overlap are judged alike by CHECK. -/
theorem checkCommand_congr {s s' : State} {v : Variant} {b : Bool} (hw : s'.cmd.width = s.cmd.width)
    (hh : s'.cmd.height = s.cmd.height) (hin : s'.cmd.inSp.len = s.cmd.inSp.len) (hout : s'.cmd.outSp.len = s.cmd.outSp.len)
    (hov : faultCondition v b s'.cmd .overlap ↔ faultCondition v b s.cmd .overlap) :
    checkCommand (configure (s'.start v b).cfg) = checkCommand (configure (s.start v b).cfg) := by
  have hdim := (faultCondition_dimMult s' v b).symm.trans
    (.trans (by simp only [faultCondition, hw, hh]) (faultCondition_dimMult s v b))
  have hnpot := (faultCondition_npot s' v b).symm.trans
    (.trans (by simp only [faultCondition, hw, hh]) (faultCondition_npot s v b))
  have hsize := (faultCondition_size s' v b).symm.trans
    (.trans (by simp only [faultCondition, hw, hh]) (faultCondition_size s v b))
  have hinS := (faultCondition_inShort s' v b).symm.trans
    (.trans (by simp only [faultCondition, hw, hh, hin]) (faultCondition_inShort s v b))
  have houtS := (faultCondition_outShort s' v b).symm.trans
    (.trans (by simp only [faultCondition, hw, hh, hout]) (faultCondition_outShort s v b))
  have hover := (faultCondition_overlap s' v b).symm.trans (hov.trans (faultCondition_overlap s v b))
  rw [← Bool.eq_iff_iff] at hdim hnpot hsize hinS houtS hover
  simp only [checkCommand, gridFault, hdim, hnpot, hsize, hinS, houtS, hover]

/-- Apart from where the spaces lie, the configuration of an admitted command is a function of its size. -/
theorem configured_cfg_congr {s s' : State} {v : Variant} {b : Bool} (hw : s'.cmd.width = s.cmd.width)
    (hh : s'.cmd.height = s.cmd.height) (hc : checkCommand (configure (s.start v b).cfg) = .none)
    (hc' : checkCommand (configure (s'.start v b).cfg) = .none) :
    (s'.configured v b).cfg =
      { (s.configured v b).cfg with inSp := s'.cmd.inSp, outSp := s'.cmd.outSp } := by
  rw [State.configured_cfg, State.configured_cfg, checkedCfg_admitted hc, checkedCfg_admitted hc']
  simp only [withGrid, configure, State.start, hw, hh]
  rfl

/-- The storage index of a block of an admitted command's grid (R230). -/
theorem index_lt_configured {s : State} {v : Variant} {b : Bool} (hm : Memory.wf s.mem = true)
    (hc : checkCommand (configure (s.start v b).cfg) = .none) (blk : Nat × Nat) (hx : blk.1 < (s.configured v b).cfg.gw)
    (hy : blk.2 < (s.configured v b).cfg.gh) :
    (s.configured v b).indexOf blk < (s.configured v b).cfg.gw * (s.configured v b).cfg.gh := by
  -- the walk begins with a `TMP` of the raster's size; an index does not depend on it
  let w : State := { s.configured v b with tmp := some ⟨(s.configured v b).cfg.wt * (s.configured v b).cfg.ht * 4, []⟩ }
  have hwalk : w.Walkable := walkable_admitted w (s.start v b).cfg rfl hc hm fun _ => ⟨_, rfl, rfl⟩
  exact hwalk.index_lt blk hx hy

/-- The closed form of a pixel depends on the words of `IN` and not on where `IN` lies. -/
theorem closedPixel_configured_congr {s s' : State} {v : Variant} {b : Bool} (hm : Memory.wf s.mem = true)
    (hl : s'.mortonLow = s.mortonLow) (hw : s'.cmd.width = s.cmd.width) (hh : s'.cmd.height = s.cmd.height)
    (hc : checkCommand (configure (s.start v b).cfg) = .none) (hc' : checkCommand (configure (s'.start v b).cfg) = .none)
    (hbytes : ∀ o, o < 8 * recGw b s.cmd.width * recGh s.cmd.height →
      Memory.read s'.mem (s'.cmd.inSp.base + o) = Memory.read s.mem (s.cmd.inSp.base + o))
    (x y : Nat) (hx : x < (s.configured v b).cfg.wt) (hy : y < (s.configured v b).cfg.ht) :
    (s'.configured v b).closedPixel x y = (s.configured v b).closedPixel x y := by
  have hcfg := configured_cfg_congr hw hh hc hc'
  obtain ⟨-, -, -, -, -, -, -, -, -, hgw, hgh⟩ := configure_start s v b
  rw [← checkedCfg_admitted hc] at hgw hgh
  have hin : (s.configured v b).cfg.inSp = s.cmd.inSp := by rw [State.configured_cfg, checkedCfg_admitted hc]; rfl
  have hin' : (s'.configured v b).cfg.inSp = s'.cmd.inSp := by rw [State.configured_cfg, checkedCfg_admitted hc']; rfl
  have hindex : ∀ blk, (s'.configured v b).indexOf blk = (s.configured v b).indexOf blk := by
    intro blk
    have hlow : (s'.configured v b).mortonLow = (s.configured v b).mortonLow := hl
    simp only [State.indexOf, hcfg, hlow]
  have hfield : ∀ off, off + 4 ≤ 8 * recGw b s.cmd.width * recGh s.cmd.height →
      (s'.configured v b).readField off = (s.configured v b).readField off := by
    intro off hoff
    have hbyte : ∀ n, n < 4 → Memory.read s'.mem (s'.cmd.inSp.base + off + n) = Memory.read s.mem (s.cmd.inSp.base + off + n) := by
      intro n hn
      rw [Nat.add_assoc, Nat.add_assoc]
      exact hbytes (off + n) (by omega)
    simp only [State.readField, hin, hin', State.configured_mem, hbyte 0 (by decide), hbyte 1 (by decide),
      hbyte 2 (by decide), hbyte 3 (by decide)]
  have hword : ∀ blk : Nat × Nat, blk.1 < (s.configured v b).cfg.gw → blk.2 < (s.configured v b).cfg.gh →
      (s'.configured v b).wordOfBlock blk = (s.configured v b).wordOfBlock blk := by
    intro blk hbx hby
    have hlt := index_lt_configured hm hc blk hbx hby
    have hbound : 8 * (s.configured v b).indexOf blk + 8 ≤ 8 * recGw b s.cmd.width * recGh s.cmd.height := by
      rw [Nat.mul_assoc, ← hgw, ← hgh]
      exact Nat.mul_le_mul_left 8 hlt
    rw [State.wordOfBlock, State.wordOfBlock, hindex, State.readWord, State.readWord, hfield _ (by omega), hfield _ (by omega)]
  have hgrid : (s.configured v b).cfg.Grid := checkedCfg_grid _ hc
  obtain ⟨htx, hty, -⟩ := pixel_scatterPos _ hgrid x y hx hy
  have htile := tileBlocks_lt (s.configured v b).cfg (tileOfPixel (s.configured v b).cfg x y).1 htx hty
  have hp := hword _ (htile .p).1 (htile .p).2
  have hq := hword _ (htile .q).1 (htile .q).2
  have hr := hword _ (htile .r).1 (htile .r).2
  have hs := hword _ (htile .s).1 (htile .s).2
  have htop : tileOfPixel (s'.configured v b).cfg x y = tileOfPixel (s.configured v b).cfg x y := by rw [hcfg]; rfl
  have hblk : ∀ t, tileBlocks (s'.configured v b).cfg t = tileBlocks (s.configured v b).cfg t := by
    intro t
    rw [hcfg]
    rfl
  have hvar : (s'.configured v b).cfg.variant = (s.configured v b).cfg.variant := by rw [hcfg]
  have hbpp : (s'.configured v b).cfg.is2bpp = (s.configured v b).cfg.is2bpp := by rw [hcfg]
  simp only [Corners.get] at hp hq hr hs
  simp only [State.closedPixel, htop, hblk, hvar, hbpp, Corners.map, hp, hq, hr, hs]

/-- Every byte of a raster is a byte of a pixel (R65). -/
theorem exists_pixelOffset (w h o : Nat) (ho : o < w * h * 4) :
    ∃ x y i, x < w ∧ y < h ∧ i < 4 ∧ o = pixelOffset w x y + i := by
  have hw : 0 < w := by
    rcases Nat.eq_zero_or_pos w with rfl | hw
    · simp at ho
    · exact hw
  have hdiv : o / 4 / w < h := Nat.div_lt_of_lt_mul (by omega)
  refine ⟨o / 4 % w, o / 4 / w, o % 4, Nat.mod_lt _ hw, hdiv, Nat.mod_lt _ (by decide), ?_⟩
  rw [pixelOffset, Nat.mul_comm (o / 4 / w) w, Nat.div_add_mod, Nat.div_add_mod]

/-- Settles O36: the ways of ending are chosen by what CHECK and ALLOC see, and a completed command's pixels by the closed
form. -/
theorem endStateIsDetermined : Obligations.EndStateIsDetermined := by
  intro s s' t t' v b hb hb' hm hm' hpo hl hw hh hin hout hov hbytes hdraw ht ht'
  rw [exec_command s v b hb] at ht
  rw [exec_command s' v b hb'] at ht'
  have hcheck := checkCommand_congr hw hh hin hout hov
  have hpad : (checkedCfg (s'.start v b).cfg).pad = (checkedCfg (s.start v b).cfg).pad := by
    rw [Bool.eq_iff_iff, pad_start, pad_start]
    simp only [recPad, hw, hh]
  have hdraws : (checkedCfg (s.start v b).cfg).pad = true →
      ((s'.start v b).setCfg (checkedCfg (s'.start v b).cfg)).drawAlloc.1 =
        ((s.start v b).setCfg (checkedCfg (s.start v b).cfg)).drawAlloc.1 := by
    intro hp
    rw [drawAlloc_start, drawAlloc_start]
    exact hdraw ((pad_start s v b).mp hp)
  rcases decomp_cases (s.start v b) with ⟨hc, e⟩ | ⟨hc, hp, hd, e⟩ | ⟨hc, hd⟩
  · have e' := decomp_refused (s'.start v b) (by rw [hcheck]; exact hc)
    rw [e] at ht
    rw [e'] at ht'
    cases ht
    cases ht'
    exact ⟨rfl, hcheck, rfl, fun h => absurd h (State.takeFault_status_ne_done _ _)⟩
  · have e' := decomp_allocFailed (s'.start v b) (hcheck.trans hc) (hpad.trans hp) ((hdraws hp).trans hd)
    rw [e] at ht
    rw [e'] at ht'
    cases ht
    cases ht'
    exact ⟨rfl, rfl, rfl, fun h => absurd h (State.takeFault_status_ne_done _ _)⟩
  · have hc' := hcheck.trans hc
    have hd' : (checkedCfg (s'.start v b).cfg).pad = true →
        ((s'.start v b).setCfg (checkedCfg (s'.start v b).cfg)).drawAlloc.1 = true := fun hp =>
      (hdraws (hpad ▸ hp)).trans (hd (hpad ▸ hp))
    obtain ⟨u, hu, he, -, hpix, -⟩ := decomp_done (s.start v b) hc hm hd
    obtain ⟨u', hu', he', -, hpix', -⟩ := decomp_done (s'.start v b) hc' hm' hd'
    rw [hu] at ht
    rw [hu'] at ht'
    cases ht
    cases ht'
    rw [result_start hc] at he
    rw [result_start hc', hw, hh] at he'
    refine ⟨by rw [he, he']; rfl, by rw [he, he'], by rw [he, he'], fun _ o ho => ?_⟩
    obtain ⟨x, y, i, hx, hy, hi, rfl⟩ := exists_pixelOffset _ _ _ ho
    obtain ⟨hwt, hht⟩ := padded_ge (s.start v b).cfg
    obtain ⟨-, -, hlw, hlh, -⟩ := checkedCfg_latched (s.start v b).cfg
    have hx' : x < (s.configured v b).cfg.wt := Nat.lt_of_lt_of_le (by rw [hlw]; exact hx) hwt
    have hy' : y < (s.configured v b).cfg.ht := Nat.lt_of_lt_of_le (by rw [hlh]; exact hy) hht
    have hclosed := closedPixel_configured_congr hm hl hw hh hc hc' hbytes x y hx' hy'
    have hbyte := hpix x y i hx hy hi
    have hbyte' := hpix' x y i (by rw [← hw] at hx; exact hx) (by rw [← hh] at hy; exact hy) hi
    have hwidth : (s'.start v b).cfg.width = s.cmd.width := hw
    have horder : (s'.start v b).pixelOrder = s.pixelOrder := hpo
    have hform : ∀ q : State, (q.start v b).setCfg (checkedCfg (q.start v b).cfg) = q.configured v b := fun _ => rfl
    rw [hform] at hbyte hbyte'
    rw [hwidth, horder, hclosed] at hbyte'
    exact hbyte'.trans hbyte.symm

/-! ## The pixels of the walk (R260) -/

/-- Settles O37: the closed form finds the tile and the entry of every pixel back. -/
theorem everyPixelWrittenOnce : Obligations.EveryPixelWrittenOnce := by
  intro c hc he
  have hg : c.Grid := he ▸ checkedCfg_grid c hc
  have hgw := hg.gw
  have hgh := hg.gh
  refine ⟨fun i j e hi hj he => ?_, fun x y hx hy => ?_⟩
  · obtain ⟨h1, h2, -⟩ := scatterPos_tile c hg i j e hi hj (by omega)
    exact ⟨h1, h2⟩
  · obtain ⟨hbx, hby, hcol, hrow, hpos⟩ := pixel_scatterPos c hg x y hx hy
    refine ⟨_, _, _, ⟨Nat.mod_lt _ (by omega), Nat.mod_lt _ (by omega), ?_, hpos⟩, fun i' j' e' hi' hj' he' h' => ?_⟩
    · rcases hg.width_cases with hw | hw <;> rw [hw] at hcol ⊢ <;> omega
    · obtain ⟨-, -, htile⟩ := scatterPos_tile c hg i' j' e' hi' hj' (by omega)
      rw [h'] at htile
      rw [htile]
      refine ⟨(walkedBlock_pos _ _ (by omega) hi').symm, (walkedBlock_pos _ _ (by omega) hj').symm, ?_⟩
      rw [texelRow, texelCol, Nat.mul_comm, Nat.div_add_mod]

end Sys2Proof.Machine
end

section
/-! Runs of several steps: a tile row by row, a command row by row against the command in one step, a phase operation by
operation against its row, and what a step of a busy core may store. -/

namespace Sys2Proof.Machine

/-! ## Steps at phase granularity are rows (R258) -/

theorem runSteps_eq_phaseRun (n : Nat) {s : State} (hg : s.granularity = .phase) (hq : s.hostQ = []) :
    runSteps n s = phaseRun n s := by
  induction n generalizing s with
  | zero => rfl
  | succ n ih =>
    rw [runSteps, phaseRun, step_phase s hg hq]
    cases h : phaseStep s with
    | next t =>
      obtain ⟨hgt, hqt, -⟩ := phaseStep_frame h
      exact ih (hgt.trans hg) (hqt.trans hq)
    | fault | refused => rfl

theorem phaseStep_of_compose {s : State} (h : s.ph = .compose) : phaseStep s = .next (composePhase s) := by
  rw [phaseStep, h]

@[simp] theorem unpackPhase_ph (s : State) : (unpackPhase s).ph = .interp := by rw [unpackPhase_eq]

@[simp] theorem composePhase_ph (s : State) : (composePhase s).ph = .scatter := by rw [(composePhase_spec s).1]

/-- The four rows between FETCH and SCATTER. -/
theorem State.Inv.phaseRun_fetch {s : State} (h : s.Inv) (hp : s.ph = .fetch) :
    Machine.phaseRun 4 s = .next (Machine.composePhase (Machine.interpPhase (Machine.unpackPhase s.fetched))) := by
  rw [phaseRun, h.phaseStep_fetch hp, andThen_next, phaseRun, phaseStep_of_unpack rfl, andThen_next, phaseRun,
    phaseStep_of_interp (unpackPhase_ph _), andThen_next, phaseRun, phaseStep_of_compose (interpPhase_ph _), andThen_next]
  rfl

/-- Settles O44: after the four rows each entry is the closed form's texel of the four words, which are read alike. -/
theorem tileIgnoresLeftovers : Obligations.TileIgnoresLeftovers := by
  intro s s' h h' hp hp' hc hx hy hm hl hg hg' hq hq'
  have tile : ∀ q : State, q.Inv → q.ph = .fetch → ∀ e, e < q.cfg.blockW * 4 →
      (composePhase (interpPhase (unpackPhase q.fetched))).tile[e]? =
        some (some (tileTexel q.cfg.variant q.cfg.is2bpp q.fetched.wd (texelCol q.cfg.blockW e) (texelRow q.cfg.blockW e))) := by
    intro q hinv hph
    have hgrid := (hinv.walkable (by rw [hph]; rfl)).grid
    exact (tile_spec q.fetched hgrid.blockW List.length_replicate List.length_replicate List.length_replicate).2.2
  have hwd : s'.fetched.wd = s.fetched.wd := by
    have hword : ∀ b, s'.wordOfBlock b = s.wordOfBlock b := fun b => State.wordOfBlock_congr s s' b hm hl hc
    rw [State.fetched_wd, State.fetched_wd, hx, hy, hc]
    simp only [Corners.map, hword]
  refine ⟨_, _, (runSteps_eq_phaseRun 4 hg hq).trans (h.phaseRun_fetch hp),
    (runSteps_eq_phaseRun 4 hg' hq').trans (h'.phaseRun_fetch hp'), composePhase_ph _, composePhase_ph _, fun e he => ?_⟩
  refine ⟨_, tile s h hp e (by omega), ?_⟩
  rw [tile s' h' hp' e (by rw [hc]; omega), hwd, hc]

/-! ## A command row by row (R330) -/

/-- `n` rows lead from `s` to `t`, and the core is busy before each of them. -/
def BusyRun (n : Nat) (s t : State) : Prop :=
  phaseRun n s = .next t ∧ ∀ m, m < n → ∃ u, phaseRun m s = .next u ∧ u.busy = true

theorem BusyRun.zero (s : State) : BusyRun 0 s s := ⟨rfl, fun m hm => absurd hm (Nat.not_lt_zero m)⟩

theorem BusyRun.one {s t : State} (hb : s.busy = true) (h : phaseStep s = .next t) : BusyRun 1 s t := by
  refine ⟨by rw [phaseRun, h]; rfl, fun m hm => ?_⟩
  obtain rfl : m = 0 := by omega
  exact ⟨s, rfl, hb⟩

theorem BusyRun.trans {m n : Nat} {s t u : State} (h : BusyRun m s t) (h' : BusyRun n t u) : BusyRun (m + n) s u := by
  obtain ⟨hr, hb⟩ := h
  obtain ⟨hr', hb'⟩ := h'
  refine ⟨by rw [phaseRun_add, hr]; exact hr', fun k hk => ?_⟩
  by_cases hkm : k < m
  · exact hb k hkm
  · obtain ⟨w, hw, hwb⟩ := hb' (k - m) (by omega)
    refine ⟨w, ?_, hwb⟩
    rw [show k = m + (k - m) by omega, phaseRun_add, hr]
    exact hw

theorem State.busy_of_ph {s : State} {p : Phase} (h : s.ph = p) (hp : p.status = .busy) : s.busy = true := by
  rw [State.busy, State.status, h, hp]
  rfl

/-- Five rows from FETCH that go on are busy before each. -/
theorem BusyRun.tile {s t : State} (hp : s.ph = .fetch) (h : phaseRun 5 s = .next t) : BusyRun 5 s t := by
  rw [phaseRun] at h
  obtain ⟨u, hu, h⟩ := (andThen_eq_next _ _ _).mp h
  have hfetch := hu
  rw [phaseStep_of_fetch hp] at hfetch
  have hup : u.ph = .unpack := by
    rw [fetchPhase_next hfetch]
    rfl
  rw [phaseRun, phaseStep_of_unpack hup, andThen_next, phaseRun, phaseStep_of_interp (unpackPhase_ph _), andThen_next, phaseRun,
    phaseStep_of_compose (interpPhase_ph _), andThen_next, phaseRun] at h
  obtain ⟨v, hv, h⟩ := (andThen_eq_next _ _ _).mp h
  cases h
  have run := (((one (s.busy_of_ph hp rfl) hu).trans (one (u.busy_of_ph hup rfl) (phaseStep_of_unpack hup))).trans
    (one (State.busy_of_ph (unpackPhase_ph _) rfl) (phaseStep_of_interp (unpackPhase_ph _)))).trans
    (one (State.busy_of_ph (interpPhase_ph _) rfl) (phaseStep_of_compose (interpPhase_ph _)))
  exact run.trans (one (State.busy_of_ph (composePhase_ph _) rfl) hv)

/-- The rows of a whole walk are busy: five for each tile (R254, R258). -/
theorem BusyRun.walk {s t : State} (hg : 2 ≤ s.cfg.gw) (hh : 2 ≤ s.cfg.gh) (hw : walk s = .next t) :
    BusyRun (5 * (s.cfg.gh * s.cfg.gw)) (s.enterTile (-1) (-1)) t.afterScatter := by
  obtain ⟨hrun, -, -, -, -, hfetch⟩ := phaseRun_walk s t hg hh hw
  refine ⟨hrun, fun m hm => ?_⟩
  -- row `m` belongs to tile `m / 5`, whose five rows go on because the whole run does
  obtain ⟨u, hu, hup⟩ := hfetch (m / 5) (by omega)
  obtain ⟨k, hk⟩ : ∃ k, 5 * (s.cfg.gh * s.cfg.gw) = 5 * (m / 5) + (5 + k) := ⟨5 * (s.cfg.gh * s.cfg.gw) - 5 * (m / 5) - 5, by omega⟩
  rw [hk, phaseRun_add, hu, andThen_next, phaseRun_add] at hrun
  obtain ⟨v, hv, -⟩ := (andThen_eq_next _ _ _).mp hrun
  obtain ⟨w, hw, hwb⟩ := (BusyRun.tile hup hv).2 (m % 5) (by omega)
  refine ⟨w, ?_, hwb⟩
  rw [← Nat.div_add_mod m 5, phaseRun_add, hu]
  exact hw

/-- CHECK, and ALLOC when padded, lead to the beginning of the walk. -/
theorem BusyRun.toWalk {s : State} (hp : s.ph = .check) (hc : checkCommand (configure s.cfg) = .none)
    (hd : (checkedCfg s.cfg).pad = true → (s.setCfg (checkedCfg s.cfg)).drawAlloc.1 = true) :
    BusyRun (1 + if (checkedCfg s.cfg).pad then 1 else 0) s (s.setCfg (checkedCfg s.cfg)).walkStart := by
  have hcheck := one (s.busy_of_ph hp rfl) (phaseStep_of_check hp)
  rw [checkPhase_admitted s hc] at hcheck
  cases hpad : (checkedCfg s.cfg).pad with
  | false =>
    rw [hpad] at hcheck
    rw [State.walkStart, State.setCfg_cfg, hpad]
    exact hcheck
  | true =>
    rw [hpad] at hcheck
    rw [State.walkStart, State.setCfg_cfg, hpad]
    refine hcheck.trans (one rfl ?_)
    show Host.Outcome.next (allocPhase ((s.setCfg (checkedCfg s.cfg)).enter .alloc)) = _
    rw [allocPhase_entered, hd hpad]
    rfl

/-- After the last tile the command ends, by way of COPYBACK when padded (R258, R262). -/
theorem BusyRun.toEnd {s t : State} (hx : s.bX = (s.cfg.gw : Int) - 2) (hy : s.bY = (s.cfg.gh : Int) - 2)
    (ht : endCommand s = .next t) : BusyRun (if s.cfg.pad then 1 else 0) s.afterScatter t := by
  have hlast : s.lastTile = true := by simp [State.lastTile, hx, hy]
  rw [State.afterScatter, hlast]
  rw [endCommand] at ht
  cases hpad : s.cfg.pad with
  | false =>
    rw [hpad] at ht
    cases ht
    exact zero _
  | true =>
    rw [hpad] at ht
    refine one rfl ?_
    show andThen (copyBack (s.enter .copyback)) (fun t => .next t.finish) = _
    rw [copyBack_enter, andThen_assoc]
    exact ht

theorem State.walkStart_enterTile (s : State) : s.walkStart.enterTile (-1) (-1) = s.walkStart := by
  unfold State.walkStart
  split <;> rfl

/-- A command that is admitted, row by row (R330). -/
theorem BusyRun.decomp {s t : State} (hp : s.ph = .check) (hc : checkCommand (configure s.cfg) = .none)
    (hd : (checkedCfg s.cfg).pad = true → (s.setCfg (checkedCfg s.cfg)).drawAlloc.1 = true) (ht : decomp s = .next t) :
    BusyRun (stepsOf (checkedCfg s.cfg)) s t := by
  have hg := checkedCfg_grid s.cfg hc
  rw [decomp_admitted s hc hd] at ht
  obtain ⟨w, hw, hend⟩ := (andThen_eq_next _ _ _).mp ht
  have hcfg : (s.setCfg (checkedCfg s.cfg)).walkStart.cfg = checkedCfg s.cfg := State.walkStart_cfg _
  have hgw : 2 ≤ (s.setCfg (checkedCfg s.cfg)).walkStart.cfg.gw := by rw [hcfg]; exact hg.gw
  have hgh : 2 ≤ (s.setCfg (checkedCfg s.cfg)).walkStart.cfg.gh := by rw [hcfg]; exact hg.gh
  obtain ⟨-, -, hx, hy, hwc, -⟩ := phaseRun_walk _ _ hgw hgh hw
  rw [← hwc] at hx hy
  have hrun := ((toWalk hp hc hd).trans (State.walkStart_enterTile _ ▸ BusyRun.walk hgw hgh hw)).trans (toEnd hx hy hend)
  rw [hwc, hcfg] at hrun
  rw [stepsOf, Nat.mul_assoc, Nat.mul_comm (checkedCfg s.cfg).gw]
  exact hrun

/-- CHECK never raises the code of ALLOC. -/
theorem checkCommand_ne_alloc (c : Latched) : checkCommand c ≠ .alloc := by
  unfold checkCommand gridFault
  repeat' split
  all_goals simp

/-- Settles O45: one row when CHECK refuses, two when ALLOC does, and the rows of the walk otherwise. -/
theorem rowByRowIsTheCommand : Obligations.RowByRowIsTheCommand := by
  intro s t v b hb hm hg hq ht n
  rw [exec_command s v b hb] at ht
  have hrun : BusyRun n (s.start v b) t := by
    rcases decomp_cases (s.start v b) with ⟨hc, e⟩ | ⟨hc, hp, hd, e⟩ | ⟨hc, hd⟩
    · rw [e] at ht
      cases ht
      have hn : n = 1 := (if_neg hc).trans (if_neg (checkCommand_ne_alloc _))
      rw [hn]
      exact .one rfl ((phaseStep_of_check rfl).trans (congrArg _ (checkPhase_refused hc)))
    · rw [e] at ht
      cases ht
      have hn : n = 2 := rfl
      rw [hn]
      refine (BusyRun.one rfl ((phaseStep_of_check rfl).trans (congrArg _ (checkPhase_admitted _ hc)))).trans (n := 1) ?_
      rw [hp]
      refine .one rfl ?_
      show Host.Outcome.next (allocPhase (((s.start v b).setCfg (checkedCfg (s.start v b).cfg)).enter .alloc)) = _
      rw [allocPhase_entered, hd]
      rfl
    · obtain ⟨u, hu, he, -⟩ := decomp_done (s.start v b) hc hm hd
      rw [hu] at ht
      cases ht
      have hf : t.fault = .none := by rw [he]
      have hcfg : t.cfg = checkedCfg (s.start v b).cfg := by rw [he]
      have hn : n = stepsOf (checkedCfg (s.start v b).cfg) := (if_pos hf).trans (congrArg stepsOf hcfg)
      rw [hn]
      exact .decomp rfl hc hd hu
  have hrows : ∀ m, runSteps m (s.start v b) = phaseRun m (s.start v b) := fun m => runSteps_eq_phaseRun m hg hq
  simp only [hrows]
  exact hrun

/-! ## What a busy core may store (R70, R80) -/

/-- An operation, or a piece of the walker's own, either is a whole row or stores nothing. -/
theorem State.Inv.operationStep_stores {s t : State} (h : s.Inv) (ht : Machine.operationStep s = .next t) :
    Machine.phaseStep s = .next t ∨ (t.mem = s.mem ∧ t.tmp = s.tmp) := by
  have hadvance : ∀ u : State, u.mem = s.mem → u.tmp = s.tmp → u.advance.mem = s.mem ∧ u.advance.tmp = s.tmp := by
    intro u hm htmp
    obtain ⟨p, n, e⟩ := advance_frame u
    rw [e]
    exact ⟨hm, htmp⟩
  cases hs : s.nextSlot with
  | none =>
    rw [operationStep_of_none hs] at ht
    unfold Machine.walkerStep at ht
    cases hp : s.ph <;> simp only [hp] at ht
    case fetch =>
      split at ht
      · cases ht
        exact .inr (hadvance _ rfl rfl)
      · rw [loadWords_next ht]
        exact .inr ⟨rfl, rfl⟩
    case unpack =>
      split at ht <;> cases ht
      · exact .inr (hadvance _ rfl rfl)
      · exact .inr ⟨rfl, rfl⟩
    case interp | compose =>
      cases ht
      exact .inr ⟨rfl, rfl⟩
    all_goals exact .inl ht
  | some sl =>
    rw [operationStep_of_some hs] at ht
    obtain ⟨u, hu, hv⟩ := (andThen_eq_next _ _ _).mp ht
    cases hv
    refine .inr ?_
    rcases State.nextSlot_cases hs with ⟨-, -, -, rfl⟩ | ⟨-, hi⟩
    · obtain ⟨n, rfl⟩ := exec_index_next hu
      exact hadvance _ rfl rfl
    · obtain ⟨v, hv, he, -⟩ := exec_work _ s h.sized hi
      rw [hu] at hv
      cases hv
      exact hadvance u (by rw [he]) (by rw [he])

theorem State.Inv.busyStep_stores {s t : State} (h : s.Inv) (ht : Machine.busyStep s = .next t) :
    Machine.phaseStep s = .next t ∨ (t.mem = s.mem ∧ t.tmp = s.tmp) := by
  unfold Machine.busyStep at ht
  cases hg : s.granularity <;> simp only [hg] at ht
  case operation => exact h.operationStep_stores ht
  all_goals exact .inl ht

/-- A row of an invariant core leaves host memory alone outside the bytes of `OUT` that the command writes (R70). -/
theorem State.Inv.phaseStep_outside {s t : State} (h : s.Inv) (ht : Machine.phaseStep s = .next t) (a : Nat)
    (ha : a < s.cfg.outSp.base ∨ s.cfg.outSp.base + outBytes s.cfg ≤ a) : Memory.read t.mem a = Memory.read s.mem a := by
  obtain ⟨-, -, hmem, -⟩ := phaseStep_frame ht
  by_cases hp : s.ph = .scatter
  · obtain ⟨-, he⟩ := h.config (by rw [hp]; rfl)
    rw [Machine.phaseStep, hp] at ht
    obtain ⟨u, hu, hv⟩ := (andThen_eq_next _ _ _).mp ht
    cases hv
    obtain ⟨bx, bY, f, r, p, e⟩ := afterScatter_frame u
    have hmem : u.afterScatter.mem = u.mem := by rw [e]
    rw [hmem]
    refine (h.scatterTile_spec hp hu).1.outside a fun htgt => ?_
    have hpad : (checkedCfg s.cfg).pad = false := he ▸ s.target_eq_out_iff.mp htgt
    obtain ⟨hw, hh⟩ := unpadded_admitted s.cfg hpad
    rw [← he] at hw hh
    rw [hw, hh]
    exact ha
  · by_cases hp' : s.ph = .copyback
    · obtain ⟨r, hr, -⟩ := h.tmpSize (by rw [hp']; rfl) (h.padded (.inr hp'))
      obtain ⟨m, hm, -, hout⟩ := h.phaseStep_copyback hp' hr
      rw [hm] at ht
      cases ht
      exact hout a ha
    · rw [hmem hp hp']

theorem checkPhase_tmp {s : State} (h : s.tmp = none) : (checkPhase s).tmp = none := by
  by_cases hc : checkCommand (configure s.cfg) = .none
  · rw [checkPhase_admitted s hc]
    split <;> exact h
  · rw [checkPhase_refused hc]
    rfl

/-- A row other than ALLOC, SCATTER and COPYBACK leaves `TMP` alone: CHECK releases what does not exist. -/
theorem State.Inv.phaseStep_tmp {s t : State} (h : s.Inv) (ht : Machine.phaseStep s = .next t) (h1 : s.ph ≠ .scatter)
    (h2 : s.ph ≠ .copyback) (h3 : s.ph ≠ .alloc) : t.tmp = s.tmp := by
  by_cases hp : s.ph = .check
  · have hs : s.tmp = none := h.tmpGone (by rw [hp]; simp [Phase.afterAlloc])
    rw [phaseStep_of_check hp] at ht
    cases ht
    rw [checkPhase_tmp hs, hs]
  · obtain ⟨-, -, -, htmp⟩ := phaseStep_frame ht
    exact htmp h1 h2 h3 hp

/-- The bytes of `IN` of an admitted command are outside the bytes of `OUT` (R291). -/
theorem in_outside_out {c : Latched} (hc : checkCommand (configure c) = .none) (he : c = checkedCfg c) {a : Nat}
    (h0 : c.inSp.base ≤ a) (h1 : a < c.inSp.base + 8 * c.gw * c.gh) : a < c.outSp.base ∨ c.outSp.base + outBytes c ≤ a := by
  obtain ⟨-, -, hmeet⟩ := bounds_admitted c hc
  rw [← he, ← Bool.not_eq_true, rangesMeet_iff] at hmeet
  have hn : ¬ (c.outSp.base ≤ a ∧ a < c.outSp.base + outBytes c) := fun ⟨hlo, hhi⟩ => hmeet ⟨a, h0, h1, hlo, hhi⟩
  omega

/-- Settles O51: only SCATTER and COPYBACK store to host memory, inside the bytes of `OUT`, which keep clear of `IN`. -/
theorem storesOnlyInsideOut : Obligations.StoresOnlyInsideOut := by
  intro s t h hb hq ht
  rw [step_busy hb fun a rest hq' => by rw [hq] at hq'; cases hq'] at ht
  have outside : ∀ a, (a < s.cfg.outSp.base ∨ s.cfg.outSp.base + outBytes s.cfg ≤ a) →
      Memory.read t.mem a = Memory.read s.mem a := by
    rcases h.busyStep_stores ht with hrow | ⟨hm, -⟩
    · exact h.phaseStep_outside hrow
    · exact fun a _ => by rw [hm]
  refine ⟨fun a ha => outside a ?_, fun hp a h0 h1 => outside a ?_, fun h1 h2 => ?_⟩
  · unfold outBytes
    omega
  · obtain ⟨hc, he⟩ := h.config hp
    exact in_outside_out hc he h0 h1
  · rcases h.busyStep_stores ht with hrow | ⟨hm, htmp⟩
    · obtain ⟨-, -, hmem, -⟩ := phaseStep_frame hrow
      exact ⟨hmem h1 h2, h.phaseStep_tmp hrow h1 h2⟩
    · exact ⟨hm, fun _ => htmp⟩

end Sys2Proof.Machine
end

section
/-! A phase operation by operation (R258, R328): its pieces, one after the other, are the row. -/

namespace Sys2Proof.Machine

/-- A step appended to a run. -/
theorem runSteps_succ (n : Nat) (s : State) : runSteps (n + 1) s = andThen (runSteps n s) step := by
  induction n generalizing s with
  | zero =>
    show andThen (step s) (runSteps 0) = step s
    cases step s <;> rfl
  | succ n ih =>
    rw [runSteps, runSteps, andThen_assoc]
    congr 1
    funext t
    exact ih t

/-- What a piece of a phase leaves alone: the phase, the configuration, and how the core is driven. -/
structure State.SameControl (s t : State) : Prop where
  ph : t.ph = s.ph
  cfg : t.cfg = s.cfg
  granularity : t.granularity = s.granularity
  hostQ : t.hostQ = s.hostQ

theorem State.SameControl.trans {s t u : State} (h : s.SameControl t) (h' : t.SameControl u) : s.SameControl u :=
  ⟨h'.ph.trans h.ph, h'.cfg.trans h.cfg, h'.granularity.trans h.granularity, h'.hostQ.trans h.hostQ⟩

theorem iter_sameControl {f : Nat → State → State} (hf : ∀ i u, State.SameControl u (f i u)) (n : Nat) (s : State) :
    s.SameControl (iter n f s) :=
  iter_keeps (fun u => s.SameControl u) n f s ⟨rfl, rfl, rfl, rfl⟩ fun _ _ _ hu => hu.trans (hf _ _)

section
variable {f : Nat → State → State} {s : State} (hf : ∀ i u, State.SameControl u (f i u)) (hb : s.busy = true)
  (hg : s.granularity = .operation) (hq : s.hostQ = []) (h0 : s.seq = 0)
include hf hb hg hq h0

/-- Pieces that each go on inside the phase. -/
theorem runSteps_pieces (n : Nat)
    (hstep : ∀ i, i < n → ∀ u, s.SameControl u → operationStep (u.atSeq i) = .next ((f i u).atSeq (i + 1))) :
    runSteps n s = .next ((iter n f s).atSeq n) := by
  induction n with
  | zero =>
    show Host.Outcome.next s = .next (s.atSeq 0)
    rw [← h0]
    rfl
  | succ n ih =>
    have hu := iter_sameControl hf n s
    have hbusy : ((iter n f s).atSeq n).busy = true := by
      rw [State.busy, State.status, State.atSeq_ph, hu.ph]
      exact hb
    rw [runSteps_succ, ih fun i hi => hstep i (by omega), andThen_next,
      step_operation _ hbusy (hu.granularity.trans hg) (hu.hostQ.trans hq), hstep n (by omega) _ hu]
    rfl

/-- The pieces of a whole phase: the last one enters the next phase. -/
theorem runSteps_phase (n : Nat) (p : Phase)
    (hstep : ∀ i, i ≤ n → ∀ u, s.SameControl u → operationStep (u.atSeq i) = .next ((f i u).atSeq i).advance)
    (hin : ∀ i, i < n → ∀ u, s.SameControl u → (u.atSeq i).advance = u.atSeq (i + 1))
    (hlast : ∀ u, s.SameControl u → (u.atSeq n).advance = u.enter p) :
    runSteps (n + 1) s = .next ((iter (n + 1) f s).enter p) := by
  have hrun := runSteps_pieces hf hb hg hq h0 n fun i hi u hu =>
    (hstep i (by omega) u hu).trans (congrArg _ (hin i hi _ (hu.trans (hf i u))))
  have hu := iter_sameControl hf n s
  have hbusy : ((iter n f s).atSeq n).busy = true := by
    rw [State.busy, State.status, State.atSeq_ph, hu.ph]
    exact hb
  rw [runSteps_succ, hrun, andThen_next, step_operation _ hbusy (hu.granularity.trans hg) (hu.hostQ.trans hq),
    hstep n (by omega) _ hu, hlast _ (hu.trans (hf n _))]
  rfl

end

/-! ## The pieces of each phase -/

/-- The pieces of FETCH before the words are read: the block indices, then the four storage indices. -/
def fetchPiece : Nat → State → State
  | 0, s => s.beginTile
  | i + 1, s => s.setIx (cornerAt i) (s.indexOf (s.blk.get (cornerAt i)))

/-- The pieces of UNPACK: the grids cleared, the two colours of each block, the four unpackings. -/
def unpackPiece (i : Nat) (s : State) : State :=
  if i = 0 then s.clearGrids
  else if i ≤ 8 then
    if i % 2 = 1 then s.setCa (cornerAt ((i - 1) / 2)) (extractA (s.wd.get (cornerAt ((i - 1) / 2))).col)
    else s.setCb (cornerAt ((i - 1) / 2)) (extractB s.cfg.variant (s.wd.get (cornerAt ((i - 1) / 2))).col)
  else s.unpackBlock (cornerAt (i - 9))

/-- The pieces of INTERP: the two slots. -/
def interpPiece (i : Nat) (s : State) : State := s.interpolate s.cfg.is2bpp (if i = 0 then .a else .b)

/-- The pieces of COMPOSE: of each texel the weight, then the pixel. -/
def composePiece (i : Nat) (s : State) : State :=
  if i % 2 = 0 then
    s.setWeight (weightOf s.cfg.is2bpp s.grids (texelPos s.cfg.blockW (i / 2)).1 (texelPos s.cfg.blockW (i / 2)).2)
  else s.setTexel (i / 2) (composeTexel s.cfg.variant s.weight (colorAt .a s.ua (i / 2)) (colorAt .b s.ub (i / 2)))

theorem fetchPiece_sameControl (i : Nat) (s : State) : s.SameControl (fetchPiece i s) := by
  cases i <;> exact ⟨rfl, rfl, rfl, rfl⟩

theorem unpackPiece_sameControl (i : Nat) (s : State) : s.SameControl (unpackPiece i s) := by
  unfold unpackPiece
  split
  · exact ⟨rfl, rfl, rfl, rfl⟩
  · split
    · split <;> exact ⟨rfl, rfl, rfl, rfl⟩
    · exact ⟨rfl, rfl, rfl, rfl⟩

theorem interpPiece_sameControl (i : Nat) (s : State) : s.SameControl (interpPiece i s) := by
  unfold interpPiece
  split <;> exact ⟨rfl, rfl, rfl, rfl⟩

theorem composePiece_sameControl (i : Nat) (s : State) : s.SameControl (composePiece i s) := by
  unfold composePiece
  split <;> exact ⟨rfl, rfl, rfl, rfl⟩

theorem iter_fetchPiece (s : State) : iter 5 fetchPiece s = s.beginTile.indexAll := rfl

theorem iter_unpackPiece (s : State) : (iter 13 unpackPiece s).enter .interp = unpackPhase s := by
  simp [iter, unpackPiece, cornerAt, unpackPhase, State.extract]

theorem iter_interpPiece (s : State) : (iter 2 interpPiece s).enter .compose = interpPhase s := rfl

theorem iter_composePiece (n : Nat) (s : State) : iter (2 * n) composePiece s = iter n (fun j t => t.composeEntry j) s := by
  induction n with
  | zero => rfl
  | succ n ih =>
    rw [show 2 * (n + 1) = 2 * n + 1 + 1 from rfl, iter_succ, iter_succ, iter_succ, ih, composePiece, composePiece,
      if_neg (by omega), if_pos (by omega), show (2 * n + 1) / 2 = n by omega, show 2 * n / 2 = n by omega]
    rfl

/-- The index pieces of FETCH go on (R257). -/
theorem operationStep_fetchPiece {u : State} (hp : u.ph = .fetch) (ho : u.orderDefined = true) {i : Nat} (hi : i < 5) :
    operationStep (u.atSeq i) = .next ((fetchPiece i u).atSeq (i + 1)) := by
  have hadv : ∀ v : State, v.ph = .fetch → (v.atSeq i).advance = v.atSeq (i + 1) := fun v hv =>
    advance_inside _ (by simp [hv]) (by simp [hv]) (by simp [hv])
  cases i with
  | zero =>
    have hs : (u.atSeq 0).nextSlot = none := by simp [State.nextSlot, hp]
    rw [operationStep_of_none hs, walkerStep, State.atSeq_ph, hp]
    exact congrArg _ (hadv u.beginTile hp)
  | succ i =>
    have hs : (u.atSeq (i + 1)).nextSlot = some (.index (cornerAt i)) := by
      simp only [State.nextSlot, State.atSeq_ph, hp, State.atSeq_seq, Nat.add_sub_cancel]
      exact if_pos (by omega)
    exact (operationStep_exec hs (exec_index (u.atSeq (i + 1)) (cornerAt i) ho)).trans
      (congrArg _ (hadv (fetchPiece (i + 1) u) hp))

theorem operationStep_unpackPiece {u : State} (hp : u.ph = .unpack) {i : Nat} (hi : i ≤ 12) :
    operationStep (u.atSeq i) = .next ((unpackPiece i u).atSeq i).advance := by
  unfold unpackPiece
  by_cases h0 : i = 0
  · subst h0
    have hs : (u.atSeq 0).nextSlot = none := by simp [State.nextSlot, hp]
    rw [operationStep_of_none hs, walkerStep, State.atSeq_ph, hp]
    rfl
  · rw [if_neg h0]
    by_cases h8 : i ≤ 8
    · rw [if_pos h8]
      by_cases hodd : i % 2 = 1
      · have hs : (u.atSeq i).nextSlot = some (.colA (cornerAt ((i - 1) / 2))) := by
          simp only [State.nextSlot, State.atSeq_ph, hp, State.atSeq_seq]
          exact (if_pos (by omega)).trans (if_pos hodd)
        rw [if_pos hodd]
        exact operationStep_exec hs (exec_colA _ _)
      · have hs : (u.atSeq i).nextSlot = some (.colB (cornerAt ((i - 1) / 2))) := by
          simp only [State.nextSlot, State.atSeq_ph, hp, State.atSeq_seq]
          exact (if_pos (by omega)).trans (if_neg hodd)
        rw [if_neg hodd]
        exact operationStep_exec hs (exec_colB _ _)
    · have hs : (u.atSeq i).nextSlot = some (.mod (cornerAt (i - 9))) := by
        simp only [State.nextSlot, State.atSeq_ph, hp, State.atSeq_seq]
        exact (if_neg (by omega)).trans (if_pos (by omega))
      rw [if_neg h8]
      exact operationStep_exec hs (exec_mod _ _)

theorem operationStep_interpPiece {u : State} (hp : u.ph = .interp) {i : Nat} (hi : i ≤ 1) :
    operationStep (u.atSeq i) = .next ((interpPiece i u).atSeq i).advance := by
  have hs : (u.atSeq i).nextSlot = some (.interp (if i = 0 then .a else .b)) := by
    obtain rfl | rfl : i = 0 ∨ i = 1 := by omega
    all_goals simp [State.nextSlot, hp]
  refine (operationStep_exec hs (exec_interp _ _)).trans ?_
  unfold interpPiece
  split <;> rfl

theorem operationStep_composePiece {u : State} (hp : u.ph = .compose) {i : Nat} (hi : i < 8 * u.cfg.blockW) :
    operationStep (u.atSeq i) = .next ((composePiece i u).atSeq i).advance := by
  unfold composePiece
  by_cases heven : i % 2 = 0
  · have hs : (u.atSeq i).nextSlot = some (.resolve (texelPos u.cfg.blockW (i / 2)).1 (texelPos u.cfg.blockW (i / 2)).2) := by
      simp only [State.nextSlot, State.atSeq_ph, hp, State.atSeq_seq, State.atSeq_cfg]
      exact (if_pos hi).trans (if_pos heven)
    rw [if_pos heven]
    exact operationStep_exec hs (exec_resolve _ _ _)
  · have hs : (u.atSeq i).nextSlot = some (.compose (i / 2)) := by
      simp only [State.nextSlot, State.atSeq_ph, hp, State.atSeq_seq, State.atSeq_cfg]
      exact (if_pos hi).trans (if_neg heven)
    rw [if_neg heven]
    exact operationStep_exec hs (exec_compose _ _)

/-! ## The rows -/

theorem loadWords_atSeq (s : State) (n : Nat) : loadWords (s.atSeq n) = loadWords s := rfl

section
variable {s : State} (hb : s.busy = true) (hg : s.granularity = .operation) (hq : s.hostQ = []) (h0 : s.seq = 0)
include hb hg hq h0

theorem runSteps_fetch (hp : s.ph = .fetch) (ho : s.orderDefined = true) : runSteps 6 s = fetchPhase s := by
  have hrun := runSteps_pieces fetchPiece_sameControl hb hg hq h0 5 fun i hi u hu =>
    operationStep_fetchPiece (hu.ph.trans hp) (by rw [State.orderDefined, hu.cfg]; exact ho) hi
  rw [iter_fetchPiece] at hrun
  have hu := iter_sameControl fetchPiece_sameControl 5 s
  rw [iter_fetchPiece] at hu
  have hph : (s.beginTile.indexAll.atSeq 5).ph = .fetch := hu.ph.trans hp
  have hs : (s.beginTile.indexAll.atSeq 5).nextSlot = none := by
    simp only [State.nextSlot, hph, State.atSeq_seq]
    exact if_neg (by omega)
  rw [runSteps_succ, hrun, andThen_next,
    step_operation _ (State.busy_of_ph hph rfl) (hu.granularity.trans hg) (hu.hostQ.trans hq), operationStep_of_none hs,
    walkerStep, hph, fetchPhase, if_pos ho]
  exact (if_neg (Nat.succ_ne_zero 4)).trans (loadWords_atSeq _ 5)

theorem runSteps_unpack (hp : s.ph = .unpack) : runSteps 13 s = .next (unpackPhase s) := by
  rw [← iter_unpackPiece]
  exact runSteps_phase unpackPiece_sameControl hb hg hq h0 12 .interp
    (fun _ hi _ hu => operationStep_unpackPiece (hu.ph.trans hp) hi)
    (fun i hi u hu => advance_inside _ (fun _ => hi) (by simp [hu.ph, hp]) (by simp [hu.ph, hp]))
    (fun u hu => advance_unpack _ (hu.ph.trans hp) (Nat.le_refl 12))

theorem runSteps_interp (hp : s.ph = .interp) : runSteps 2 s = .next (interpPhase s) := by
  rw [← iter_interpPiece]
  exact runSteps_phase interpPiece_sameControl hb hg hq h0 1 .compose
    (fun _ hi _ hu => operationStep_interpPiece (hu.ph.trans hp) hi)
    (fun i hi u hu => advance_inside _ (by simp [hu.ph, hp]) (fun _ => hi) (by simp [hu.ph, hp]))
    (fun u hu => advance_interp _ (hu.ph.trans hp) (Nat.le_refl 1))

theorem runSteps_compose (hp : s.ph = .compose) (hw : 0 < s.cfg.blockW) :
    runSteps (8 * s.cfg.blockW) s = .next (composePhase s) := by
  obtain ⟨n, hn⟩ : ∃ n, 8 * s.cfg.blockW = n + 1 := ⟨8 * s.cfg.blockW - 1, by omega⟩
  have hrun := runSteps_phase composePiece_sameControl hb hg hq h0 n .scatter
    (fun i hi u hu => operationStep_composePiece (hu.ph.trans hp) (by rw [hu.cfg]; omega))
    (fun i hi u hu => advance_inside _ (by simp [hu.ph, hp]) (by simp [hu.ph, hp])
      (fun _ => by rw [State.atSeq_cfg, hu.cfg, State.atSeq_seq]; omega))
    (fun u hu => advance_compose _ (hu.ph.trans hp) (by rw [State.atSeq_cfg, hu.cfg, State.atSeq_seq]; omega))
  rw [← hn, show 8 * s.cfg.blockW = 2 * (s.cfg.blockW * 4) by omega, iter_composePiece] at hrun
  rw [show 8 * s.cfg.blockW = 2 * (s.cfg.blockW * 4) by omega]
  exact hrun

omit h0 in
/-- A phase of one piece is a step. -/
theorem runSteps_walker (hs : s.nextSlot = none) (hw : walkerStep s = phaseStep s) : runSteps 1 s = phaseStep s := by
  rw [runSteps_succ, runSteps, andThen_next, step_operation s hb hg hq, operationStep_of_none hs, hw]

end

/-- Settles O46: phase by phase, the pieces are those of the row in its order. -/
theorem operationsMakeThePhase : Obligations.OperationsMakeThePhase := by
  intro s t h hb hg hq h0 ht
  rw [← ht]
  cases hp : s.ph with
  | idle | done | failed => rw [State.busy, State.status, hp] at hb; cases hb
  | check | alloc | scatter | copyback =>
    exact runSteps_walker hb hg hq (by rw [State.nextSlot, hp]) (by rw [walkerStep, hp])
  | fetch =>
    have hw := h.walkable (by rw [hp]; rfl)
    rw [phaseStep_of_fetch hp]
    exact runSteps_fetch hb hg hq h0 hp hw.order
  | unpack => rw [phaseStep_of_unpack hp]; exact runSteps_unpack hb hg hq h0 hp
  | interp => rw [phaseStep_of_interp hp]; exact runSteps_interp hb hg hq h0 hp
  | compose =>
    have hgrid := (h.walkable (by rw [hp]; rfl)).grid
    rw [phaseStep_of_compose hp]
    exact runSteps_compose hb hg hq h0 hp (by rw [hgrid.blockW]; unfold blockWidth; split <;> omega)

end Sys2Proof.Machine
end

section
/-! The colour operations and the modulation operations, one by one. -/

namespace Sys2Proof.Machine

/-! ## The colour extractor (R121 to R126) -/

theorem byte_eq_ofNat {v : Byte} {n : Nat} (h : v.toNat = n) : v = BitVec.ofNat 8 n := by
  rw [← h, BitVec.ofNat_toNat, BitVec.setWidth_eq]

theorem widen5_eq_ofNat (v : BitVec 5) : widen5 v = BitVec.ofNat 8 v.toNat := (BitVec.ofNat_toNat 8 v).symm

theorem widen4_eq_ofNat (v : BitVec 4) : widen4 v = BitVec.ofNat 8 (2 * v.toNat + v.toNat / 8) :=
  byte_eq_ofNat (widen4_eq v)

theorem widen3_eq_ofNat (v : BitVec 3) : widen3 v = BitVec.ofNat 8 (4 * v.toNat + v.toNat / 2) :=
  byte_eq_ofNat (widen3_eq v)

theorem alpha3_zero_eq_ofNat (v : BitVec 3) : alpha3 v 0 = BitVec.ofNat 8 (2 * v.toNat) := byte_eq_ofNat (alpha3_eq v 0)

theorem alpha3_one_eq_ofNat (v : BitVec 3) : alpha3 v 1 = BitVec.ofNat 8 (2 * v.toNat + 1) := byte_eq_ofNat (alpha3_eq v 1)

theorem State.setCa_caWritten (s : State) (k : Corner) (v : Pixel32) : s.CaWritten (s.setCa k v) k v :=
  ⟨rfl, corners_get_set_same s.ca k v, fun k' h => corners_get_set_other s.ca k k' v h⟩

theorem State.setCb_cbWritten (s : State) (k : Corner) (v : Pixel32) : s.CbWritten (s.setCb k v) k v :=
  ⟨rfl, corners_get_set_same s.cb k v, fun k' h => corners_get_set_other s.cb k k' v h⟩

theorem exec_colaOpq (s : State) (k : Corner) (r g : BitVec 5) (b : BitVec 4) :
    exec (.colaOpq k r g b) s = .next (s.setCa k (colaOpq r g b)) := rfl

theorem exec_colaTrn (s : State) (k : Corner) (a : BitVec 3) (r g : BitVec 4) (b : BitVec 3) :
    exec (.colaTrn k a r g b) s = .next (s.setCa k (colaTrn a r g b)) := rfl

theorem exec_colbOpq (s : State) (k : Corner) (r g b : BitVec 5) :
    exec (.colbOpq k r g b) s = .next (s.setCb k (colbOpq r g b)) := rfl

theorem exec_colbTrnI (s : State) (k : Corner) (a : BitVec 3) (r g b : BitVec 4) :
    exec (.colbTrnI k a r g b) s = .next (s.setCb k (colbTrnI a r g b)) := rfl

theorem exec_colbTrnII (s : State) (k : Corner) (a : BitVec 3) (r g b : BitVec 4) :
    exec (.colbTrnII k a r g b) s = .next (s.setCb k (colbTrnII a r g b)) := rfl

/-- Settles O8: each form writes its own colour, whose channels are the widened fields. -/
theorem colourAOperations : Obligations.ColourAOperations := by
  intro s k
  refine ⟨fun r g b => ⟨_, exec_colaOpq s k r g b, ?_⟩, fun a r g b => ⟨_, exec_colaTrn s k a r g b, ?_⟩⟩
  · rw [← widen5_eq_ofNat, ← widen5_eq_ofNat, ← widen4_eq_ofNat]
    exact s.setCa_caWritten k _
  · rw [← widen4_eq_ofNat, ← widen4_eq_ofNat, ← widen3_eq_ofNat, ← alpha3_zero_eq_ofNat]
    exact s.setCa_caWritten k _

/-- Settles O9: each form writes its own colour; the translucent forms differ in the low bit of alpha. -/
theorem colourBOperations : Obligations.ColourBOperations := by
  intro s k
  refine ⟨fun r g b => ⟨_, exec_colbOpq s k r g b, ?_⟩, fun a r g b => ⟨_, exec_colbTrnI s k a r g b, ?_⟩,
    fun a r g b => ⟨_, exec_colbTrnII s k a r g b, ?_⟩⟩
  · simp only [← widen5_eq_ofNat]
    exact s.setCb_cbWritten k _
  · rw [← widen4_eq_ofNat, ← widen4_eq_ofNat, ← widen4_eq_ofNat, ← alpha3_zero_eq_ofNat]
    exact s.setCb_cbWritten k _
  · rw [← widen4_eq_ofNat, ← widen4_eq_ofNat, ← widen4_eq_ofNat, ← alpha3_one_eq_ofNat]
    exact s.setCb_cbWritten k _

theorem alpha3_zero_even (a : BitVec 3) : (alpha3 a 0).toNat % 2 = 0 ∧ (alpha3 a 0).toNat ≤ 14 := by
  have ha := a.isLt
  have he : (alpha3 a 0).toNat = 2 * a.toNat := alpha3_eq a 0
  omega

theorem alpha3_one_odd (a : BitVec 3) : (alpha3 a 1).toNat % 2 = 1 := by
  have he : (alpha3 a 1).toNat = 2 * a.toNat + 1 := alpha3_eq a 1
  omega

/-- Settles O10: the colour written is that of its form, whose channels are on the scale. -/
theorem extractedColoursOnScale : Obligations.ExtractedColoursOnScale := by
  intro s t k
  refine ⟨fun r g b h => ?_, fun a r g b h => ?_, fun r g b h => ?_, fun a r g b h => ?_, fun a r g b h => ?_⟩
  · cases h
    rw [(s.setCa_caWritten k _).2.1]
    exact ⟨colaOpq_onScale r g b, rfl⟩
  · cases h
    rw [(s.setCa_caWritten k _).2.1]
    exact ⟨colaTrn_onScale a r g b, alpha3_zero_even a⟩
  · cases h
    rw [(s.setCb_cbWritten k _).2.1]
    exact ⟨colbOpq_onScale r g b, rfl⟩
  · cases h
    rw [(s.setCb_cbWritten k _).2.1]
    exact ⟨colbTrnI_onScale a r g b, alpha3_zero_even a⟩
  · cases h
    rw [(s.setCb_cbWritten k _).2.1]
    exact ⟨colbTrnII_onScale a r g b, alpha3_one_odd a⟩

/-! ## Codes read from the bits of a modulation word -/

theorem field_bit_lt {w : Nat} (v : BitVec w) (i : Nat) : field v i i < 2 := by
  rw [field, Nat.add_sub_cancel_left]
  exact Nat.mod_lt _ (by decide)

theorem toNat_getLsbD {w : Nat} (v : BitVec w) (i : Nat) : (v.getLsbD i).toNat = field v i i := by
  have h := field_bit_lt v i
  rw [getLsbD_eq_field]
  obtain e | e : field v i i = 0 ∨ field v i i = 1 := by omega
  all_goals rw [e]; rfl

/-- A 2-bit code is the field of its two bits (R95, R97). -/
theorem code2_eq_field (m : Word32) (i : Nat) : code2 m i = field m (2 * i + 1) (2 * i) := by
  rw [code2, toNat_extractLsb', field, show 2 * i + 1 + 1 - 2 * i = 2 by omega]

theorem code2_eq_bits (m : Word32) (i : Nat) :
    code2 m i = 2 * (m.getLsbD (2 * i + 1)).toNat + (m.getLsbD (2 * i)).toNat := by
  rw [code2_eq_field, toNat_getLsbD, toNat_getLsbD]
  simp only [field, show 2 * i + 1 + 1 - 2 * i = 2 by omega, Nat.add_sub_cancel_left, Nat.pow_succ, ← Nat.div_div_eq_div_mul]
  omega

theorem getLsbD_putBit (v : Word32) (i : Nat) (b : Bool) (hi : i < 32) (j : Nat) :
    (putBit v i b).getLsbD j = if j = i then b else v.getLsbD j := by
  by_cases hj : j = i
  · subst hj
    cases b <;> simp [putBit, hi]
  · have hij : ¬i = j := fun e => hj e.symm
    rw [if_neg hj]
    cases b
    · simp only [putBit, Bool.false_eq_true, if_false, BitVec.getLsbD_and, BitVec.getLsbD_not, BitVec.getLsbD_twoPow, hij]
      simpa using fun h => BitVec.lt_of_getLsbD h
    · simp [putBit, BitVec.getLsbD_twoPow, hij]

/-- Copying the upper bit of code `n` over its lower bit changes this code alone (R146). -/
theorem code2_putBit (v : Word32) (n : Nat) (hn : n < 16) (i : Nat) :
    code2 (putBit v (2 * n) (v.getLsbD (2 * n + 1))) i =
      if i = n then 3 * (v.getLsbD (2 * n + 1)).toNat else code2 v i := by
  rw [code2_eq_bits, getLsbD_putBit _ _ _ (by omega), getLsbD_putBit _ _ _ (by omega), if_neg (by omega)]
  by_cases h : i = n
  · subst h
    rw [if_pos rfl, if_pos rfl]
    omega
  · rw [if_neg (by omega), if_neg h, code2_eq_bits]

/-- The adjusted bits of MOD2.HV (R146): code 0 takes `mod[1]` twice. -/
theorem code2_subMode_hv {m : Word32} (hf : field m 0 0 = 0) (i : Nat) :
    code2 (subMode m).2 i = if i = 0 then 3 * field m 1 1 else code2 m i := by
  have hflag : subFlag m = false := by rw [subFlag, getLsbD_eq_field, hf]; rfl
  rw [subMode, hflag, ← toNat_getLsbD]
  exact code2_putBit m 0 (by omega) i

/-- The adjusted bits of MOD2.H and MOD2.V (R146): code 10 also takes `mod[21]` twice. -/
theorem code2_subMode_axis {m : Word32} (hf : field m 0 0 = 1) (i : Nat) :
    code2 (subMode m).2 i = if i = 0 then 3 * field m 1 1 else if i = 10 then 3 * field m 21 21 else code2 m i := by
  have hflag : subFlag m = true := by rw [subFlag, getLsbD_eq_field, hf]; rfl
  rw [subMode, hflag]
  have h1 : ((putBit m 20 (m.getLsbD 21)).getLsbD 1).toNat = field m 1 1 := by
    rw [getLsbD_putBit _ _ _ (by omega), if_neg (by omega), toNat_getLsbD]
  have h10 : code2 (putBit m 20 (m.getLsbD 21)) i = if i = 10 then 3 * field m 21 21 else code2 m i := by
    rw [← toNat_getLsbD m 21]
    exact code2_putBit m 10 (by omega) i
  rw [← h1, ← h10]
  exact code2_putBit _ 0 (by omega) i

/-! ## The modulation unpacker (R142 to R152) -/

theorem quadrantOrigin_eq (w : Nat) (k : Corner) : quadrantOrigin w k = quadrant w k := by cases k <;> rfl

theorem quadrant_bounds (w : Nat) (k : Corner) :
    (quadrant w k).1 ≤ w ∧ ((quadrant w k).2 = 0 ∨ (quadrant w k).2 = 4) := by
  cases k <;> simp [quadrant]

/-- An entry of the code grid after a fill. -/
theorem fillGrids_mv_getElem? (w : Nat) (k : Corner) (f : Nat → Nat → Option Nat) (tag : ModTag) (g : Grids) (n : Nat) :
    (fillGrids w k f tag g).mv[n]? = g.mv[n]?.map fun e =>
      if (quadrant w k).1 ≤ n / 8 ∧ n / 8 < (quadrant w k).1 + w ∧ (quadrant w k).2 ≤ n % 8 ∧ n % 8 < (quadrant w k).2 + 4
      then (f (n / 8 - (quadrant w k).1) (n % 8 - (quadrant w k).2)).or e else e := by
  simp only [fillGrids, fillQuadrant_getElem?]

/-- An entry of the tag grid after a fill. -/
theorem fillGrids_mm_getElem? (w : Nat) (k : Corner) (f : Nat → Nat → Option Nat) (tag : ModTag) (g : Grids) (n : Nat) :
    (fillGrids w k f tag g).mm[n]? = g.mm[n]?.map fun e =>
      if (quadrant w k).1 ≤ n / 8 ∧ n / 8 < (quadrant w k).1 + w ∧ (quadrant w k).2 ≤ n % 8 ∧ n % 8 < (quadrant w k).2 + 4
      then some tag else e := by
  simp only [fillGrids, fillQuadrant_getElem?]

/-- A fill of the quadrant of a block is what `Unpacked` asks of the grids. -/
theorem State.setGrids_unpacked (s : State) {w : Nat} (hw : w ≤ 8) (k : Corner) {f code : Nat → Nat → Option Nat}
    (tag : ModTag) (hf : ∀ tx ty, tx < w → ty < 4 → f tx ty = code tx ty) :
    s.Unpacked (s.setGrids (fillGrids w k f tag s.grids).mv (fillGrids w k f tag s.grids).mm) w k code tag := by
  obtain ⟨hx, hy⟩ := quadrant_bounds w k
  obtain ⟨hlmv, hlmm⟩ := fillGrids_length w k f tag s.grids
  refine ⟨rfl, hlmv, hlmm, fun lv lm tx ty htx hty => ?_, fun sx sy hsy hout => ?_⟩
  · rw [quadrantOrigin_eq]
    intro n
    have hcol : n / 8 = (quadrant w k).1 + tx := by omega
    have hrow : n % 8 = (quadrant w k).2 + ty := by omega
    have hin : (quadrant w k).1 ≤ n / 8 ∧ n / 8 < (quadrant w k).1 + w ∧ (quadrant w k).2 ≤ n % 8 ∧
        n % 8 < (quadrant w k).2 + 4 := by omega
    have hmm : s.grids.mm[n]? = some (s.grids.mm[n]'(by show n < s.mm.length; omega)) := List.getElem?_eq_getElem _
    have hmv : s.grids.mv[n]? = some (s.grids.mv[n]'(by show n < s.mv.length; omega)) := List.getElem?_eq_getElem _
    constructor
    · show (fillGrids w k f tag s.grids).mm[n]? = _
      rw [fillGrids_mm_getElem?, hmm, Option.map_some, if_pos hin]
    · show (fillGrids w k f tag s.grids).mv[n]? = match code tx ty with | some c => some (some c) | none => s.grids.mv[n]?
      rw [fillGrids_mv_getElem?, hmv, Option.map_some, if_pos hin, hcol, hrow, Nat.add_sub_cancel_left,
        Nat.add_sub_cancel_left, hf tx ty htx hty]
      cases code tx ty <;> rfl
  · rw [quadrantOrigin_eq] at hout
    have hcol : (8 * sx + sy) / 8 = sx := by omega
    have hrow : (8 * sx + sy) % 8 = sy := by omega
    constructor
    · show (fillGrids w k f tag s.grids).mm[8 * sx + sy]? = s.grids.mm[8 * sx + sy]?
      rw [fillGrids_mm_getElem?, hcol, hrow]
      simp only [if_neg hout, Option.map_id']
    · show (fillGrids w k f tag s.grids).mv[8 * sx + sy]? = s.grids.mv[8 * sx + sy]?
      rw [fillGrids_mv_getElem?, hcol, hrow]
      simp only [if_neg hout, Option.map_id']

/-- Settles O12: the weight of a code is three times it, less one above 3. -/
theorem standardModulation4 : Obligations.StandardModulation4 := by
  refine fun s k m => ⟨_, rfl, s.setGrids_unpacked (by omega) k .direct fun tx ty _ _ => ?_⟩
  rw [std4, stdWeight, code2_eq_field, Nat.mul_comm]

/-- Settles O13: the weight of a code is its entry of the punch-through table. -/
theorem punchThroughModulation4 : Obligations.PunchThroughModulation4 := by
  refine fun s k m => ⟨_, rfl, s.setGrids_unpacked (by omega) k .direct fun tx ty _ _ => ?_⟩
  rw [pt4, ptWeightCode, code2_eq_field]

/-- Settles O14: `col[0]` is the mode bit, and a texel's bit gives its code. -/
theorem directModulation2 : Obligations.DirectModulation2 := by
  refine ⟨fun k m col h => ?_, fun s k m => ⟨_, rfl, s.setGrids_unpacked (by omega) k .direct fun tx ty _ _ => ?_⟩⟩
  · have hmode : modeBit col = false := by rw [modeBit, getLsbD_eq_field, h]; rfl
    simp [decodeMod, hmode]
  · simp only [direct2, code1, getLsbD_eq_field, decide_eq_true_eq]

theorem storedNumber_eq_zero {tx ty : Nat} (hp : (tx + ty) % 2 = 0) : storedNumber tx ty = 0 ↔ tx = 0 ∧ ty = 0 := by
  unfold storedNumber
  obtain ⟨q, e⟩ := Nat.even_or_odd' tx
  omega

theorem storedNumber_eq_ten {tx ty : Nat} (hp : (tx + ty) % 2 = 0) (hx : tx < 8) :
    storedNumber tx ty = 10 ↔ tx = 4 ∧ ty = 2 := by
  unfold storedNumber
  obtain ⟨q, e⟩ := Nat.even_or_odd' tx
  omega

theorem selectable2_of_even (bits : Word32) {tx ty : Nat} (hp : (tx + ty) % 2 = 0) :
    selectable2 bits tx ty = some (code2 bits (storedNumber tx ty)) := by
  simp [selectable2, oddParity, hp]

theorem selectable2_of_odd (bits : Word32) {tx ty : Nat} (hp : (tx + ty) % 2 = 1) : selectable2 bits tx ty = none := by
  simp [selectable2, oddParity, hp]

/-- The codes of MOD2.HV (R147, R150). -/
theorem selectable2_hv {m : Word32} (hf : field m 0 0 = 0) (tx ty : Nat) :
    selectable2 (subMode m).2 tx ty =
      if (tx + ty) % 2 = 1 then none
      else if tx = 0 ∧ ty = 0 then some (3 * field m 1 1)
      else some (field m (2 * (4 * ty + tx / 2) + 1) (2 * (4 * ty + tx / 2))) := by
  rcases Nat.mod_two_eq_zero_or_one (tx + ty) with hp | hp
  · rw [selectable2_of_even _ hp, if_neg (by omega), code2_subMode_hv hf, ← apply_ite some, code2_eq_field]
    simp only [storedNumber_eq_zero hp]
    rfl
  · rw [selectable2_of_odd _ hp, if_pos hp]

/-- The codes of MOD2.H and MOD2.V (R148 to R150). -/
theorem selectable2_axis {m : Word32} (hf : field m 0 0 = 1) {tx ty : Nat} (hx : tx < 8) :
    selectable2 (subMode m).2 tx ty =
      if (tx + ty) % 2 = 1 then none
      else if tx = 0 ∧ ty = 0 then some (3 * field m 1 1)
      else if tx = 4 ∧ ty = 2 then some (3 * field m 21 21)
      else some (field m (2 * (4 * ty + tx / 2) + 1) (2 * (4 * ty + tx / 2))) := by
  rcases Nat.mod_two_eq_zero_or_one (tx + ty) with hp | hp
  · rw [selectable2_of_even _ hp, if_neg (by omega), code2_subMode_axis hf, ← apply_ite some, ← apply_ite some, code2_eq_field]
    simp only [storedNumber_eq_zero hp, storedNumber_eq_ten hp hx]
    rfl
  · rw [selectable2_of_odd _ hp, if_pos hp]

/-- Settles O15: the adjusted bits give the codes of the stored texels; the other texels are left. -/
theorem selectableModulation2 : Obligations.SelectableModulation2 := by
  refine fun s k m => ⟨⟨_, rfl, fun hf => ?_⟩, ⟨_, rfl, fun hf _ => ?_⟩, ⟨_, rfl, fun hf _ => ?_⟩⟩
  · exact s.setGrids_unpacked (by omega) k .hv fun tx ty _ _ => selectable2_hv hf tx ty
  · exact s.setGrids_unpacked (by omega) k .hOnly fun tx ty hx _ => selectable2_axis hf hx
  · exact s.setGrids_unpacked (by omega) k .vOnly fun tx ty hx _ => selectable2_axis hf hx

/-- A fill of a grid that holds no code leaves the codes of the fill alone. -/
theorem fillGrids_codes_of_empty {P : Nat → Prop} {w : Nat} {k : Corner} (f : Nat → Nat → Option Nat)
    (tag : ModTag) {g : Grids} (hg : ∀ c, some c ∉ g.mv) (hf : ∀ x y c, f x y = some c → P c) {n c : Nat}
    (h : (fillGrids w k f tag g).mv[n]? = some (some c)) : P c := by
  rw [fillGrids_mv_getElem?, Option.map_eq_some_iff] at h
  obtain ⟨old, hold, h⟩ := h
  have hnone : old = none := by
    cases old with
    | none => rfl
    | some d => exact absurd (List.mem_of_getElem? hold) (hg d)
  subst hnone
  split at h
  · rw [Option.or_none] at h
    exact hf _ _ c h
  · cases h

theorem std4_mem {m : Word32} {x y c : Nat} (h : std4 m x y = some c) : c ∈ [0, 3, 5, 8] := by
  cases h
  have hall : ∀ d, d < 4 → stdWeight d ∈ [0, 3, 5, 8] := by decide
  exact hall _ (code2_lt _ _)

theorem pt4_mem {m : Word32} {x y c : Nat} (h : pt4 m x y = some c) : c ∈ [0, 4, 8, 14] := by
  cases h
  have hall : ∀ d, d < 4 → ptWeightCode d ∈ [0, 4, 8, 14] := by decide
  exact hall _ (code2_lt _ _)

theorem direct2_mem {m : Word32} {x y c : Nat} (h : direct2 m x y = some c) : c ∈ [0, 3] := by
  cases h
  split <;> decide

theorem selectable2_mem {bits : Word32} {x y c : Nat} (h : selectable2 bits x y = some c) : c ∈ [0, 1, 2, 3] := by
  unfold selectable2 at h
  split at h <;> cases h
  have hall : ∀ d, d < 4 → d ∈ [0, 1, 2, 3] := by decide
  exact hall _ (code2_lt _ _)

/-- The codes each form leaves in a grid that held none (R152). -/
theorem exec_mod_codes_of_empty {s t : State} {k : Corner} {m : Word32} {i : Instr} {w : Nat} {codes : List Nat}
    (hempty : ∀ c, some c ∉ s.grids.mv)
    (hrow : (i, w, codes) ∈
      [(Instr.mod4Std k m, 4, [0, 3, 5, 8]), (.mod4Pt k m, 4, [0, 4, 8, 14]), (.mod2Direct k m, 8, [0, 3]),
        (.mod2Hv k m, 8, [0, 1, 2, 3]), (.mod2H k m, 8, [0, 1, 2, 3]), (.mod2V k m, 8, [0, 1, 2, 3])])
    (ht : exec i s = .next t) {n c : Nat} (hc : t.mv[n]? = some (some c)) : c ∈ codes := by
  simp only [List.mem_cons, List.not_mem_nil, or_false, Prod.mk.injEq] at hrow
  rcases hrow with ⟨rfl, -, rfl⟩ | ⟨rfl, -, rfl⟩ | ⟨rfl, -, rfl⟩ | ⟨rfl, -, rfl⟩ | ⟨rfl, -, rfl⟩ | ⟨rfl, -, rfl⟩
  · cases ht
    exact fillGrids_codes_of_empty (std4 m) .direct hempty (fun _ _ _ => std4_mem) hc
  · cases ht
    exact fillGrids_codes_of_empty (pt4 m) .direct hempty (fun _ _ _ => pt4_mem) hc
  · cases ht
    exact fillGrids_codes_of_empty (direct2 m) .direct hempty (fun _ _ _ => direct2_mem) hc
  all_goals
    cases ht
    exact fillGrids_codes_of_empty (selectable2 (subMode m).2) .direct hempty (fun _ _ _ => selectable2_mem) hc

/-- Settles O16: on an empty grid the codes are those the form fills in. -/
theorem codeDomains : Obligations.CodeDomains :=
  fun _ _ _ _ _ _ _ hrow ht _ _ hc => exec_mod_codes_of_empty (none_replicate 128) hrow ht hc

end Sys2Proof.Machine
end

section
/-! The grids of a tile entry by entry, and the weights the resolver reads from them. -/

namespace Sys2Proof.Machine

/-! ## One fill at a time -/

/-- The grid entry of block texel `(tx, ty)` of block `k` (R141). -/
def quadrantEntry (w : Nat) (k : Corner) (tx ty : Nat) : Nat := 8 * ((quadrant w k).1 + tx) + ((quadrant w k).2 + ty)

/-- Every supergrid position is a texel of one quadrant, whose parity is the position's for an even block width. -/
theorem exists_quadrantEntry {w sx sy : Nat} (hx : sx < 2 * w) (hy : sy < 8) :
    ∃ k tx ty, tx < w ∧ ty < 4 ∧ quadrantEntry w k tx ty = 8 * sx + sy ∧
      (w % 2 = 0 → (tx + ty) % 2 = (sx + sy) % 2) := by
  unfold quadrantEntry
  by_cases h1 : sx < w
  · by_cases h2 : sy < 4
    · exact ⟨.p, sx, sy, h1, h2, by simp [quadrant], by omega⟩
    · exact ⟨.r, sx, sy - 4, h1, by omega, by simp only [quadrant]; omega, by omega⟩
  · by_cases h2 : sy < 4
    · exact ⟨.q, sx - w, sy, by omega, h2, by simp only [quadrant]; omega, by omega⟩
    · exact ⟨.s, sx - w, sy - 4, by omega, by omega, by simp only [quadrant]; omega, by omega⟩

/-- Entry `n` of both grids. -/
def Grids.EntryIs (g : Grids) (n : Nat) (code : Option Nat) (tag : Option ModTag) : Prop :=
  g.mv[n]? = some code ∧ g.mm[n]? = some tag

section
variable {w : Nat} {k : Corner} {tx ty : Nat} (hx : tx < w) (hy : ty < 4) {f : Nat → Nat → Option Nat} {tag : ModTag} {g : Grids}
include hy

theorem quadrantEntry_col : quadrantEntry w k tx ty / 8 = (quadrant w k).1 + tx := by
  obtain ⟨-, h⟩ := quadrant_bounds w k
  unfold quadrantEntry
  omega

theorem quadrantEntry_row : quadrantEntry w k tx ty % 8 = (quadrant w k).2 + ty := by
  obtain ⟨-, h⟩ := quadrant_bounds w k
  unfold quadrantEntry
  omega

include hx

/-- A fill gives an entry of its quadrant that held no code its own. -/
theorem fillGrids_inside (h : g.EntryIs (quadrantEntry w k tx ty) none none) :
    (fillGrids w k f tag g).EntryIs (quadrantEntry w k tx ty) (f tx ty) (some tag) := by
  rw [Grids.EntryIs, fillGrids_mv_getElem?, fillGrids_mm_getElem?, h.1, h.2, quadrantEntry_col hy, quadrantEntry_row hy,
    Nat.add_sub_cancel_left, Nat.add_sub_cancel_left]
  simp [hx, hy]

/-- The quadrants of two blocks share no entry. -/
theorem quadrant_disjoint {k' : Corner} (h : k' ≠ k) :
    ¬((quadrant w k').1 ≤ (quadrant w k).1 + tx ∧ (quadrant w k).1 + tx < (quadrant w k').1 + w ∧
      (quadrant w k').2 ≤ (quadrant w k).2 + ty ∧ (quadrant w k).2 + ty < (quadrant w k').2 + 4) := by
  cases k <;> cases k' <;> simp only [quadrant, ne_eq, not_true_eq_false] at h ⊢ <;> omega

/-- A fill of another block's quadrant leaves an entry alone. -/
theorem fillGrids_outside {k' : Corner} (hk : k' ≠ k) {v : Option Nat} {m : Option ModTag}
    (h : g.EntryIs (quadrantEntry w k tx ty) v m) : (fillGrids w k' f tag g).EntryIs (quadrantEntry w k tx ty) v m := by
  rw [Grids.EntryIs, fillGrids_mv_getElem?, fillGrids_mm_getElem?, h.1, h.2, quadrantEntry_col hy, quadrantEntry_row hy]
  simp only [if_neg (quadrant_disjoint hx hy hk), Option.map_some, and_self]

end

/-! ## The four fills of a tile -/

/-- The grids of a tile whose four words fill their quadrants by `f` and `tag`: each entry has its own block's. -/
theorem tileGrids_entry {b : Bool} {w : Corners CWord} {f : Corner → Nat → Nat → Option Nat} {tag : Corner → ModTag}
    (hfill : ∀ k g, unpack b k (w.get k) g = fillGrids (blockWidth b) k (f k) (tag k) g) (k : Corner) {tx ty : Nat}
    (hx : tx < blockWidth b) (hy : ty < 4) :
    (tileGrids b w).EntryIs (quadrantEntry (blockWidth b) k tx ty) (f k tx ty) (some (tag k)) := by
  have hlt : quadrantEntry (blockWidth b) k tx ty < 128 := by
    obtain ⟨h1, h2⟩ := quadrant_bounds (blockWidth b) k
    have hb : blockWidth b ≤ 8 := by unfold blockWidth; split <;> omega
    unfold quadrantEntry
    omega
  have h0 : Grids.EntryIs ⟨List.replicate 128 none, List.replicate 128 none⟩ (quadrantEntry (blockWidth b) k tx ty) none none :=
    ⟨List.getElem?_replicate_of_lt hlt, List.getElem?_replicate_of_lt hlt⟩
  have hp := hfill .p
  have hq := hfill .q
  have hr := hfill .r
  have hs := hfill .s
  simp only [Corners.get] at hp hq hr hs
  simp only [tileGrids, hp, hq, hr, hs]
  have out {k'} (h : k' ≠ k) {f tag g v m} := fillGrids_outside (f := f) (tag := tag) (g := g) (v := v) (m := m) hx hy h
  -- the entry stays empty until the fill of its own block, and is left alone after it
  cases k with
  | p => exact out (by decide) (out (by decide) (out (by decide) (fillGrids_inside hx hy h0)))
  | q => exact out (by decide) (out (by decide) (fillGrids_inside hx hy (out (by decide) h0)))
  | r => exact out (by decide) (fillGrids_inside hx hy (out (by decide) (out (by decide) h0)))
  | s => exact fillGrids_inside hx hy (out (by decide) (out (by decide) (out (by decide) h0)))

/-! ## What a word fills in -/

/-- A fill that stores a code below 4 at every texel that is direct or of even parity (R145 to R151). -/
def StoresSmallCodes (f : Nat → Nat → Option Nat) (tag : ModTag) : Prop :=
  ∀ tx ty, (tag = .direct ∨ (tx + ty) % 2 = 0) → ∃ c, f tx ty = some c ∧ c < 4

theorem direct2_storesSmallCodes (m : Word32) : StoresSmallCodes (direct2 m) .direct := fun tx ty _ =>
  ⟨_, rfl, by split <;> decide⟩

theorem selectable2_storesSmallCodes (bits : Word32) {tag : ModTag} (h : tag ≠ .direct) :
    StoresSmallCodes (selectable2 bits) tag := fun _ _ hp =>
  ⟨_, selectable2_of_even bits (hp.resolve_left h), code2_lt _ _⟩

/-- The fill of a 2 bpp word. -/
theorem unpack_true_fill (k : Corner) (w : CWord) :
    ∃ f tag, StoresSmallCodes f tag ∧ ∀ g, unpack true k w g = fillGrids 8 k f tag g := by
  simp only [unpack, decodeMod, if_true]
  cases modeBit w.col with
  | false => exact ⟨_, _, direct2_storesSmallCodes w.mod, fun _ => rfl⟩
  | true =>
    cases subFlag w.mod with
    | false => exact ⟨_, .hv, selectable2_storesSmallCodes (subMode w.mod).2 (by decide), fun _ => rfl⟩
    | true =>
      cases axisFlag w.mod with
      | false => exact ⟨_, .hOnly, selectable2_storesSmallCodes (subMode w.mod).2 (by decide), fun _ => rfl⟩
      | true => exact ⟨_, .vOnly, selectable2_storesSmallCodes (subMode w.mod).2 (by decide), fun _ => rfl⟩

/-- The fill of a 4 bpp word: a weight at every texel (R142, R143). -/
theorem unpack_false_fill (k : Corner) (w : CWord) :
    ∃ f, (∀ tx ty, ∃ c, f tx ty = some c ∧ c ∈ [0, 3, 4, 5, 8, 14]) ∧ ∀ g, unpack false k w g = fillGrids 4 k f .direct g := by
  have hstd : ∀ d, d < 4 → stdWeight d ∈ [0, 3, 4, 5, 8, 14] := by decide
  have hpt : ∀ d, d < 4 → ptWeightCode d ∈ [0, 3, 4, 5, 8, 14] := by decide
  simp only [unpack, decodeMod]
  cases modeBit w.col with
  | false => exact ⟨std4 w.mod, fun _ _ => ⟨_, rfl, hstd _ (code2_lt _ _)⟩, fun _ => rfl⟩
  | true => exact ⟨pt4 w.mod, fun _ _ => ⟨_, rfl, hpt _ (code2_lt _ _)⟩, fun _ => rfl⟩

/-! ## The grids after UNPACK (R176) -/

theorem unpackPhase_grids (s : State) : (unpackPhase s).grids = tileGrids s.cfg.is2bpp s.wd := by
  rw [unpackPhase_eq]
  rfl

@[simp] theorem unpackPhase_cfg (s : State) : (unpackPhase s).cfg = s.cfg := by rw [unpackPhase_eq]

/-- At 2 bpp every entry holds a tag, and a code below 4 where the tag is Direct or the parity even. -/
theorem unpackPhase_entry_2bpp {s : State} (hb : s.cfg.is2bpp = true) {sx sy : Nat} (hx : sx < 16) (hy : sy < 8) :
    ∃ tag, (unpackPhase s).mm[8 * sx + sy]? = some (some tag) ∧
      ((tag = .direct ∨ (sx + sy) % 2 = 0) → ∃ c, (unpackPhase s).HoldsCode sx sy c ∧ c < 4) := by
  choose f tag hsmall hfill using fun k => unpack_true_fill k (s.wd.get k)
  obtain ⟨k, tx, ty, htx, hty, hn, hpar⟩ := exists_quadrantEntry (w := 8) (by omega : sx < 2 * 8) hy
  obtain ⟨hmv, hmm⟩ := tileGrids_entry (b := true) hfill k htx hty
  have hg : tileGrids true s.wd = (unpackPhase s).grids := by rw [unpackPhase_grids, hb]
  rw [show blockWidth true = 8 from rfl, hn, hg] at hmv hmm
  refine ⟨tag k, hmm, fun h => ?_⟩
  obtain ⟨c, hc, hlt⟩ := hsmall k tx ty (h.imp_right fun he => by omega)
  exact ⟨c, ⟨hx, hy, hmv.trans (congrArg some hc)⟩, hlt⟩

/-- At 4 bpp every entry of the eight columns in use holds a weight. -/
theorem unpackPhase_entry_4bpp {s : State} (hb : s.cfg.is2bpp = false) {sx sy : Nat} (hx : sx < 8) (hy : sy < 8) :
    ∃ c, (unpackPhase s).HoldsCode sx sy c ∧ c ∈ [0, 3, 4, 5, 8, 14] := by
  choose f hcode hfill using fun k => unpack_false_fill k (s.wd.get k)
  obtain ⟨k, tx, ty, htx, hty, hn, -⟩ := exists_quadrantEntry (w := 4) (by omega : sx < 2 * 4) hy
  obtain ⟨hmv, -⟩ := tileGrids_entry (b := false) hfill k htx hty
  have hg : tileGrids false s.wd = (unpackPhase s).grids := by rw [unpackPhase_grids, hb]
  rw [show blockWidth false = 4 from rfl, hn, hg] at hmv
  obtain ⟨c, hc, hmem⟩ := hcode k tx ty
  exact ⟨c, ⟨by omega, hy, hmv.trans (congrArg some hc)⟩, hmem⟩

/-- Settles O20: the entries of even parity hold their codes whatever the word, and those are the ones averaged. -/
theorem resolverReadsFindValues : Obligations.ResolverReadsFindValues := by
  intro s c r _ hp hb hc hr
  have stored : ∀ sx sy, sx < 16 → sy < 8 → (sx + sy) % 2 = 0 → ∃ code, (unpackPhase s).HoldsCode sx sy code ∧ code < 4 := by
    intro sx sy hx hy he
    obtain ⟨_, -, hcode⟩ := unpackPhase_entry_2bpp hb hx hy
    exact hcode (.inr he)
  obtain ⟨tag, htag, hown⟩ := unpackPhase_entry_2bpp hb (by omega : c + 4 < 16) (by omega : r + 2 < 8)
  refine ⟨unpackPhase s, phaseStep_of_unpack hp, tag, htag, fun h => hown (h.imp_right fun he => by omega), fun hodd => ?_⟩
  exact ⟨stored _ _ (by omega) (by omega) (by omega), stored _ _ (by omega) (by omega) (by omega),
    stored _ _ (by omega) (by omega) (by omega), stored _ _ (by omega) (by omega) (by omega)⟩

/-! ## Weights (R172, R177) -/

theorem exec_resolveStored (s : State) (sx sy : Nat) :
    exec (.resolveStored sx sy) s = .next (s.setWeight (weightStored s.mv sx sy)) := rfl

/-- Settles O18: the decoder selects the form by tag and parity, and the weight is the magnitude of the code read. -/
theorem storedWeights2 : Obligations.StoredWeights2 := by
  refine ⟨fun sx sy tag h => ?_, fun s sx sy => ⟨_, exec_resolveStored s sx sy, rfl, fun c hc hlt => ?_⟩⟩
  · rcases h with rfl | he
    · simp [decodeResolve]
    · simp [decodeResolve, oddParity, he]
  · rw [State.setWeight_weight, weightStored, hc.repAt_eq hlt]

theorem repTable_le (c : Nat) : repTable c ≤ 8 := by
  match c with
  | 0 | 1 | 2 | 3 => decide
  | n + 4 => exact Nat.zero_le 8

/-- The code of an entry that holds one below 4 has a magnitude of at most 8. -/
theorem State.HoldsCode.repAt_le {s : State} {sx sy c : Nat} (h : s.HoldsCode sx sy c) (hc : c < 4) :
    repAt s.mv sx sy ≤ 8 := by
  rw [h.repAt_eq hc]
  exact repTable_le c

theorem tagAt_eq {mm : List (Option ModTag)} {sx sy : Nat} {tag : ModTag} (h : mm[8 * sx + sy]? = some (some tag)) :
    tagAt mm sx sy = tag := by
  rw [tagAt, gridIndex, h]

/-- A 2 bpp weight is a magnitude or an average of magnitudes, each at most 8 (R177). -/
theorem weightOf_unpackPhase_le {s : State} (hb : s.cfg.is2bpp = true) {sx sy : Nat} (h0 : 1 ≤ sx) (hx : sx < 15)
    (h1 : 1 ≤ sy) (hy : sy < 7) : weightOf true (unpackPhase s).grids sx sy ≤ 8 := by
  have stored : ∀ x y : Nat, x < 16 → y < 8 → (x + y) % 2 = 0 → repAt (unpackPhase s).mv x y ≤ 8 := by
    intro x y hx hy he
    obtain ⟨_, -, hcode⟩ := unpackPhase_entry_2bpp hb hx hy
    obtain ⟨c, hc, hlt⟩ := hcode (.inr he)
    exact hc.repAt_le hlt
  obtain ⟨tag, htag, hown⟩ := unpackPhase_entry_2bpp hb (by omega : sx < 16) (by omega : sy < 8)
  have hself : (tag = .direct ∨ (sx + sy) % 2 = 0) → repAt (unpackPhase s).mv sx sy ≤ 8 := by
    intro h
    obtain ⟨c, hc, hlt⟩ := hown h
    exact hc.repAt_le hlt
  unfold weightOf
  rw [show (unpackPhase s).grids.mm = (unpackPhase s).mm from rfl, tagAt_eq htag,
    show (unpackPhase s).grids.mv = (unpackPhase s).mv from rfl]
  by_cases hodd : (sx + sy) % 2 = 1
  · have hup := stored sx (sy - 1) (by omega) (by omega) (by omega)
    have hdown := stored sx (sy + 1) (by omega) (by omega) (by omega)
    have hleft := stored (sx - 1) sy (by omega) (by omega) (by omega)
    have hright := stored (sx + 1) sy (by omega) (by omega) (by omega)
    push_cast [h0, h1] at hup hdown hleft hright
    cases tag with
    | direct => simpa [decodeResolve, weightStored] using hself (.inl rfl)
    | hv => simp only [decodeResolve, oddParity, hodd, decide_true, if_true, weightHv]; omega
    | hOnly => simp only [decodeResolve, oddParity, hodd, decide_true, if_true, weightH]; omega
    | vOnly => simp only [decodeResolve, oddParity, hodd, decide_true, if_true, weightV]; omega
  · have he : oddParity sx sy = false := by simp [oddParity]; omega
    simpa [decodeResolve, he, weightStored] using hself (.inr (by omega))

theorem weightOf_unpackPhase_mem {s : State} (hb : s.cfg.is2bpp = false) {sx sy : Nat} (hx : sx < 8) (hy : sy < 8) :
    weightOf false (unpackPhase s).grids sx sy ∈ [0, 3, 4, 5, 8, 14] := by
  obtain ⟨c, hc, hmem⟩ := unpackPhase_entry_4bpp hb hx hy
  show codeAt (unpackPhase s).mv sx sy ∈ _
  rw [hc.codeAt_eq]
  exact hmem

theorem decode_compose_of_le {s : State} (h : s.weight ≤ 10) (j : Nat) : decode (s.fetchSlot (.compose j)) = .compose j :=
  if_pos h

/-- Settles O21: the weight the decoded operation hands on is that of the unpacked grids. -/
theorem weightsInRange : Obligations.WeightsInRange := by
  intro s c r _ hp hc hr
  refine ⟨unpackPhase s, _, phaseStep_of_unpack hp, exec_resolve _ _ _, fun hb => ?_, fun hb => ?_⟩
  · simp only [hb, if_true] at hc
    have hle : weightOf true (unpackPhase s).grids (c + 4) (r + 2) ≤ 8 :=
      weightOf_unpackPhase_le hb (by omega) (by omega : c + 4 < 15) (by omega) (by omega)
    simp only [unpackPhase_cfg, hb, if_true]
    exact ⟨hle, decode_compose_of_le (Nat.le_trans hle (by omega))⟩
  · simp only [hb, Bool.false_eq_true, if_false] at hc
    simp only [unpackPhase_cfg, hb, Bool.false_eq_true, if_false]
    exact weightOf_unpackPhase_mem hb (by omega) (by omega)

end Sys2Proof.Machine
end

section
/-! The interpolation and the blends, one operation at a time. -/

namespace Sys2Proof.Machine

/-! ## The accumulator and the narrowings over natural numbers (R192 to R195) -/

theorem accAt_eq_accClosed {w c n : Nat} (hc : c ≤ w) (hn : n ≤ 4) (p q r s : Byte) :
    accAt w (chan p) (chan q) (chan r) (chan s) c n = accClosed w p q r s c n := by
  rw [accAt_eq, accClosed]
  simp only [chan]
  push_cast [hc, hn]
  ring

theorem channel_natCast (n : Nat) : channel n = BitVec.ofNat 32 n := BitVec.ofInt_natCast 32 n

theorem narrowRgb4_natCast (n : Nat) : narrowRgb4 n = (n / 64 + n / 2 : Nat) := by
  simp [narrowRgb4, Int.shiftRight_eq_div_pow]

theorem narrowA4_natCast (n : Nat) : narrowA4 n = (n / 16 + n : Nat) := by
  simp [narrowA4, Int.shiftRight_eq_div_pow]

theorem narrowRgb2_natCast (n : Nat) : narrowRgb2 n = (n / 128 + n / 4 : Nat) := by
  simp [narrowRgb2, Int.shiftRight_eq_div_pow]

theorem narrowA2_natCast (n : Nat) : narrowA2 n = (n / 32 + n / 2 : Nat) := by
  simp [narrowA2, Int.shiftRight_eq_div_pow]

/-- An entry of a 4 bpp buffer by the closed form (R194). -/
theorem interpTexel_false (k : Corners Pixel32) {c r : Nat} (hc : c < 4) (hr : r < 4) :
    let acc := fun (f : Pixel32 → Byte) (c r : Nat) => accClosed 4 (f k.p) (f k.q) (f k.r) (f k.s) c r
    interpTexel false k c r =
      ⟨BitVec.ofNat 32 (acc (·.r) c r / 64 + acc (·.r) c r / 2), BitVec.ofNat 32 (acc (·.g) c r / 64 + acc (·.g) c r / 2),
        BitVec.ofNat 32 (acc (·.b) c r / 64 + acc (·.b) c r / 2), BitVec.ofNat 32 (acc (·.a) c r / 16 + acc (·.a) c r)⟩ := by
  show texel4 k c r = _
  simp only [texel4, accAt_eq_accClosed (Nat.le_of_lt hc) (Nat.le_of_lt hr), narrowRgb4_natCast, narrowA4_natCast,
    channel_natCast]

/-- An entry of a 2 bpp buffer by the closed form (R195). -/
theorem interpTexel_true (k : Corners Pixel32) {c r : Nat} (hc : c < 8) (hr : r < 4) :
    let acc := fun (f : Pixel32 → Byte) (c r : Nat) => accClosed 8 (f k.p) (f k.q) (f k.r) (f k.s) c r
    interpTexel true k c r =
      ⟨BitVec.ofNat 32 (acc (·.r) c r / 128 + acc (·.r) c r / 4), BitVec.ofNat 32 (acc (·.g) c r / 128 + acc (·.g) c r / 4),
        BitVec.ofNat 32 (acc (·.b) c r / 128 + acc (·.b) c r / 4), BitVec.ofNat 32 (acc (·.a) c r / 32 + acc (·.a) c r / 2)⟩ := by
  show texel2 k c r = _
  simp only [texel2, accAt_eq_accClosed (Nat.le_of_lt hc) (Nat.le_of_lt hr), narrowRgb2_natCast, narrowA2_natCast,
    channel_natCast]

/-! ## The buffer of a slot (R190) -/

theorem State.setColorBuf_colorBuf (s : State) (c : ColorSlot) (u : List (Option Pixel128)) :
    (s.setColorBuf c u).colorBuf c = u := by
  cases c <;> rfl

/-- The interpolation of a slot is what `Interpolated` asks of its buffer. -/
theorem State.interpolate_interpolated (s : State) (b : Bool) (slot : ColorSlot) {f : Nat → Nat → Pixel128}
    (hf : ∀ c r, c < blockWidth b → r < 4 → interpTexel b (s.cornerColors slot) c r = f c r) :
    s.Interpolated (s.interpolate b slot) slot (blockWidth b) f := by
  have hbuf : (s.interpolate b slot).colorBuf slot =
      fillBuffer (blockWidth b) (interpTexel b (s.cornerColors slot)) (s.colorBuf slot) := s.setColorBuf_colorBuf slot _
  refine ⟨by cases slot <;> rfl, ?_, fun c r hc hr hlen => ?_, fun j hj => ?_⟩
  · rw [hbuf, fillBuffer_length]
  · have hlt : r * blockWidth b + c < blockWidth b * 4 := by nlinarith
    have hcol : texelCol (blockWidth b) (r * blockWidth b + c) = c := by
      rw [texelCol, Nat.mul_add_mod_of_lt hc]
    have hrow : texelRow (blockWidth b) (r * blockWidth b + c) = r := by
      rw [texelRow, Nat.mul_comm, Nat.mul_add_div (by omega), Nat.div_eq_of_lt hc, Nat.add_zero]
    rw [hbuf, fillBuffer_getElem?, List.getElem?_eq_getElem hlen, Option.map_some, if_pos hlt, hcol, hrow, hf c r hc hr]
  · rw [hbuf, fillBuffer_getElem?]
    simp only [if_neg (by omega : ¬j < blockWidth b * 4), Option.map_id']

/-- Settles O22: each entry is the narrowed accumulator, whose loop gives the closed form. -/
theorem interpolation4 : Obligations.Interpolation4 := by
  intro s slot
  refine ⟨_, rfl, s.interpolate_interpolated false slot fun c r hc hr => ?_⟩
  cases slot
  · exact interpTexel_false s.ca hc hr
  · exact interpTexel_false s.cb hc hr

/-- Settles O23: as at 4 bpp, with eight columns and the narrowings of 2 bpp. -/
theorem interpolation2 : Obligations.Interpolation2 := by
  intro s slot
  refine ⟨_, rfl, s.interpolate_interpolated true slot fun c r hc hr => ?_⟩
  cases slot
  · exact interpTexel_true s.ca hc hr
  · exact interpTexel_true s.cb hc hr

/-! ## The blends (R211 to R215) -/

theorem exec_composePlain (s : State) (j : Nat) :
    exec (.compose j) s = .next (s.setTexel j (composePlain s.weight (colorAt .a s.ua j) (colorAt .b s.ub j))) := rfl

theorem exec_composePtI (s : State) (j : Nat) :
    exec (.composePtI j) s = .next (s.setTexel j (composeI s.weight (colorAt .a s.ua j) (colorAt .b s.ub j))) := rfl

theorem exec_composePtII (s : State) (j : Nat) : exec (.composePtII j) s = .next (s.setTexel j composeII) := rfl

theorem State.setTexel_texelOnly (s : State) (j : Nat) (p : Pixel32) : s.TexelOnly (s.setTexel j p) j :=
  ⟨rfl, List.length_set, fun _ h => List.getElem?_set_ne (Ne.symm h)⟩

theorem State.setTexel_getElem? (s : State) {j : Nat} (p : Pixel32) (h : j < s.tile.length) :
    (s.setTexel j p).tile[j]? = some (some p) := List.getElem?_set_self h

theorem colorAt_eq {c : ColorSlot} {u : List (Option Pixel128)} {j : Nat} {p : Pixel128} (h : u[j]? = some (some p)) :
    colorAt c u j = p := by
  rw [colorAt, h]

theorem ptWeight_of_le {code : Nat} (h : code ≤ 10) : ptWeight code = code := by
  simp [ptWeight, ptFlag, Nat.not_lt.mpr h]

theorem ptWeight_of_gt {code : Nat} (h : 10 < code) : ptWeight code = code - 10 := by
  simp [ptWeight, ptFlag, h]

theorem setWidth_ofInt (v : Int) : (BitVec.ofInt 32 v).setWidth 8 = BitVec.ofInt 8 v := by
  apply BitVec.eq_of_toNat_eq
  rw [BitVec.toNat_setWidth, BitVec.toNat_ofInt, BitVec.toNat_ofInt]
  omega

/-- Bits 7:0 of a blended channel (R212). -/
theorem setWidth_blendChannel {w : Nat} (hw : w ≤ 8) (a b : BitVec 32) :
    (blendChannel w a b).setWidth 8 = BitVec.ofInt 8 ((a.toInt * (8 - (w : Int)) + b.toInt * (w : Int)) / 8) := by
  rw [blendChannel, if_pos hw, setWidth_ofInt]

/-- Settles O25: the decoder splits at code 10, and each form writes its own blend. -/
theorem blendOperations : Obligations.BlendOperations := by
  refine ⟨fun j code => ⟨fun h v => if_pos h, fun h => ⟨if_neg (by omega), if_neg (by omega)⟩⟩, fun s j => ⟨?_, ?_, ?_⟩⟩
  · refine ⟨_, exec_composePlain s j, s.setTexel_texelOnly j _, fun a b hj hw ha hb => ?_⟩
    rw [s.setTexel_getElem? _ hj, colorAt_eq ha, colorAt_eq hb, composePlain, ptWeight_of_le (by omega)]
    simp only [blend, narrow8, setWidth_blendChannel hw]
  · refine ⟨_, exec_composePtI s j, s.setTexel_texelOnly j _, fun a b hj hw hw' ha hb => ?_⟩
    rw [s.setTexel_getElem? _ hj, colorAt_eq ha, colorAt_eq hb, composeI, ptWeight_of_gt hw]
    have hcast : ((s.weight - 10 : Nat) : Int) = (s.weight : Int) - 10 := by omega
    simp only [blend, narrow8, setWidth_blendChannel (by omega : s.weight - 10 ≤ 8), hcast]
    rfl
  · exact ⟨_, exec_composePtII s j, s.setTexel_texelOnly j _, fun hj => s.setTexel_getElem? _ hj⟩

/-- A blended channel of two channels up to 255 is the whole quotient (R215). -/
theorem toNat_setWidth_blendChannel {w : Nat} (hw : w ≤ 8) {a b : BitVec 32} (ha : a.toNat ≤ 255) (hb : b.toNat ≤ 255) :
    ((blendChannel w a b).setWidth 8).toNat = (a.toNat * (8 - w) + b.toNat * w) / 8 := by
  have hsum : a.toNat * (8 - w) + b.toNat * w ≤ 255 * 8 := by
    calc a.toNat * (8 - w) + b.toNat * w ≤ 255 * (8 - w) + 255 * w :=
          Nat.add_le_add (Nat.mul_le_mul_right _ ha) (Nat.mul_le_mul_right _ hb)
      _ = 255 * 8 := by omega
  have hcast : (a.toInt * (8 - (w : Int)) + b.toInt * (w : Int)) / 8 = ((a.toNat * (8 - w) + b.toNat * w) / 8 : Nat) := by
    rw [BitVec.toInt_eq_toNat_of_lt (by omega), BitVec.toInt_eq_toNat_of_lt (by omega)]
    push_cast [hw]
    rfl
  rw [setWidth_blendChannel hw, hcast, BitVec.ofInt_natCast, BitVec.toNat_ofNat]
  omega

/-- Settles O26: an average of channels up to 255 fits in eight bits. -/
theorem narrowingIsExact : Obligations.NarrowingIsExact := by
  intro s t j a b p hw ha hb ⟨har, hag, hab, haa⟩ ⟨hbr, hbg, hbb, hba⟩ ht hp
  cases ht
  have hj : j < s.tile.length := by
    have h := (List.getElem?_eq_some_iff.mp hp).1
    rwa [(s.setTexel_texelOnly j _).2.1] at h
  rw [s.setTexel_getElem? _ hj, colorAt_eq ha, colorAt_eq hb, composePlain, ptWeight_of_le (by omega)] at hp
  cases hp
  exact ⟨toNat_setWidth_blendChannel hw har hbr, toNat_setWidth_blendChannel hw hag hbg,
    toNat_setWidth_blendChannel hw hab hbb, toNat_setWidth_blendChannel hw haa hba⟩

end Sys2Proof.Machine
end

section
/-! The Morton order bit by bit, and the bijection of either mapping (R232 to R235). -/

namespace Sys2Proof.Machine

/-! ## The bits of a Morton index -/

/-- The interleave of `n` bits of both coordinates, the low axis first (R232). -/
def lowInterleave (ax : Axis) (n x y : Nat) : Nat :=
  match ax with
  | .y => interleave n y x
  | .x => interleave n x y

/-- At the positions of one parity stand the bits of one coordinate. -/
theorem lowInterleave_testBit (ax : Axis) (n x y m : Nat) :
    (lowInterleave ax n x y).testBit m =
      (decide (m < 2 * n) && (if m % 2 = 0 ↔ ax = .y then y else x).testBit (m / 2)) := by
  cases ax <;> by_cases h : m % 2 = 0 <;> simp [lowInterleave, interleave_testBit, h]

theorem mortonIndex_eq_lowInterleave (ax : Axis) (a b x y : Nat) :
    mortonIndex ax (2 ^ a) (2 ^ b) x y =
      if b < a then lowInterleave ax b x y ||| (x >>> b) <<< (2 * b)
      else if a < b then lowInterleave ax a x y ||| (y >>> a) <<< (2 * a)
      else lowInterleave ax a x y := by
  rw [mortonIndex_pow2]
  cases ax <;> rfl

/-- A block of high bits moved up to double its place. -/
theorem testBit_tail (v n m : Nat) : ((v >>> n) <<< (2 * n)).testBit m = (decide (2 * n ≤ m) && v.testBit (m - n)) := by
  rw [Nat.testBit_shiftLeft, Nat.testBit_shiftRight]
  by_cases h : 2 * n ≤ m
  · rw [show n + (m - 2 * n) = m - n by omega]
  · simp [h]

theorem mortonIndex_testBit (ax : Axis) (a b x y m : Nat) :
    (mortonIndex ax (2 ^ a) (2 ^ b) x y).testBit m =
      if m < 2 * min a b then (if m % 2 = 0 ↔ ax = .y then y else x).testBit (m / 2)
      else if b < a then x.testBit (m - b)
      else if a < b then y.testBit (m - a)
      else false := by
  rw [mortonIndex_eq_lowInterleave]
  rcases Nat.lt_trichotomy a b with h | rfl | h
  · simp only [if_neg (Nat.lt_asymm h), if_pos h, Nat.min_eq_left (Nat.le_of_lt h), Nat.testBit_or, lowInterleave_testBit,
      testBit_tail]
    rcases Nat.lt_or_ge m (2 * a) with hm | hm
    · simp [hm, Nat.not_le.mpr hm]
    · simp [hm, Nat.not_lt.mpr hm]
  · simp only [Nat.lt_irrefl, if_false, Nat.min_self, lowInterleave_testBit]
    by_cases hm : m < 2 * a <;> simp [hm]
  · simp only [if_pos h, Nat.min_eq_right (Nat.le_of_lt h), Nat.testBit_or, lowInterleave_testBit, testBit_tail]
    rcases Nat.lt_or_ge m (2 * b) with hm | hm
    · simp [hm, Nat.not_le.mpr hm]
    · simp [hm, Nat.not_lt.mpr hm]

theorem exec_idxMorton (s : State) (k : Corner) :
    exec (.idxMorton k) s = if gridPow2 s.cfg then
      .next (s.setIx k (mortonIndex s.mortonLow s.cfg.gw s.cfg.gh (s.blk.get k).1 (s.blk.get k).2))
    else .fault .mortonNotPow2 := rfl

theorem gridPow2_iff (c : Latched) : gridPow2 c = true ↔ (∃ a, c.gw = 2 ^ a) ∧ ∃ b, c.gh = 2 ^ b := by
  rw [gridPow2, Bool.and_eq_true, pow2_iff, pow2_iff]

/-- Settles O28: the interleave and the moved high bits share no position. -/
theorem mortonIndexOperation : Obligations.MortonIndexOperation := by
  intro s k a b ha hb
  have hg : gridPow2 s.cfg = true := (gridPow2_iff s.cfg).mpr ⟨⟨a, ha⟩, b, hb⟩
  refine ⟨_, _, (exec_idxMorton s k).trans (if_pos hg), s.setIx_ixWritten k _, fun m => ?_⟩
  rw [ha, hb]
  exact mortonIndex_testBit _ a b _ _ m

/-- Settles O29: the operation tests the grid before it computes. -/
theorem mortonStopsOffPowersOfTwo : Obligations.MortonStopsOffPowersOfTwo := fun s k h =>
  (exec_idxMorton s k).trans (if_neg fun hg => h ((gridPow2_iff s.cfg).mp hg))

/-! ## The bijection (R235) -/

/-- The place of a bit of `x` in its pair: above that of the low axis `y`. -/
def xPlace : Axis → Nat
  | .x => 0
  | .y => 1

theorem mortonIndex_testBit_x (ax : Axis) {a b : Nat} (x y : Nat) {i : Nat} (hi : i < min a b) :
    (mortonIndex ax (2 ^ a) (2 ^ b) x y).testBit (2 * i + xPlace ax) = x.testBit i := by
  rw [mortonIndex_testBit]
  cases ax with
  | x => rw [xPlace, Nat.add_zero, if_pos (show 2 * i < 2 * min a b by omega)]; simp
  | y => rw [xPlace, if_pos (show 2 * i + 1 < 2 * min a b by omega), show (2 * i + 1) / 2 = i by omega]; simp

theorem mortonIndex_testBit_y (ax : Axis) {a b : Nat} (x y : Nat) {i : Nat} (hi : i < min a b) :
    (mortonIndex ax (2 ^ a) (2 ^ b) x y).testBit (2 * i + (1 - xPlace ax)) = y.testBit i := by
  rw [mortonIndex_testBit]
  cases ax with
  | x => rw [xPlace, Nat.sub_zero, if_pos (show 2 * i + 1 < 2 * min a b by omega), show (2 * i + 1) / 2 = i by omega]; simp
  | y => rw [xPlace, Nat.sub_self, Nat.add_zero, if_pos (show 2 * i < 2 * min a b by omega)]; simp

/-- Above the interleave stand the remaining bits of a wider `x`, or of a longer `y`. -/
theorem mortonIndex_testBit_wide (ax : Axis) {a b : Nat} (x y : Nat) (h : b < a) {i : Nat} (hi : b ≤ i) :
    (mortonIndex ax (2 ^ a) (2 ^ b) x y).testBit (i + b) = x.testBit i := by
  rw [mortonIndex_testBit, if_neg (show ¬i + b < 2 * min a b by omega), if_pos h, Nat.add_sub_cancel]

theorem mortonIndex_testBit_tall (ax : Axis) {a b : Nat} (x y : Nat) (h : a < b) {i : Nat} (hi : a ≤ i) :
    (mortonIndex ax (2 ^ a) (2 ^ b) x y).testBit (i + a) = y.testBit i := by
  rw [mortonIndex_testBit, if_neg (show ¬i + a < 2 * min a b by omega), if_neg (Nat.lt_asymm h), if_pos h,
    Nat.add_sub_cancel]

theorem testBit_eq_false_of_lt_two_pow {v n i : Nat} (hv : v < 2 ^ n) (hi : n ≤ i) : v.testBit i = false :=
  Nat.testBit_lt_two_pow (Nat.lt_of_lt_of_le hv (Nat.pow_le_pow_right (by omega) hi))

/-- Every bit of both coordinates can be read back from a Morton index. -/
theorem mortonIndex_injective (ax : Axis) {a b x y x' y' : Nat} (hx : x < 2 ^ a) (hy : y < 2 ^ b) (hx' : x' < 2 ^ a)
    (hy' : y' < 2 ^ b) (h : mortonIndex ax (2 ^ a) (2 ^ b) x y = mortonIndex ax (2 ^ a) (2 ^ b) x' y') :
    x = x' ∧ y = y' := by
  constructor
  · refine Nat.eq_of_testBit_eq fun i => ?_
    by_cases hi : i < min a b
    · rw [← mortonIndex_testBit_x ax x y hi, h, mortonIndex_testBit_x ax x' y' hi]
    · by_cases hab : b < a
      · rw [← mortonIndex_testBit_wide ax x y hab (by omega), h, mortonIndex_testBit_wide ax x' y' hab (by omega)]
      · rw [testBit_eq_false_of_lt_two_pow hx (by omega), testBit_eq_false_of_lt_two_pow hx' (by omega)]
  · refine Nat.eq_of_testBit_eq fun i => ?_
    by_cases hi : i < min a b
    · rw [← mortonIndex_testBit_y ax x y hi, h, mortonIndex_testBit_y ax x' y' hi]
    · by_cases hab : a < b
      · rw [← mortonIndex_testBit_tall ax x y hab (by omega), h, mortonIndex_testBit_tall ax x' y' hab (by omega)]
      · rw [testBit_eq_false_of_lt_two_pow hy (by omega), testBit_eq_false_of_lt_two_pow hy' (by omega)]

theorem linearIndex_injective {gw x y x' y' : Nat} (hx : x < gw) (hx' : x' < gw)
    (h : linearIndex gw x y = linearIndex gw x' y') : x = x' ∧ y = y' := by
  unfold linearIndex at h
  constructor
  · rw [← Nat.mul_add_mod_of_lt (b := gw) (a := y) hx, h, Nat.mul_add_mod_of_lt hx']
  · have hdiv : ∀ u v, u < gw → (v * gw + u) / gw = v := fun u v hu => by
      rw [Nat.mul_comm, Nat.mul_add_div (by omega), Nat.div_eq_of_lt hu, Nat.add_zero]
    rw [← hdiv x y hx, h, hdiv x' y' hx']

/-- An injection of the blocks of a grid into as many indices reaches every index. -/
theorem surjective_of_grid_injective {gw gh : Nat} {f : Nat × Nat → Nat}
    (hlt : ∀ x y, x < gw → y < gh → f (x, y) < gw * gh)
    (hinj : ∀ x y x' y', x < gw → y < gh → x' < gw → y' < gh → f (x, y) = f (x', y') → x = x' ∧ y = y') {n : Nat}
    (hn : n < gw * gh) : ∃ x y, x < gw ∧ y < gh ∧ f (x, y) = n := by
  have hbij : Function.Bijective fun p : Fin gw × Fin gh => (⟨f (p.1, p.2), hlt _ _ p.1.2 p.2.2⟩ : Fin (gw * gh)) := by
    refine (Fintype.bijective_iff_injective_and_card _).mpr ⟨fun p q h => ?_, by simp⟩
    obtain ⟨hx, hy⟩ := hinj _ _ _ _ p.1.2 p.2.2 q.1.2 q.2.2 (Fin.val_eq_of_eq h)
    exact Prod.ext (Fin.ext hx) (Fin.ext hy)
  obtain ⟨p, hp⟩ := hbij.surjective ⟨n, hn⟩
  exact ⟨p.1, p.2, p.1.2, p.2.2, Fin.val_eq_of_eq hp⟩

/-- Settles O30: either mapping is injective into `gw*gh` indices, so it reaches them all. -/
theorem indexIsBijection : Obligations.IndexIsBijection := by
  intro s hpow
  have horder : s.orderDefined = true := by
    unfold State.orderDefined
    cases hv : s.cfg.variant with
    | pvrtcI => exact (gridPow2_iff s.cfg).mpr (hpow hv)
    | pvrtcII => rfl
  have hlt : ∀ x y, x < s.cfg.gw → y < s.cfg.gh → s.indexOf (x, y) < s.cfg.gw * s.cfg.gh := by
    intro x y hx hy
    unfold State.indexOf
    cases hv : s.cfg.variant with
    | pvrtcI =>
      obtain ⟨ha, hb⟩ := hpow hv
      exact mortonIndex_lt _ _ _ x y ((pow2_iff _).mpr ha) ((pow2_iff _).mpr hb) hx hy
    | pvrtcII => exact linearIndex_lt _ _ x y hx hy
  have hinj : ∀ x y x' y', x < s.cfg.gw → y < s.cfg.gh → x' < s.cfg.gw → y' < s.cfg.gh →
      s.indexOf (x, y) = s.indexOf (x', y') → x = x' ∧ y = y' := by
    intro x y x' y' hx hy hx' hy' h
    unfold State.indexOf at h
    cases hv : s.cfg.variant with
    | pvrtcI =>
      obtain ⟨⟨a, ha⟩, b, hb⟩ := hpow hv
      rw [hv, ha, hb] at h
      exact mortonIndex_injective _ (ha ▸ hx) (hb ▸ hy) (ha ▸ hx') (hb ▸ hy') h
    | pvrtcII =>
      rw [hv] at h
      exact linearIndex_injective hx hx' h
  exact ⟨fun k => ⟨_, exec_index s k horder, (s.setIx_ixWritten k _).2.1⟩, hlt, hinj,
    fun n hn => surjective_of_grid_injective hlt hinj hn⟩

end Sys2Proof.Machine
end
